-- ==== Sys2Proof/Word.lean ====
section
/-! DEFINITION. The word types of the FFT butterfly datapath: bus bytes and words, and binary64
components (20_memory.md R73, R77, R78). -/

namespace Sys2Proof

/-- One byte lane of the bus (R77). -/
abbrev Byte := BitVec 8

/-- A 32-bit bus word or register (10_state.md R32). -/
abbrev Word := BitVec 32

/-- The 64-bit encoding of one binary64 component (R78). -/
abbrev B64 := BitVec 64

/-- A sample, bank entry or coefficient: a pair of binary64 components (10_state.md R47). -/
structure Sample where
  re : B64
  im : B64
deriving DecidableEq, Repr

end Sys2Proof
end

