-- ==== Sys2Proof/Machine/Bytes.lean ====
section
/-! DEFINITION. Byte order, decided once: little-endian (20_memory.md R77, R73). -/

namespace Sys2Proof

/-- The word with byte lanes 0 to 3: lane k carries bits [8k+7 : 8k] (R77). -/
def wordOfBytes (b0 b1 b2 b3 : Byte) : Word := b3 ++ b2 ++ b1 ++ b0

/-- Byte lane k of a word: bits [8k+7 : 8k] (R77). -/
def byteLane (w : Word) (k : Nat) : Byte := w.extractLsb' (8 * k) 8

/-- The four byte lanes of a word, lowest address first (R77). -/
def bytesOfWord (w : Word) : List Byte :=
  [byteLane w 0, byteLane w 1, byteLane w 2, byteLane w 3]

/-- A component from its two words: the lower address carries bits [31:0] (R73). -/
def componentOf (lo hi : Word) : B64 := hi ++ lo

/-- The four quarters of an entry: re low, re high, im low, im high (R73). -/
def quartersOf (e : Sample) : List Word :=
  [e.re.extractLsb' 0 32, e.re.extractLsb' 32 32, e.im.extractLsb' 0 32, e.im.extractLsb' 32 32]

/-- The sixteen bytes of an entry, lowest address first (R73, R77). -/
def bytesOfSample (e : Sample) : List Byte := (quartersOf e).flatMap bytesOfWord

end Sys2Proof
end

