-- ==== Sys2Proof/Config.lean ====
section
/-! DEFINITION. What a build fixes (00_scope.md R6) and the free values the spec leaves open
(93_implementation_defined.md U1, U2). -/

namespace Sys2Proof

/-- ROM_CONTENTS (00_scope.md R6, 40_twiddle_rom.md R133): the default image of R132, or the
entries of another build, in index order. -/
inductive RomContents where
  | defaultImage
  | image (entries : List Sample)
deriving DecidableEq, Repr

/-- The implementation parameters of 00_scope.md R6. -/
structure Build where
  dmax : Nat
  log2Lanes : Nat
  workers : Nat
  hasFma : Bool
  log2FmaThreshold : Nat
  base : Nat
  rom : RomContents
deriving DecidableEq, Repr

/-- The reference configuration REF of R6. DESIGN CHOICE (log 3): BASE, which R6 leaves OPEN.
Unsafe if a claim rests on the number; none does. -/
def Build.ref : Build where
  dmax := 12
  log2Lanes := 2
  workers := 4
  hasFma := true
  log2FmaThreshold := 3
  base := 0x40000000
  rom := .defaultImage

/-- The test configuration TST of R6, with the same BASE (log 3). -/
def Build.tst : Build where
  dmax := 4
  log2Lanes := 0
  workers := 2
  hasFma := true
  log2FmaThreshold := 0
  base := 0x40000000
  rom := .defaultImage

/-- FREE VALUE (log 5; U1, U4, U5, U11): the 32 bits a read of an unwritten bank quarter returns.
The first argument is the step's number (`State.draws`), the second tells the reads of one step
apart. -/
opaque Config.unwrittenWord : Nat → Nat → Word

/-- FREE VALUE (log 6; U2, decision D4): the sign and payload of a NaN result (NAN_BITS). The
arguments are the step's number (`State.draws`), the output index in the phase and the operation's
site in that output. -/
opaque Config.nanDraw : Nat → Nat → Nat → BitVec 52

end Sys2Proof
end

