-- ==== Sys2Proof/Syntax.lean ====
section
/-! DEFINITION. The commands of 30_encoding.md R104 and the inputs of the total order of
20_memory.md R81. -/

namespace Sys2Proof

/-- The commands: one constructor per row of opcode_table.json (30_encoding.md R104).
CONFIG carries its three enables VEC, FMA and PAR (R101). -/
inductive Instr where
  | nop
  | config (vec fma par : Bool)
  | dft
  | idft
deriving DecidableEq, Repr

/-- One step of the total order of 20_memory.md R81, as the outside world fixes it (log 1). -/
inductive Input where
  /-- `MemRead(addr, n)` (00_scope.md R10): a host read of n bytes. -/
  | read (addr n : Nat)
  /-- `MemWrite(addr, n, v)` (R10): a host write of the n-byte value v. -/
  | write (addr n v : Nat)
  /-- The Engine's turn: one Engine step if it is enabled (42_sequencer.md R181). -/
  | engine
  /-- The reset input is asserted, at power-on or later (70_reset_and_hazards.md R270). -/
  | reset (powerOn : Bool)
deriving DecidableEq, Repr

end Sys2Proof
end

