-- ==== Sys2Proof/WellFormed.lean ====
section
/-! DEFINITION. Well-formedness: commands (30_encoding.md R101), builds (00_scope.md R6,
40_twiddle_rom.md R133) and inputs (00_scope.md R10). -/

namespace Sys2Proof

/-- Every term of `Instr` is a command of the table: the enables are single bits, and no command
has another field (30_encoding.md R101). -/
def Instr.wellFormed : Instr → Bool
  | .nop => true
  | .config _ _ _ => true
  | .dft => true
  | .idft => true

/-- A legal ROM component (40_twiddle_rom.md R133): "a finite binary64 value in [-1, 1]". With
the sign cleared, its encoding is at most that of 1.0. -/
def legalComponent (x : B64) : Bool :=
  decide (x.toNat % 2 ^ 63 ≤ 0x3FF0000000000000)

/-- A legal ROM image of Nmax/2 entries (40_twiddle_rom.md R131, R133). -/
def RomContents.wellFormed (dmax : Nat) : RomContents → Bool
  | .defaultImage => true
  | .image es =>
    decide (es.length = 2 ^ (dmax - 1)) && es.all fun e => legalComponent e.re && legalComponent e.im

/-- The legal values of every parameter of 00_scope.md R6. -/
def Build.wellFormed (b : Build) : Bool :=
  decide (1 ≤ b.dmax ∧ b.dmax ≤ 16)
    && decide (b.log2Lanes ≤ 7)
    && decide (1 ≤ b.workers ∧ b.workers ≤ 255)
    && decide (b.log2Lanes ≤ b.log2FmaThreshold ∧ b.log2FmaThreshold ≤ 16)
    && decide (b.base % 0x400000 = 0)
    && b.rom.wellFormed b.dmax

/-- A bus transaction moves at least one byte, and a written value fits its n bytes (R10). -/
def Input.wellFormed : Input → Bool
  | .read _ n => decide (1 ≤ n)
  | .write _ n v => decide (1 ≤ n ∧ v < 2 ^ (8 * n))
  | .engine => true
  | .reset _ => true

end Sys2Proof
end

