-- ==== Sys2Proof/Decode.lean ====
section
/-! DEFINITION. The decoder of a command word, total and rejecting by name, then the encoder
(30_encoding.md R100 to R107; 43_commands.md R210). -/

namespace Sys2Proof

/-- Why bytes are no command (30_encoding.md R105). -/
inductive DecodeError where
  /-- Fewer than four bytes: no command word (R100). -/
  | truncated
  /-- OP in 0x4..0xF (R105, first kind). -/
  | reservedOp
  /-- OP in 0x0..0x3 with a reserved bit set (R105, second kind). -/
  | reservedBits
deriving DecidableEq, Repr

/-- One row of the opcode map of 30_encoding.md R104. -/
structure OpcodeRow where
  mnemonic : String
  matchBits : Word
  mask : Word
deriving DecidableEq, Repr

def rowNop : OpcodeRow := ⟨"NOP", 0x00000000, 0xFFFFFFFF⟩
def rowConfig : OpcodeRow := ⟨"CONFIG", 0x00000001, 0xFFFFFF8F⟩
def rowDft : OpcodeRow := ⟨"DFT", 0x00000002, 0xFFFFFFFF⟩
def rowIdft : OpcodeRow := ⟨"IDFT", 0x00000003, 0xFFFFFFFF⟩

/-- The opcode map of R104. -/
def opcodeMap : List OpcodeRow := [rowNop, rowConfig, rowDft, rowIdft]

/-- "A word matches a row when `W & mask = match`" (R104). -/
def OpcodeRow.hits (r : OpcodeRow) (w : Word) : Bool := (w &&& r.mask) == r.matchBits

/-- OP = W[3:0] (R101). -/
def opField (w : Word) : BitVec 4 := w.extractLsb' 0 4

/-- The command of a word (R101, R104), or the kind of illegal encoding it is (R105). -/
def decodeWord (w : Word) : Except DecodeError Instr :=
  if rowNop.hits w then .ok .nop
  else if rowConfig.hits w then .ok (.config (w.getLsbD 4) (w.getLsbD 5) (w.getLsbD 6))
  else if rowDft.hits w then .ok .dft
  else if rowIdft.hits w then .ok .idft
  else if 4 ≤ (opField w).toNat then .error .reservedOp
  else .error .reservedBits

/-- The command in the first four bytes, as the bus lays a word out (20_memory.md R77), and the
bytes after it. -/
def decodeBytes : List Byte → Except DecodeError (Instr × List Byte)
  | b0 :: b1 :: b2 :: b3 :: rest =>
    match decodeWord (wordOfBytes b0 b1 b2 b3) with
    | .ok i => .ok (i, rest)
    | .error e => .error e
  | _ => .error .truncated

/-- The 32-bit word of a table row's bits: the low `nbits` of `w`, zero above. -/
def tableWord (nbits w : Nat) : Word := BitVec.ofNat 32 (w % 2 ^ nbits)

/-- The instruction the decoder reads from a table row's bits. -/
def decodeTableWord (nbits w : Nat) : Option Instr :=
  match decodeBytes (bytesOfWord (tableWord nbits w)) with
  | .ok (i, _) => some i
  | .error _ => none

/-- An enable bit at its place in CONFIG (R101). -/
def enableBit (on : Bool) (at_ : Nat) : Word := if on then (1 : Word) <<< at_ else 0

/-- The word of a command (R101, R107). -/
def encode : Instr → Word
  | .nop => 0x00000000
  | .config vec fma par => 0x00000001 ||| enableBit vec 4 ||| enableBit fma 5 ||| enableBit par 6
  | .dft => 0x00000002
  | .idft => 0x00000003

/-- The table row of a command (R104). -/
def Instr.row : Instr → OpcodeRow
  | .nop => rowNop
  | .config _ _ _ => rowConfig
  | .dft => rowDft
  | .idft => rowIdft

end Sys2Proof
end

