-- ==== Sys2Proof/Machine/Float.lean ====
section
/-! DEFINITION. binary64 arithmetic, round to nearest, ties to even (00_scope.md R11;
41_butterfly.md R162 to R164). Every finite value is an integer number of units of 2^-1074, and
every exact sum and product an integer number of quanta of 2^-2148, so each operation is exact
integer arithmetic followed by one rounding. A NaN result takes its sign and payload from the draw
it is given (decision D4). -/

namespace Sys2Proof

/-- Bit 63 (20_memory.md R78). -/
def fsign (x : B64) : Bool := x.getLsbD 63

/-- Bits [62:52], the biased exponent (R78). -/
def fexp (x : B64) : Nat := (x.extractLsb' 52 11).toNat

/-- Bits [51:0], the fraction (R78). -/
def ffrac (x : B64) : Nat := (x.extractLsb' 0 52).toNat

def isNaN (x : B64) : Bool := fexp x == 2047 && ffrac x != 0

def isInf (x : B64) : Bool := fexp x == 2047 && ffrac x == 0

def isFinite (x : B64) : Bool := fexp x != 2047

def isZero (x : B64) : Bool := fexp x == 0 && ffrac x == 0

/-- The magnitude of a finite value in units of 2^-1074 (subnormals exactly, R164). -/
def magUnits (x : B64) : Nat :=
  if fexp x = 0 then ffrac x else (2 ^ 52 + ffrac x) * 2 ^ (fexp x - 1)

/-- A finite value in units of 2^-1074. -/
def units (x : B64) : Int := if fsign x then -(magUnits x : Int) else (magUnits x : Int)

/-- The quanta of 2^-2148 in one unit of 2^-1074. -/
def unitQuanta : Int := ((2 ^ 1074 : Nat) : Int)

/-- A value with a given sign bit and lower 63 bits. -/
def withSign (neg : Bool) (mag : Nat) : B64 :=
  BitVec.ofNat 64 ((if neg then 2 ^ 63 else 0) + mag)

/-- The infinity of a sign. -/
def infinity (neg : Bool) : B64 := withSign neg 0x7FF0000000000000

/-- The zero of a sign. -/
def signedZero (neg : Bool) : B64 := withSign neg 0

/-- A quiet NaN (exponent all ones, fraction MSB 1) with the drawn sign and payload (D4, U2). -/
def quietNaN (draw : BitVec 52) : B64 :=
  draw.extractLsb' 51 1 ++ (0xFFF : BitVec 12) ++ draw.extractLsb' 0 51

/-- The exponent of the rounding grain, in quanta: the spacing of binary64 values around a
magnitude of m quanta, never below the subnormal spacing 2^-1074. -/
def grainExp (m : Nat) : Nat := max 1074 (Nat.log2 m - 52)

/-- m / 2^g rounded to the nearest integer, ties to even. -/
def roundDiv (m g : Nat) : Nat :=
  let q := m / 2 ^ g
  let r := m % 2 ^ g
  if 2 ^ g < 2 * r ∨ (2 * r = 2 ^ g ∧ q % 2 = 1) then q + 1 else q

/-- The lower 63 bits of the binary64 nearest to m quanta, ties to even, "overflowing to a signed
infinity" (R11). A carry out of the significand moves into the exponent field. -/
def roundMag (m : Nat) : Nat :=
  min ((grainExp m - 1074) * 2 ^ 52 + roundDiv m (grainExp m)) 0x7FF0000000000000

/-- `RN` (R11) of x quanta of 2^-2148. An exact zero takes the sign the operation gives it (R163);
any other result keeps the sign of x. -/
def rn (zeroNeg : Bool) (x : Int) : B64 :=
  if x = 0 then signedZero zeroNeg else withSign (decide (x < 0)) (roundMag x.natAbs)

/-- "flips the sign bit of a and changes no other bit" (R11). -/
def fneg (x : B64) : B64 := x ^^^ 0x8000000000000000

/-- `fadd(a, b)` (R11, R162, R163). -/
def fadd (nan : BitVec 52) (a b : B64) : B64 :=
  if isNaN a || isNaN b then quietNaN nan
  else if isInf a then if isInf b && (fsign a != fsign b) then quietNaN nan else a
  else if isInf b then b
  else rn (fsign a && fsign b) ((units a + units b) * unitQuanta)

/-- `fsub(a, b)` (R11): IEEE 754 subtraction is addition of the negated operand. -/
def fsub (nan : BitVec 52) (a b : B64) : B64 := fadd nan a (fneg b)

/-- `fmul(a, b)` (R11, R162, R163). -/
def fmul (nan : BitVec 52) (a b : B64) : B64 :=
  if isNaN a || isNaN b then quietNaN nan
  else if isInf a || isInf b then
    if isZero a || isZero b then quietNaN nan else infinity (fsign a ^^ fsign b)
  else rn (fsign a ^^ fsign b) (units a * units b)

/-- `ffma(a, b, c)` = a × b + c "with a single rounding" (R11, R162, R163). -/
def ffma (nan : BitVec 52) (a b c : B64) : B64 :=
  if isNaN a || isNaN b || isNaN c then quietNaN nan
  else if isInf a || isInf b then
    if isZero a || isZero b then quietNaN nan
    else if isInf c && (fsign c != (fsign a ^^ fsign b)) then quietNaN nan
    else infinity (fsign a ^^ fsign b)
  else if isInf c then c
  else rn ((fsign a ^^ fsign b) && fsign c) (units a * units b + units c * unitQuanta)

/-- 2^-d, d <= 16 (42_sequencer.md R190). -/
def twoToMinus (d : Nat) : B64 := withSign false ((1023 - d) * 2 ^ 52)

end Sys2Proof
end

