-- ==== Sys2Proof/Machine/Rom.lean ====
section
/-! DEFINITION. The twiddle ROM and the coefficient read (40_twiddle_rom.md R131 to R137). The
default image is computed from its definition: cosine and sine in 200-bit fixed point, then one
rounding (log 12). -/

namespace Sys2Proof

/-- Fraction bits of the fixed-point evaluation. -/
def fixBits : Nat := 200

/-- π · 2^200 to within one unit, as `fixPi_error` proves (log 12). -/
def fixPi : Nat := 0x3243f6a8885a308d313198a2e03707344a4093822299f31d008

/-- The alternating series t - t·x²/((k+1)(k+2)) + ... from a term t of degree k, `fuel` terms. -/
def fixSeries (x2 : Nat) : Nat → Nat → Nat → Int
  | 0, _, _ => 0
  | fuel + 1, k, t => (t : Int) - fixSeries x2 fuel (k + 2) (t * x2 / 2 ^ fixBits / ((k + 1) * (k + 2)))

/-- cos x and sin x for a fixed-point x in [0, π/2], 30 terms each. -/
def fixCos (x : Nat) : Int := fixSeries (x * x / 2 ^ fixBits) 30 0 (2 ^ fixBits)
def fixSin (x : Nat) : Int := fixSeries (x * x / 2 ^ fixBits) 30 1 x

/-- The angle 2π·k/2^dmax in fixed point. -/
def fixAngle (dmax k : Nat) : Nat := 2 * fixPi * k / 2 ^ dmax

/-- One correct rounding of a fixed-point value; an exact zero is +0 (R132). -/
def fixRound (v : Int) : B64 := rn false (v * ((2 ^ (2148 - fixBits) : Nat) : Int))

/-- `(RN(cos(2πk/2^dmax)), RN(-sin(2πk/2^dmax)))` for k below half a turn (R132). The second
quarter turn mirrors the first, and the quarter turn itself is exactly (+0, -1). -/
def defaultRom (dmax k : Nat) : Sample :=
  if 4 * k < 2 ^ dmax then
    ⟨fixRound (fixCos (fixAngle dmax k)), fixRound (-fixSin (fixAngle dmax k))⟩
  else if 4 * k = 2 ^ dmax then ⟨0x0000000000000000, 0xBFF0000000000000⟩
  else
    ⟨fixRound (-fixCos (fixAngle dmax (2 ^ dmax / 2 - k))),
      fixRound (-fixSin (fixAngle dmax (2 ^ dmax / 2 - k)))⟩

/-- `ROM[k]` (R131). A k outside another build's image is never read (R135); the model reads a
zero pair there (log 13). -/
def Build.romEntry (b : Build) (k : Nat) : Sample :=
  match b.rom with
  | .defaultImage => defaultRom b.dmax k
  | .image es => es.getD k ⟨0, 0⟩

/-- conj(w) = (w.re, fneg(w.im)) (00_scope.md R12; 40_twiddle_rom.md R136). -/
def conj (w : Sample) : Sample := ⟨w.re, fneg w.im⟩

/-- The ROM index of coefficient c at depth d: stride Nmax/N (R134). -/
def Build.romIndex (b : Build) (d c : Nat) : Nat := c <<< (b.dmax - d)

/-- `coef(c, dir)` at depth d (R134): the forward entry, conjugated for IDFT. -/
def Build.coef (b : Build) (d c : Nat) (dir : Bool) : Sample :=
  if dir then conj (b.romEntry (b.romIndex d c)) else b.romEntry (b.romIndex d c)

end Sys2Proof
end

