-- ==== Sys2Proof/Machine/State.lean ====
section
/-! DEFINITION. The state of the datapath: the record of 10_state.md R52, plus the model's own
input lists, response port and draw counter. -/

namespace Sys2Proof.Machine

/-- STATUS.ERRCODE (60_exceptions.md R242): the six codes ever written; 0x6..0xF are never
produced (93_implementation_defined.md U15; log 16). -/
inductive ErrCode where
  | none
  | invalidSize
  | sizeMismatch
  | notConfigured
  | busy
  | illegalCmd
deriving DecidableEq, Repr

/-- The fields of STATUS (10_state.md R36). -/
structure Status where
  busy : Bool
  done : Bool
  err : Bool
  accerr : Bool
  cfgValid : Bool
  /-- false for DFT, true for IDFT. -/
  dir : Bool
  errcode : ErrCode
deriving DecidableEq, Repr

/-- The fields of CFG (10_state.md R40). -/
structure Cfg where
  vecEn : Bool
  fmaEn : Bool
  parEn : Bool
deriving DecidableEq, Repr

/-- The fields of IRQ_EN (10_state.md R42). -/
structure IrqEn where
  doneIe : Bool
  errIe : Bool
  accerrIe : Bool
deriving DecidableEq, Repr

/-- The sequencer phases (10_state.md R45). -/
inductive Phase where
  | idle
  | copy
  | bfly
  | scale
deriving DecidableEq, Repr

/-- The sequencer state `seq = (phase, p)` (10_state.md R45). -/
structure Seq where
  phase : Phase
  p : Nat
deriving DecidableEq, Repr

/-- The response of the port to one bus transaction (60_exceptions.md R245, R246; log 9). -/
inductive BusResp where
  /-- OKAY, with the data of a read. -/
  | okay (data : Option Word)
  /-- ERROR, with the data of a read. -/
  | error (data : Option Word)
  /-- The address is outside [BASE, BASE + 0x400000): not the datapath's access (U17; log 10). -/
  | unclaimed
deriving DecidableEq, Repr

/-- The banks' bytes: (offset from BASE, byte), offsets strictly rising (`Memory.wf`). An offset
that is not listed holds no written byte: the unwritten marker of 10_state.md R48 (log 8). -/
abbrev Memory := List Host.Cell

/-- The state (10_state.md R52). STAGE, CMD and CAP reads and irq are functions of it. -/
structure State where
  /-- cap, rom and BASE: the build parameters, constant (R33, R49, R52). -/
  build : Build
  /-- ARG (R35). -/
  arg : Word
  /-- STATUS (R36). -/
  status : Status
  /-- WINDOW_SIZE (R38). -/
  n : Nat
  /-- DEPTH (R39). -/
  d : Nat
  /-- CFG (R40). -/
  cfg : Cfg
  /-- IRQ_EN (R42). -/
  irqEn : IrqEn
  /-- The sequencer state (R45). -/
  seq : Seq
  /-- B0 and B1 (R47, R48). -/
  mem : Memory
  /-- MODEL'S OWN (log 1): the inputs still to come in the total order, next first. -/
  inputs : List Input
  /-- MODEL'S OWN (log 1): what the Host repeats for ever, such as a poll of STATUS
  (70_reset_and_hazards.md R292). Each time `inputs` is used up the Engine has its turn and these
  come again. -/
  again : List Input
  /-- MODEL'S OWN (log 9): the port's response to the last bus transaction. -/
  resp : Option BusResp
  /-- MODEL'S OWN (log 7): steps taken, the argument of the free values. -/
  draws : Nat
deriving DecidableEq, Repr

/-- No constructor: "FBD has no fault and no stuck case. Every input to every rule has a defined
outcome or a draw." (93_implementation_defined.md) -/
inductive Fault where
deriving DecidableEq, Repr

/-- The host's refusal of an instruction without a meaning. -/
inductive Refusal where
  /-- Raised by `exec` for a command that has no meaning yet (safe). No arm of this model raises
  it. -/
  | notModelled (mnemonic : String)
deriving DecidableEq, Repr

/-- STATUS after reset (10_state.md R53). -/
def Status.reset : Status := ⟨false, false, false, false, false, false, .none⟩

/-- CFG after reset (R53). -/
def Cfg.reset : Cfg := ⟨false, false, false⟩

/-- IRQ_EN after reset (R53). -/
def IrqEn.reset : IrqEn := ⟨false, false, false⟩

/-- (IDLE, 0) (R45, R53). -/
def Seq.idle : Seq := ⟨.idle, 0⟩

/-- The state of a build right after power-on (10_state.md R53): every register at its reset
value, every bank quarter unwritten, and nothing yet asked of it. -/
def State.powerOn (b : Build) : State where
  build := b
  arg := 0
  status := .reset
  n := 0
  d := 0
  cfg := .reset
  irqEn := .reset
  seq := .idle
  mem := []
  inputs := []
  again := []
  resp := none
  draws := 0

/-- The reference configuration right after power-on (R53; log 4). -/
def State.reset : State := State.powerOn Build.ref

end Sys2Proof.Machine
end

