-- ==== Sys2Proof/Machine/Ops.lean ====
section
/-! DEFINITION. The named operations over memory and registers: blocks of bank bytes, words and
entries with their draws, the recording of errors (the two error events of 60_exceptions.md R240)
and its acknowledgement. -/

namespace Sys2Proof.Machine

/-! ## Bank memory -/

/-- The canonical form: offsets strictly rising. An unlisted offset holds no byte, so no listed
byte equals what it reads as (log 8). -/
abbrev Memory.wf (m : Memory) : Prop := m.Pairwise fun a b => a.1 < b.1

/-- The written byte at an offset, if there is one (10_state.md R48). -/
def Memory.get : Memory → Nat → Option Byte
  | [], _ => none
  | (k, v) :: m, a => if k = a then some v else if a < k then none else Memory.get m a

/-- The cells below an offset. -/
def Memory.below (m : Memory) (a : Nat) : Memory := m.takeWhile fun c => decide (c.1 < a)

/-- The cells from an offset on. -/
def Memory.from (m : Memory) (a : Nat) : Memory := m.dropWhile fun c => decide (c.1 < a)

/-- Bytes and unwritten markers as cells, from an offset on. -/
def Memory.cells : Nat → List (Option Byte) → Memory
  | _, [] => []
  | a, some v :: bs => (a, v) :: Memory.cells (a + 1) bs
  | a, none :: bs => Memory.cells (a + 1) bs

/-- The n bytes from an offset on, each written or unwritten. -/
def Memory.readBlock (m : Memory) (a : Nat) : Nat → List (Option Byte)
  | 0 => []
  | n + 1 => Memory.get m a :: Memory.readBlock (Memory.from m (a + 1)) (a + 1) n

/-- Write bytes, or unwritten markers, from an offset on. -/
def Memory.writeBlock (m : Memory) (a : Nat) (bs : List (Option Byte)) : Memory :=
  Memory.below m a ++ (Memory.cells a bs ++ Memory.from m (a + bs.length))

/-- The offset of entry i of bank b (20_memory.md R73). -/
def bankOffset (b i : Nat) : Nat := 0x100000 * (1 + b) + 16 * i

/-- Four bytes as a word; an unwritten byte is taken from the draw (10_state.md R48). -/
def wordOrDraw (draw : Word) (bs : List (Option Byte)) : Word :=
  wordOfBytes ((bs.getD 0 none).getD (byteLane draw 0)) ((bs.getD 1 none).getD (byteLane draw 1))
    ((bs.getD 2 none).getD (byteLane draw 2)) ((bs.getD 3 none).getD (byteLane draw 3))

/-- A sample from its sixteen bytes, drawing each unwritten quarter (R48, U1). -/
def sampleOrDraw (draw : Nat → Word) (bs : List (Option Byte)) : Sample where
  re := componentOf (wordOrDraw (draw 0) bs) (wordOrDraw (draw 1) (bs.drop 4))
  im := componentOf (wordOrDraw (draw 2) (bs.drop 8)) (wordOrDraw (draw 3) (bs.drop 12))

/-- The bank word at an offset (20_memory.md R73). `slot` tells the reads of one step apart. -/
def State.readWord (s : State) (off slot : Nat) : Word :=
  wordOrDraw (Config.unwrittenWord s.draws slot) (Memory.readBlock s.mem off 4)

/-- Write the bank word at an offset: "A write changes only those 32 bits" (R73). -/
def State.writeWord (s : State) (off : Nat) (v : Word) : State :=
  { s with mem := Memory.writeBlock s.mem off ((bytesOfWord v).map some) }

/-- Entry i of bank b, as the Engine reads it (20_memory.md R84). -/
def State.readEntry (s : State) (b i slot : Nat) : Sample :=
  sampleOrDraw (fun q => Config.unwrittenWord s.draws (4 * slot + q))
    (Memory.readBlock s.mem (bankOffset b i) 16)

/-- Write entry i of bank b (R84). -/
def State.writeEntry (s : State) (b i : Nat) (y : Sample) : State :=
  { s with mem := Memory.writeBlock s.mem (bankOffset b i) ((bytesOfSample y).map some) }

/-- Entries 0..n-1 of both banks become unwritten (70_reset_and_hazards.md R271). -/
def Memory.unwriteEntries (m : Memory) (n : Nat) : Memory :=
  Memory.writeBlock
    (Memory.writeBlock m (bankOffset 0 0) (List.replicate (16 * n) none))
    (bankOffset 1 0) (List.replicate (16 * n) none)

/-! ## Error events and their acknowledgement -/

/-- `CmdError(code)`: recording a command rejection (60_exceptions.md R241). The first code since
ERR was cleared is kept. -/
def cmdError (code : ErrCode) (s : State) : State :=
  { s with status := { s.status with
      err := true
      errcode := if s.status.err then s.status.errcode else code } }

/-- `BusError(addr)` (60_exceptions.md R245): an ERROR response, with the data of a read, and
ACCERR; "no other state changes". -/
def busError (data : Option Word) (s : State) : State :=
  { s with status := { s.status with accerr := true }, resp := some (.error data) }

/-- A STATUS write of v (10_state.md R37): the host acknowledges DONE, ERR (with ERRCODE) and
ACCERR (60_exceptions.md R253). -/
def acknowledge (v : Word) (s : State) : State :=
  { s with status := { s.status with
      done := if v.getLsbD 1 then false else s.status.done
      err := if v.getLsbD 2 then false else s.status.err
      errcode := if v.getLsbD 2 then .none else s.status.errcode
      accerr := if v.getLsbD 3 then false else s.status.accerr } }

end Sys2Proof.Machine
end

