-- ==== Sys2Proof/Machine/Operands.lean ====
section
/-! DEFINITION. The operands of the commands (30_encoding.md R102, R103): ARG read as a signed
integer, the size check of CONFIG and the length check of DFT and IDFT. -/

namespace Sys2Proof.Machine

/-- `s32(R[ARG])` (00_scope.md R8; 30_encoding.md R102). -/
def State.argInt (s : State) : Int := s.arg.toInt

/-- `ValidSize(s) = 1 <= s <= 2^DMAX and (s & (s - 1)) == 0` (43_commands.md R213). -/
def validSize (dmax : Nat) (z : Int) : Bool :=
  decide (1 ≤ z) && decide (z ≤ 2 ^ dmax) && decide (z.toNat &&& (z.toNat - 1) = 0)

/-- The length check `s32(R[ARG]) = R[WINDOW_SIZE]` (43_commands.md R219). -/
def State.lengthMatches (s : State) : Bool := decide (s.argInt = (s.n : Int))

/-- The enables CONFIG stores: FMA_EN is the request AND HAS_FMA (10_state.md R40). -/
def cfgOf (b : Build) (vec fma par : Bool) : Cfg := ⟨vec, fma && b.hasFma, par⟩

end Sys2Proof.Machine
end

