-- ==== Sys2Proof/Machine/Butterfly.lean ====
section
/-! DEFINITION. The index generator and the complex multiply-accumulate (41_butterfly.md R150 to
R165). -/

namespace Sys2Proof

/-- bottomExtent E = 2^(d-p) (R150). -/
def bottomExtent (d p : Nat) : Nat := 1 <<< (d - p)

/-- halfTop = 2^(p-1) (R150). -/
def halfTop (p : Nat) : Nat := 1 <<< (p - 1)

/-- What the index generator returns for an output (R151): `odd` is s = -1. -/
structure ButterflyIndex where
  odd : Bool
  c : Nat
  ie : Nat
  io : Nat
deriving DecidableEq, Repr

/-- "the top p bits of j" (R151). -/
def topIndex (d p j : Nat) : Nat := j >>> (d - p)

/-- "the bottom depth-p bits" of j (R151). -/
def bottomIndex (d p j : Nat) : Nat := j &&& ((1 <<< (d - p)) - 1)

/-- reducedTop: top in the even half, top - half in the odd half (R151). -/
def reducedTop (d p j : Nat) : Nat :=
  if topIndex d p j < halfTop p then topIndex d p j else topIndex d p j - halfTop p

/-- coefficientIndex (R151). -/
def coefIndex (d p j : Nat) : Nat := reducedTop d p j <<< (d - p)

/-- `IndexGen(d, p, j)` (R151). -/
def indexGen (d p j : Nat) : ButterflyIndex where
  odd := !decide (topIndex d p j < halfTop p)
  c := coefIndex d p j
  ie := bottomIndex d p j + coefIndex d p j <<< 1
  io := bottomIndex d p j + coefIndex d p j <<< 1 + bottomExtent d p

/-- The unfused CMAC (R160): "Every operation rounds once". `odd` is s = -1; `nan` gives each
operation's NaN draw. -/
def cmacU (nan : Nat → BitVec 52) (e o w : Sample) (odd : Bool) : Sample :=
  let tr := fsub (nan 2) (fmul (nan 0) w.re o.re) (fmul (nan 1) w.im o.im)
  let ti := fadd (nan 5) (fmul (nan 3) w.re o.im) (fmul (nan 4) w.im o.re)
  if odd then ⟨fsub (nan 6) e.re tr, fsub (nan 7) e.im ti⟩
  else ⟨fadd (nan 6) e.re tr, fadd (nan 7) e.im ti⟩

/-- The fused CMAC (R161): the inner FMA takes the w.im term and the even operand, the outer the
w.re term; the odd half negates the coefficient terms. -/
def cmacF (nan : Nat → BitVec 52) (e o w : Sample) (odd : Bool) : Sample :=
  if odd then
    ⟨ffma (nan 1) (fneg w.re) o.re (ffma (nan 0) w.im o.im e.re),
      ffma (nan 3) (fneg w.re) o.im (ffma (nan 2) (fneg w.im) o.re e.im)⟩
  else
    ⟨ffma (nan 1) w.re o.re (ffma (nan 0) (fneg w.im) o.im e.re),
      ffma (nan 3) w.re o.im (ffma (nan 2) w.im o.re e.im)⟩

end Sys2Proof
end

