-- ==== Sys2Proof/Machine/Schedule.lean ====
section
/-! DEFINITION. The order in which a stage computes its outputs: the worker partitions of
42_sequencer.md R188 and the lane groups of 41_butterfly.md R158 and 42_sequencer.md R189. Any
order gives the same result (R187); the workers' is taken worker by worker (log 14). -/

namespace Sys2Proof.Machine

/-- `jFrom(t) = floor(N / T) · t` (R188). -/
def jFrom (n workers t : Nat) : Nat := n / workers * t

/-- `jTo(t)`: the next worker's start, and N for the last, which absorbs the remainder (R188). -/
def jTo (n workers t : Nat) : Nat := if t + 1 < workers then n / workers * (t + 1) else n

/-- The outputs of worker t, ascending (R188). -/
def workerRange (n workers t : Nat) : List Nat :=
  List.range' (jFrom n workers t) (jTo n workers t - jFrom n workers t)

/-- The outputs of every worker: one worker computes all of them when PAR_EN = 0 (R188). -/
def State.partitions (s : State) : List (List Nat) :=
  if s.cfg.parEn then (List.range s.build.workers).map (workerRange s.n s.build.workers)
  else [List.range s.n]

/-- The lane groups of stage p may be used: VEC_EN = 1 and E >= 2^LOG2_LANES (R158, R189). -/
def State.laneStage (s : State) (p : Nat) : Bool :=
  s.cfg.vecEn && decide (2 ^ s.build.log2Lanes ≤ bottomExtent s.d p)

/-- The runs of consecutive outputs of a worker that are computed together: those in one group of
2^LOG2_LANES, so that a group a partition boundary crosses is split; singly otherwise (R158,
R189). -/
def State.laneGroups (s : State) (p : Nat) (outputs : List Nat) : List (List Nat) :=
  if s.laneStage p then
    outputs.splitBy fun i j => i >>> s.build.log2Lanes == j >>> s.build.log2Lanes
  else outputs.map fun j => [j]

/-- The groups of stage p in the order they are computed. -/
def State.schedule (s : State) (p : Nat) : List (List Nat) :=
  s.partitions.flatMap (s.laneGroups p)

end Sys2Proof.Machine
end

