-- ==== Sys2Proof/Machine/Sequencer.lean ====
section
/-! DEFINITION. The Stockham iteration sequencer: the phases, the transitions of `seq` and the
Engine step (42_sequencer.md R180 to R198; 41_butterfly.md R156, R157). -/

namespace Sys2Proof.Machine

/-- `src(p) = (d - p + 1) mod 2` (R183). -/
def srcBank (d p : Nat) : Nat := (d - p + 1) % 2

/-- `dst(p) = (d - p) mod 2` (R183). -/
def dstBank (d p : Nat) : Nat := (d - p) % 2

/-- `fused(p)` (41_butterfly.md R157). -/
def State.fused (s : State) (p : Nat) : Bool :=
  s.cfg.fmaEn && decide (s.build.log2FmaThreshold < s.d - p)

/-- The value BFLY(p, j) computes from the banks as they stand (41_butterfly.md R156). The even
and the odd operand are two reads of the step (draw slots 2j and 2j + 1). -/
def State.bflyValue (s : State) (p j : Nat) : Sample :=
  let x := indexGen s.d p j
  let e := s.readEntry (srcBank s.d p) x.ie (2 * j)
  let o := s.readEntry (srcBank s.d p) x.io (2 * j + 1)
  let w := s.build.coef s.d x.c s.status.dir
  if s.fused p then cmacF (Config.nanDraw s.draws j) e o w x.odd
  else cmacU (Config.nanDraw s.draws j) e o w x.odd

/-- BFLY(p, j): compute output j of stage p (41_butterfly.md R156). -/
def bfly (p : Nat) (s : State) (j : Nat) : State :=
  s.writeEntry (dstBank s.d p) j (s.bflyValue p j)

/-- Outputs of stage p computed in a given order (42_sequencer.md R187). -/
def stageInOrder (p : Nat) (order : List Nat) (s : State) : State := order.foldl (bfly p) s

/-- `Stage(p)` (R184), in the order the enables permit (R188, R189). -/
def stage (p : Nat) (s : State) : State := stageInOrder p (s.schedule p).flatten s

/-- `Copy()` (R182): B0 to B1, entries 0..N-1, "Every bit is copied, and so is the unwritten
marker of each quarter". -/
def copyPhase (s : State) : State :=
  { s with
    mem := Memory.writeBlock s.mem (bankOffset 1 0)
      (Memory.readBlock s.mem (bankOffset 0 0) (16 * s.n)) }

/-- Entry i of B0 times S = 2^-d (R190). -/
def State.scaledEntry (s : State) (i : Nat) : Sample :=
  let e := s.readEntry 0 i i
  ⟨fmul (Config.nanDraw s.draws i 0) e.re (twoToMinus s.d),
    fmul (Config.nanDraw s.draws i 1) e.im (twoToMinus s.d)⟩

/-- One entry of SCALE (R190). -/
def scaleEntry (s : State) (i : Nat) : State := s.writeEntry 0 i (s.scaledEntry i)

/-- `Scale()` (R190). -/
def scalePhase (s : State) : State := (List.range s.n).foldl scaleEntry s

/-- The phase list L(d, dir) (R180). -/
def phaseList (d : Nat) (dir : Bool) : List Seq :=
  (if d % 2 = 1 then [⟨.copy, 0⟩] else [])
    ++ (List.range' 1 d).map (fun p => ⟨.bfly, p⟩)
    ++ (if dir then [⟨.scale, 0⟩] else [])

/-- `first(d, dir)` (R195): the head of L(d, dir), or (IDLE, 0). -/
def firstPhase (d : Nat) (dir : Bool) : Seq := (phaseList d dir).headD .idle

/-- `next(seq)` (R195). IDLE has no transition: the Engine takes no step there (R181). A stage
number beyond d never occurs; it ends like stage d (log 17). -/
def nextSeq (d : Nat) (dir : Bool) (q : Seq) : Seq :=
  match q.phase with
  | .idle => .idle
  | .copy => ⟨.bfly, 1⟩
  | .bfly => if q.p < d then ⟨.bfly, q.p + 1⟩ else if dir then ⟨.scale, 0⟩ else .idle
  | .scale => .idle

/-- The work of the phase `seq` names (R181). -/
def runPhase (s : State) : State :=
  match s.seq.phase with
  | .idle => s
  | .copy => copyPhase s
  | .bfly => stage s.seq.p s
  | .scale => scalePhase s

/-- `Complete()` (R192). -/
def complete (s : State) : State :=
  { s with seq := .idle, status := { s.status with busy := false, done := true } }

/-- `seq <- next(seq)`, and completion when it is IDLE (R181). -/
def advance (s : State) : State :=
  if (nextSeq s.d s.status.dir s.seq).phase = .idle then complete s
  else { s with seq := nextSeq s.d s.status.dir s.seq }

/-- `EngineStep()` (R181): "enabled iff seq.phase != IDLE". -/
def engineStep (s : State) : State :=
  if s.seq.phase = .idle then s else advance (runPhase s)

end Sys2Proof.Machine
end

