-- ==== Sys2Proof/Machine/Command.lean ====
section
/-! DEFINITION. The meanings of the commands, the one format CMD32 (43_commands.md R210 to R223).
Legality is checked before a command is known (R211, check 1); the checks here follow its order:
BUSY, configured, operand. -/

namespace Sys2Proof.Machine

/-- CONFIG's effect on success (R213, R214). -/
def State.configured (s : State) (c : Cfg) : State :=
  { s with
    n := s.argInt.toNat
    d := Nat.log2 s.argInt.toNat
    cfg := c
    status := { s.status with cfgValid := true } }

/-- "leaves no configuration" (R215): CFG keeps its value. -/
def State.unconfigured (s : State) : State :=
  { s with n := 0, d := 0, status := { s.status with cfgValid := false } }

/-- `Accept(dir)` (R218). -/
def accept (dir : Bool) (s : State) : State :=
  if (firstPhase s.d dir).phase = .idle then
    { s with
      seq := firstPhase s.d dir
      status := { s.status with done := true, dir := dir } }
  else
    { s with
      seq := firstPhase s.d dir
      status := { s.status with done := false, dir := dir, busy := true } }

/-- `Transform(dir)` (R216). -/
def transform (dir : Bool) (s : State) : State :=
  if s.status.busy then cmdError .busy s
  else if !s.status.cfgValid then cmdError .notConfigured s
  else if !s.lengthMatches then cmdError .sizeMismatch s
  else accept dir s

/-- NOP: no operation, accepted in every state (R212). -/
def execNop (s : State) : Host.Outcome State Fault Refusal := .next s

/-- CONFIG: configure the transform size and the enables (R213 to R215). -/
def execConfig (vec fma par : Bool) (s : State) : Host.Outcome State Fault Refusal :=
  if s.status.busy then .next (cmdError .busy s)
  else if validSize s.build.dmax s.argInt then .next (s.configured (cfgOf s.build vec fma par))
  else .next (cmdError .invalidSize s.unconfigured)

/-- DFT: forward transform, unnormalised (R216). -/
def execDft (s : State) : Host.Outcome State Fault Refusal := .next (transform false s)

/-- IDFT: inverse transform, normalised by 1/N (R217). -/
def execIdft (s : State) : Host.Outcome State Fault Refusal := .next (transform true s)

end Sys2Proof.Machine
end

