-- ==== Sys2Proof/Machine/Dispatch.lean ====
section
/-! DEFINITION. One arm per command: the meaning of 43_commands.md it has. -/

namespace Sys2Proof.Machine

def exec (i : Instr) (s : State) : Host.Outcome State Fault Refusal :=
  match i with
  | .nop => Sys2Proof.Machine.execNop s
  | .config vec fma par => Sys2Proof.Machine.execConfig vec fma par s
  | .dft => Sys2Proof.Machine.execDft s
  | .idft => Sys2Proof.Machine.execIdft s

end Sys2Proof.Machine
end

