-- ==== Sys2Proof/Machine/Flags.lean ====
section
/-! DEFINITION. The register words the host sees, field by field, and the interrupt level
(10_state.md R33 to R43). -/

namespace Sys2Proof.Machine

/-- A bit at its place in a word. -/
def flagBit (on : Bool) (at_ : Nat) : Word := if on then (1 : Word) <<< at_ else 0

/-- An unsigned field at its place in a word. -/
def fieldAt (v at_ : Nat) : Word := BitVec.ofNat 32 v <<< at_

/-- ERRCODE's four bits (60_exceptions.md R242). -/
def ErrCode.code : ErrCode → Nat
  | .none => 0x0
  | .invalidSize => 0x1
  | .sizeMismatch => 0x2
  | .notConfigured => 0x3
  | .busy => 0x4
  | .illegalCmd => 0x5

/-- CAP (10_state.md R33). -/
def Build.capWord (b : Build) : Word :=
  fieldAt b.log2FmaThreshold 20 ||| flagBit b.hasFma 16 ||| fieldAt b.workers 8
    ||| fieldAt b.log2Lanes 5 ||| fieldAt b.dmax 0

/-- STATUS (R36). -/
def Status.word (t : Status) : Word :=
  flagBit t.busy 0 ||| flagBit t.done 1 ||| flagBit t.err 2 ||| flagBit t.accerr 3
    ||| flagBit t.cfgValid 4 ||| flagBit t.dir 5 ||| fieldAt t.errcode.code 8

/-- CFG (R40). -/
def Cfg.word (c : Cfg) : Word := flagBit c.vecEn 0 ||| flagBit c.fmaEn 1 ||| flagBit c.parEn 2

/-- IRQ_EN (R42). -/
def IrqEn.word (e : IrqEn) : Word :=
  flagBit e.doneIe 0 ||| flagBit e.errIe 1 ||| flagBit e.accerrIe 2

/-- IRQ_EN from a written word; reserved bits are ignored (R42). -/
def IrqEn.ofWord (v : Word) : IrqEn := ⟨v.getLsbD 0, v.getLsbD 1, v.getLsbD 2⟩

/-- The PHASE code (R41). -/
def Phase.code : Phase → Nat
  | .idle => 0
  | .copy => 1
  | .bfly => 2
  | .scale => 3

/-- `STAGE = (seq.p << 8) | code(seq.phase)` (42_sequencer.md R196). -/
def Seq.word (q : Seq) : Word := fieldAt q.p 8 ||| fieldAt q.phase.code 0

/-- The level of the interrupt output (10_state.md R43; 60_exceptions.md R251). -/
def State.irq (s : State) : Bool :=
  (s.status.done && s.irqEn.doneIe) || (s.status.err && s.irqEn.errIe)
    || (s.status.accerr && s.irqEn.accerrIe)

end Sys2Proof.Machine
end

