-- ==== Sys2Proof/Machine/Bus.lean ====
section
/-! DEFINITION. The host port: the address map, the access rules, the effect of every read and
write, and the reset event (20_memory.md R70 to R82; 60_exceptions.md R245; 70_reset_and_hazards.md
R270). -/

namespace Sys2Proof.Machine

/-- The nine registers of 10_state.md R32. -/
inductive Reg where
  | cap
  | cmd
  | arg
  | status
  | windowSize
  | depth
  | cfg
  | stage
  | irqEn
deriving DecidableEq, Repr

/-- The regions of the address map (20_memory.md R71). -/
inductive Region where
  | reg (r : Reg)
  | bank
  | rom
  | hole
deriving DecidableEq, Repr

/-- The offset of a register (10_state.md R32). -/
def Reg.offset : Reg → Nat
  | .cap => 0x000
  | .cmd => 0x004
  | .arg => 0x008
  | .status => 0x00C
  | .windowSize => 0x010
  | .depth => 0x014
  | .cfg => 0x018
  | .stage => 0x01C
  | .irqEn => 0x020

/-- The registers in the order of R32. -/
def allRegs : List Reg := [.cap, .cmd, .arg, .status, .windowSize, .depth, .cfg, .stage, .irqEn]

/-- The register whose word holds an offset (R32). -/
def regAt (off : Nat) : Option Reg := allRegs.find? fun r => r.offset == off / 4 * 4

/-- The region of an offset from BASE (20_memory.md R71). -/
def Build.region (b : Build) (off : Nat) : Region :=
  match regAt off with
  | some r => .reg r
  | none =>
    if 0x100000 ≤ off ∧ off < 0x100000 + 16 * 2 ^ b.dmax then .bank
    else if 0x200000 ≤ off ∧ off < 0x200000 + 16 * 2 ^ b.dmax then .bank
    else if 0x300000 ≤ off ∧ off < 0x300000 + 8 * 2 ^ b.dmax then .rom
    else .hole

/-- The access falls to this block: its first byte is in [BASE, BASE + 0x400000). R70 and
60_exceptions.md R245 give the block that region and the platform what lies outside it.
DESIGN CHOICE (log 10), unsafe: they do not say which side answers an access that straddles an edge
of the region (8 bytes at BASE - 4, 2 bytes at BASE + 0x3FFFFF); the model looks at the first byte
alone. -/
def Build.claims (b : Build) (addr : Nat) : Bool := decide (b.base ≤ addr ∧ addr < b.base + 0x400000)

/-- The region rules: no register offset 0x024..0xFFF, no hole, no ROM write, and no bank or ROM
access while BUSY = 1 (R74, R79, R80). -/
def State.regionAccepts (s : State) (off : Nat) (isWrite : Bool) : Bool :=
  match Build.region s.build off with
  | .reg _ => true
  | .bank => !s.status.busy
  | .rom => !s.status.busy && !isWrite
  | .hole => false

/-- No cause of a bus error holds (60_exceptions.md R245): the size, the alignment, the region. -/
def State.accepts (s : State) (addr n : Nat) (isWrite : Bool) : Bool :=
  n == 4 && addr % 4 == 0 && s.regionAccepts (addr - s.build.base) isWrite

/-- A register's value (10_state.md R32 to R42). -/
def State.regRead (s : State) : Reg → Word
  | .cap => Build.capWord s.build
  | .cmd => 0
  | .arg => s.arg
  | .status => s.status.word
  | .windowSize => BitVec.ofNat 32 s.n
  | .depth => BitVec.ofNat 32 s.d
  | .cfg => s.cfg.word
  | .stage => s.seq.word
  | .irqEn => s.irqEn.word

/-- The word at an offset of the ROM window (20_memory.md R74). -/
def Build.romWord (b : Build) (off : Nat) : Word :=
  (quartersOf (b.romEntry ((off - 0x300000) / 16))).getD ((off - 0x300000) / 4 % 4) 0

/-- The data of an accepted read at an offset (R72 to R74). -/
def State.dataAt (s : State) (off : Nat) : Word :=
  match Build.region s.build off with
  | .reg r => s.regRead r
  | .bank => s.readWord off 0
  | .rom => Build.romWord s.build off
  | .hole => 0

/-- `Execute(W)` (43_commands.md R210): an illegal word is rejected whatever the state (30_encoding
R105). -/
def execute (w : Word) (s : State) : Host.Outcome State Fault Refusal :=
  match decodeWord w with
  | .ok i => exec i s
  | .error _ => .next (cmdError .illegalCmd s)

/-- An accepted write to a register (10_state.md R32 to R42); a write to a RO register is
ignored. -/
def regWrite (r : Reg) (v : Word) (s : State) : Host.Outcome State Fault Refusal :=
  match r with
  | .cmd => execute v s
  | .arg => .next { s with arg := v }
  | .status => .next (acknowledge v s)
  | .irqEn => .next { s with irqEn := IrqEn.ofWord v }
  | .cap => .next s
  | .windowSize => .next s
  | .depth => .next s
  | .cfg => .next s
  | .stage => .next s

/-- The effect of an accepted write (R72, R73). -/
def writeAt (off : Nat) (v : Word) (s : State) : Host.Outcome State Fault Refusal :=
  match Build.region s.build off with
  | .reg r => regWrite r v s
  | .bank => .next (s.writeWord off v)
  | .rom => .next s
  | .hole => .next s

/-- `MemRead(addr, n)`: reads have no side effects (R82). -/
def hostRead (addr n : Nat) (s : State) : State :=
  if !Build.claims s.build addr then { s with resp := some .unclaimed }
  else if s.accepts addr n false then
    { s with resp := some (.okay (some (s.dataAt (addr - s.build.base)))) }
  else busError (some 0) s

/-- `MemWrite(addr, n, v)`: an accepted write always gets OKAY, "also when the command is rejected"
(43_commands.md R210). -/
def hostWrite (addr n v : Nat) (s : State) : Host.Outcome State Fault Refusal :=
  if !Build.claims s.build addr then .next { s with resp := some .unclaimed }
  else if s.accepts addr n true then
    writeAt (addr - s.build.base) (BitVec.ofNat 32 v) { s with resp := some (.okay none) }
  else .next (busError none s)

/-- The banks after a reset (70_reset_and_hazards.md R270, R271). -/
def State.memAfterReset (s : State) (powerOn : Bool) : Memory :=
  if powerOn then [] else if s.status.busy then Memory.unwriteEntries s.mem s.n else s.mem

/-- `Reset()` (R270): every register at its reset value; the build, ROM included, is never
affected. -/
def resetEvent (powerOn : Bool) (s : State) : State :=
  { State.powerOn s.build with
    mem := s.memAfterReset powerOn
    inputs := s.inputs
    again := s.again
    draws := s.draws }

/-- The effect of one input of the total order (20_memory.md R81). -/
def runInput (i : Input) (s : State) : Host.Outcome State Fault Refusal :=
  match i with
  | .read addr n => .next (hostRead addr n s)
  | .write addr n v => hostWrite addr n v s
  | .engine => .next (engineStep s)
  | .reset powerOn => .next (resetEvent powerOn s)

/-- The state with its next input taken off the list and the step counted. -/
def State.advanced (s : State) (rest : List Input) : State :=
  { s with inputs := rest, draws := s.draws + 1 }

/-- One step of the total order: the next input. When none is left it is the Engine's turn, and
then the Host's repeated inputs come again, so that a transform completes "whatever the host does,
including nothing at all or polling STATUS forever" (R292; log 1). -/
def stepInputs (s : State) : Host.Outcome State Fault Refusal :=
  match s.inputs with
  | [] => runInput .engine (s.advanced s.again)
  | i :: rest => runInput i (s.advanced rest)

/-- The host write that issues a command word (43_commands.md R210). -/
def commandWrite (b : Build) (w : Word) : Input := .write (b.base + 0x004) 4 w.toNat

end Sys2Proof.Machine
end

