-- ==== Sys2Proof/Machine/Step.lean ====
section
/-! DEFINITION. One step of the machine, and the placing of a command as its next input. -/

namespace Sys2Proof.Machine

/-- One step of the total order of 20_memory.md R81. -/
def step (s : State) : Host.Outcome State Fault Refusal := stepInputs s

/-- The state whose next input is the host write of this command word to CMD (43_commands.md R210;
log 2): nothing else changes. -/
def State.withFetchWord (s : State) (nbits w : Nat) : State :=
  { s with inputs := commandWrite s.build (tableWord nbits w) :: s.inputs }

end Sys2Proof.Machine
end

