-- ==== Sys2Proof/Machine/HostProgram.lean ====
section
/-! DEFINITION. Host programs: the notation of 30_encoding.md R108 and the pseudo-instructions of
R109, as inputs of the total order. Offsets are from BASE. `poll` is "a host loop, not an FBD
operation": the model has the one read it repeats, the loop that repeats it for ever
(70_reset_and_hazards.md R292), and `wait` as the schedule of 95_test_vectors.md section 9, every
remaining Engine step and then the read (log 18). -/

namespace Sys2Proof.Machine.HostProgram

/-- `wr OFF, V`. -/
def wr (b : Build) (off : Nat) (v : Word) : List Input := [.write (b.base + off) 4 v.toNat]

/-- `rd OFF`. -/
def rd (b : Build) (off : Nat) : List Input := [.read (b.base + off) 4]

/-- `Bb(i, q)`. -/
def bankQuarter (bank i q : Nat) : Nat := bankOffset bank i + 4 * q

/-- `ROM(k, q)`. -/
def romQuarter (k q : Nat) : Nat := 0x300000 + 16 * k + 4 * q

/-- `cmd M`. -/
def cmd (b : Build) (i : Instr) : List Input := wr b (Reg.offset .cmd) (encode i)

/-- `config S [, flags]`. -/
def config (b : Build) (size : Int) (vec fma par : Bool) : List Input :=
  wr b (Reg.offset .arg) (BitVec.ofInt 32 size) ++ cmd b (.config vec fma par)

/-- `dft L`. -/
def dft (b : Build) (len : Int) : List Input :=
  wr b (Reg.offset .arg) (BitVec.ofInt 32 len) ++ cmd b .dft

/-- `idft L`. -/
def idft (b : Build) (len : Int) : List Input :=
  wr b (Reg.offset .arg) (BitVec.ofInt 32 len) ++ cmd b .idft

/-- A Host that does nothing but read this register for ever, once its inputs are used up (R292). -/
def pollForever (off : Nat) (s : State) : State := { s with again := rd s.build off }

/-- `wait`, with the Engine steps taken before the poll's read. -/
def wait (b : Build) (engineSteps : Nat) : List Input :=
  List.replicate engineSteps .engine ++ rd b (Reg.offset .status)

/-- `clear`: clears DONE, ERR and ACCERR. -/
def clear (b : Build) : List Input := wr b (Reg.offset .status) 0x0000000E

/-- `st Bb, i, re, im`. -/
def st (b : Build) (bank i : Nat) (re im : B64) : List Input :=
  wr b (bankQuarter bank i 0) (re.extractLsb' 0 32)
    ++ wr b (bankQuarter bank i 1) (re.extractLsb' 32 32)
    ++ wr b (bankQuarter bank i 2) (im.extractLsb' 0 32)
    ++ wr b (bankQuarter bank i 3) (im.extractLsb' 32 32)

/-- `ld Bb, i`. -/
def ld (b : Build) (bank i : Nat) : List Input :=
  rd b (bankQuarter bank i 0) ++ rd b (bankQuarter bank i 1) ++ rd b (bankQuarter bank i 2)
    ++ rd b (bankQuarter bank i 3)

end Sys2Proof.Machine.HostProgram
end

