-- ==== Sys2Proof/Safety.lean ====
section
/-! DEFINITION. What counts as a sound state and a safe run: the invariants the spec states of every
state, and the runs that never stop. -/

namespace Sys2Proof.Machine

/-- An offset of a populated bank window (20_memory.md R71, R73). -/
def inBanks (b : Build) (off : Nat) : Prop :=
  (0x100000 ≤ off ∧ off < 0x100000 + 16 * 2 ^ b.dmax) ∨
    (0x200000 ≤ off ∧ off < 0x200000 + 16 * 2 ^ b.dmax)

/-- The unwritten marker belongs to whole quarters (10_state.md R48): the four bytes of an aligned
word are all written or all unwritten. -/
def Memory.quartersWhole (m : Memory) : Prop :=
  ∀ off, (Memory.get m (4 * (off / 4))).isSome = (Memory.get m off).isSome

/-- The invariants of the state. -/
structure State.Inv (s : State) : Prop where
  /-- The build is legal (00_scope.md R6). -/
  build : s.build.wellFormed = true
  /-- The memory is in canonical form. -/
  memWf : Memory.wf s.mem
  /-- Only bank cells are stored (20_memory.md R70, R71). -/
  memInBanks : ∀ c ∈ s.mem, inBanks s.build c.1
  /-- Markers belong to whole quarters (R48). -/
  quarters : Memory.quartersWhole s.mem
  /-- `seq.phase = IDLE <-> R[STATUS].BUSY = 0` (42_sequencer.md R195). -/
  busy : s.status.busy = true ↔ s.seq.phase ≠ .idle
  /-- "BUSY = 1 and DONE = 1 never hold together" (10_state.md R36). -/
  notBusyAndDone : ¬ (s.status.busy = true ∧ s.status.done = true)
  /-- `R[WINDOW_SIZE] = 2^R[DEPTH]`, with `0 <= R[DEPTH] <= DMAX` (43_commands.md R214). -/
  configured : s.status.cfgValid = true → s.n = 2 ^ s.d ∧ s.d ≤ s.build.dmax
  /-- "When CFG_VALID = 0 it holds 0" (10_state.md R38, R39). -/
  unconfigured : s.status.cfgValid = false → s.n = 0 ∧ s.d = 0
  /-- A transform runs only on a configuration (43_commands.md R211, R213). -/
  runsConfigured : s.status.busy = true → s.status.cfgValid = true
  /-- "p runs 1..d" in BFLY (10_state.md R45). -/
  stageInRange : s.seq.phase = .bfly → 1 ≤ s.seq.p ∧ s.seq.p ≤ s.d
  /-- "p is nonzero only in BFLY" (R45). -/
  stageOnlyInBfly : s.seq.phase ≠ .bfly → s.seq.p = 0
  /-- COPY runs only when d is odd (42_sequencer.md R180). -/
  copyOdd : s.seq.phase = .copy → s.d % 2 = 1
  /-- SCALE runs only for IDFT (R180). -/
  scaleIdft : s.seq.phase = .scale → s.status.dir = true
  /-- ERRCODE is NONE exactly while ERR = 0 (60_exceptions.md R242). -/
  errcode : s.status.err = true ↔ s.status.errcode ≠ .none
  /-- "reads as the CONFIG bit AND HAS_FMA" (10_state.md R40). -/
  fma : s.cfg.fmaEn = true → s.build.hasFma = true

/-- A run that never stops: "A model that stops on some input is wrong"
(93_implementation_defined.md). -/
def State.Safe (s : State) : Prop := ∀ k, ∃ t, Sys2Proof.core.run k s = .next t

/-- The exact value of a finite binary64 in quanta of 2^-2148. -/
def quanta (x : B64) : Int := units x * unitQuanta

end Sys2Proof.Machine
end

