-- ==== Sys2Proof/Certificates/Slice0/Obligations.lean ====
section
/-! DEFINITION. The statements for the provers. Each formalises a rule of the spec, or (basis
derived) follows from several of them. A bus address is BASE + offset, with BASE aligned to 4 MiB
(20_memory.md R70). -/

open Sys2Proof Sys2Proof.Machine

/-- The input of a step: the head of the list, or the Engine's turn (log 1). -/
def inputOf (s : State) : Input := s.inputs.headD .engine

/-- The input is a 4-byte host write of v at an offset from BASE. -/
def writes (s : State) (off v : Nat) : Prop := inputOf s = .write (s.build.base + off) 4 v

/-! ## Encoding -/

/-- The words of R107 decode to the commands they are written for. -/
def Obligations.ListedCommandWordsDecode : Prop :=
  decodeWord 0x00000000 = .ok .nop ∧
  decodeWord 0x00000001 = .ok (.config false false false) ∧
  decodeWord 0x00000011 = .ok (.config true false false) ∧
  decodeWord 0x00000021 = .ok (.config false true false) ∧
  decodeWord 0x00000041 = .ok (.config false false true) ∧
  decodeWord 0x00000071 = .ok (.config true true true) ∧
  decodeWord 0x00000002 = .ok .dft ∧
  decodeWord 0x00000003 = .ok .idft

/-- The decoder and the encoder agree both ways on all 2^32 words, and on the bytes the bus
carries: an instruction's bytes decode to it and to the bytes after it, and bytes that decode to
it are its own. -/
def Obligations.DecodeAndEncodeAgree : Prop :=
  (∀ w i, decodeWord w = .ok i ↔ encode i = w) ∧
  ∀ bs i rest, decodeBytes bs = .ok (i, rest) ↔ bs = bytesOfWord (encode i) ++ rest

/-- R104: a word matches exactly one row, or none; and a command is read exactly when a row
matches, the row of that command. -/
def Obligations.ExactlyOneRowMatchesOrNone : Prop :=
  (∀ w r r', r ∈ opcodeMap → r' ∈ opcodeMap → r.hits w = true → r'.hits w = true → r = r') ∧
  (∀ w i, decodeWord w = .ok i → i.row ∈ opcodeMap ∧ i.row.hits w = true) ∧
  ∀ w, (∃ r ∈ opcodeMap, r.hits w = true) → ∃ i, decodeWord w = .ok i

/-- R105: the illegal words are those with OP in 0x4..0xF and those with OP in 0x0..0x3 and a
reserved bit set (bits [31:7] for CONFIG, bits [31:4] otherwise). Whatever the state, an illegal
word sets ERR, sets ERRCODE to 5 unless an error is already recorded (R241), and changes nothing
else. -/
def Obligations.IllegalWordsRejectedInEveryState : Prop :=
  (∀ w, (∃ e, decodeWord w = .error e) ↔
    (4 ≤ w.toNat % 16 ∨ (w.toNat % 16 = 1 ∧ w.toNat / 2 ^ 7 ≠ 0) ∨
      (w.toNat % 16 < 4 ∧ w.toNat % 16 ≠ 1 ∧ w.toNat / 2 ^ 4 ≠ 0))) ∧
  (∀ w s, (∃ e, decodeWord w = .error e) →
    execute w s = .next { s with status := { s.status with
      err := true
      errcode := if s.status.err then s.status.errcode else .illegalCmd } }) ∧
  ErrCode.illegalCmd.code = 5

/-! ## A step runs the decoded command -/

/-- R81, R181, R210: what `step` does around the per-command and per-phase meanings. When the next
input is a write of any value to CMD, legal or not, the step is `execute` of its word on the state
with that input taken, the step counted and the write answered OKAY; that is `exec` of the decoded
command, or, for an illegal word, the record of the rejection and nothing else. On the Engine's turn
the step is `engineStep` of the state with that input taken and the step counted; so it is when no
input is left, and then the Host's repeated inputs come again (the model's choice, log 1).
`withFetchWord` places a CMD write as the next input (the model's, log 2). -/
def Obligations.StepRunsDecodedCommand : Prop :=
  (∀ (s u : State) v rest, s.build.base % 0x400000 = 0 →
    s.inputs = .write (s.build.base + 0x004) 4 v :: rest →
    u = { s with inputs := rest, draws := s.draws + 1, resp := some (.okay none) } →
    step s = execute (BitVec.ofNat 32 v) u ∧
    (∀ i, decodeWord (BitVec.ofNat 32 v) = .ok i → step s = exec i u) ∧
    ((∃ e, decodeWord (BitVec.ofNat 32 v) = .error e) →
      step s = .next { u with status := { u.status with
        err := true
        errcode := if u.status.err then u.status.errcode else .illegalCmd } })) ∧
  (∀ (s : State) rest, s.inputs = .engine :: rest →
    step s = .next (engineStep { s with inputs := rest, draws := s.draws + 1 })) ∧
  (∀ s : State, s.inputs = [] →
    step s = .next (engineStep { s with inputs := s.again, draws := s.draws + 1 })) ∧
  ∀ (s : State) w i, s.build.base % 0x400000 = 0 → decodeTableWord 32 w = some i →
    step (s.withFetchWord 32 w) = exec i { s with
      draws := s.draws + 1, resp := some (.okay none) }

/-! ## Commands -/

/-- R212: NOP is the word 0x00000000 exactly; it completes in every state, busy or not, and leaves
every register, flag and byte unchanged; a word with OP = 0 and any other bit set is illegal. -/
def Obligations.NopCompletesAndChangesNothing : Prop :=
  (∀ s, exec .nop s = .next s) ∧
  (∀ w, decodeWord w = .ok .nop ↔ w = 0x00000000) ∧
  ∀ w s, w.toNat % 16 = 0 → w ≠ 0x00000000 → execute w s = .next { s with
    status := { s.status with
      err := true
      errcode := if s.status.err then s.status.errcode else .illegalCmd } }

/-- R213, R214: CONFIG in each of its three cases. Not busy with ARG = 2^k, k <= DMAX: it completes,
WINDOW_SIZE = 2^k, DEPTH = k, CFG the enables with FMA_EN = fma AND HAS_FMA, CFG_VALID = 1, and
nothing else changes. Not busy with any other ARG: the configuration is lost (CFG kept) and
INVALID_SIZE recorded. Busy: BUSY recorded and nothing else. -/
def Obligations.ConfigInEachCase : Prop :=
  (∀ s vec fma par k, s.status.busy = false → k ≤ s.build.dmax → s.arg.toInt = 2 ^ k →
    exec (.config vec fma par) s = .next { s with
      n := 2 ^ k, d := k, cfg := ⟨vec, fma && s.build.hasFma, par⟩
      status := { s.status with cfgValid := true } }) ∧
  (∀ s vec fma par, s.status.busy = false →
    (∀ k, k ≤ s.build.dmax → s.arg.toInt ≠ 2 ^ k) →
    exec (.config vec fma par) s = .next { s with
      n := 0, d := 0
      status := { s.status with
        cfgValid := false, err := true
        errcode := if s.status.err then s.status.errcode else .invalidSize } }) ∧
  ∀ s vec fma par, s.status.busy = true →
    exec (.config vec fma par) s = .next { s with
      status := { s.status with
        err := true
        errcode := if s.status.err then s.status.errcode else .busy } }

/-- R243: INVALID_SIZE fires for size <= 0, for sizes that are no power of two, and for a power of
two above Nmax, with the loss of the configuration; with no error recorded its code is recorded. -/
def Obligations.InvalidSizesAreRejected : Prop :=
  ∀ s vec fma par, s.status.busy = false → s.status.err = false →
    (s.arg.toInt ≤ 0 ∨ (∀ k : Nat, s.arg.toInt ≠ 2 ^ k) ∨
      ∃ k : Nat, s.build.dmax < k ∧ s.arg.toInt = 2 ^ k) →
    ∃ t, exec (.config vec fma par) s = .next t ∧ t.status.err = true ∧
      t.status.errcode = .invalidSize ∧ t.status.cfgValid = false ∧ t.n = 0 ∧ t.d = 0 ∧
      t.cfg = s.cfg ∧ t.mem = s.mem ∧ t.seq = s.seq

/-- R193, R216, R218: an accepted DFT of depth d >= 1 completes its command with DONE = 0, DIR = 0,
BUSY = 1 and the sequencer at COPY when d is odd and at BFLY 1 when d is even; at d = 0 it completes
at acceptance with BUSY still 0 and DONE = 1; nothing else changes. -/
def Obligations.DftAcceptedStartsTransform : Prop :=
  ∀ s, s.status.busy = false → s.status.cfgValid = true → s.arg.toInt = (s.n : Int) →
    (1 ≤ s.d → exec .dft s = .next { s with
      seq := if s.d % 2 = 1 then ⟨.copy, 0⟩ else ⟨.bfly, 1⟩
      status := { s.status with done := false, dir := false, busy := true } }) ∧
    (s.d = 0 → exec .dft s = .next { s with
      seq := ⟨.idle, 0⟩
      status := { s.status with done := true, dir := false } })

/-- R217, R218: an accepted IDFT completes its command with DONE = 0, DIR = 1, BUSY = 1 and the
sequencer at COPY, BFLY 1 or, at N = 1, SCALE; nothing else changes. -/
def Obligations.IdftAcceptedStartsTransform : Prop :=
  ∀ s, s.status.busy = false → s.status.cfgValid = true → s.arg.toInt = (s.n : Int) →
    exec .idft s = .next { s with
      seq := if s.d % 2 = 1 then ⟨.copy, 0⟩ else if s.d = 0 then ⟨.scale, 0⟩ else ⟨.bfly, 1⟩
      status := { s.status with done := false, dir := true, busy := true } }

/-- The state with a rejection of this code recorded (60_exceptions.md R241). -/
def rejectedWith (s : State) (code : ErrCode) : State :=
  { s with status := { s.status with
      err := true
      errcode := if s.status.err then s.status.errcode else code } }

/-- R211, R248: the checks in their order, with the outcome of the first that fails: legality, busy
(CONFIG, DFT, IDFT), configured (DFT, IDFT), operand. A legal NOP is always accepted. -/
def Obligations.FirstFailingCheckDecides : Prop :=
  (∀ w s, (∀ i, decodeWord w ≠ .ok i) → execute w s = .next (rejectedWith s .illegalCmd)) ∧
  (∀ w s, decodeWord w = .ok .nop → execute w s = .next s) ∧
  (∀ w s vec fma par, decodeWord w = .ok (.config vec fma par) → s.status.busy = true →
    execute w s = .next (rejectedWith s .busy)) ∧
  (∀ w s, decodeWord w = .ok .dft ∨ decodeWord w = .ok .idft → s.status.busy = true →
    execute w s = .next (rejectedWith s .busy)) ∧
  (∀ w s, decodeWord w = .ok .dft ∨ decodeWord w = .ok .idft → s.status.busy = false →
    s.status.cfgValid = false → execute w s = .next (rejectedWith s .notConfigured)) ∧
  (∀ w s, decodeWord w = .ok .dft ∨ decodeWord w = .ok .idft → s.status.busy = false →
    s.status.cfgValid = true → s.arg.toInt ≠ (s.n : Int) →
    execute w s = .next (rejectedWith s .sizeMismatch)) ∧
  ∀ w s vec fma par, decodeWord w = .ok (.config vec fma par) → s.status.busy = false →
    (∀ k, k ≤ s.build.dmax → s.arg.toInt ≠ 2 ^ k) →
    execute w s = .next (rejectedWith { s with
      n := 0, d := 0, status := { s.status with cfgValid := false } } .invalidSize)

/-- The frame of the commands: a command never changes the build, ARG, IRQ_EN, ACCERR, the banks,
the inputs, the Host's repetition, the port or the draw counter; only CONFIG changes the
configuration, and CONFIG changes nothing of a transform. -/
def Obligations.CommandFrame : Prop :=
  ∀ i s t, exec i s = .next t →
    t.build = s.build ∧ t.arg = s.arg ∧ t.irqEn = s.irqEn ∧ t.status.accerr = s.status.accerr ∧
    t.mem = s.mem ∧ (∀ a, Memory.get t.mem a = Memory.get s.mem a) ∧
    t.inputs = s.inputs ∧ t.again = s.again ∧ t.resp = s.resp ∧ t.draws = s.draws ∧
    ((∀ vec fma par, i ≠ .config vec fma par) →
      t.n = s.n ∧ t.d = s.d ∧ t.cfg = s.cfg ∧ t.status.cfgValid = s.status.cfgValid) ∧
    (∀ vec fma par, i = .config vec fma par →
      t.seq = s.seq ∧ t.status.busy = s.status.busy ∧ t.status.done = s.status.done ∧
        t.status.dir = s.status.dir)

/-- R241: while ERR = 1 no step clears it or replaces the first code, whatever the input (a command,
any other access, accepted or rejected, an Engine step), but for a reset and for a STATUS write with
a one in bit 2; and a rejection while ERR = 0 records its code. -/
def Obligations.FirstErrorCodeIsKept : Prop :=
  (∀ s t, s.build.base % 0x400000 = 0 → step s = .next t → s.status.err = true →
    (∀ p, inputOf s ≠ .reset p) → (∀ v, writes s 0x00C v → v.testBit 2 = false) →
    t.status.err = true ∧ t.status.errcode = s.status.errcode) ∧
  (∀ w s t, execute w s = .next t → s.status.err = true →
    t.status.err = true ∧ t.status.errcode = s.status.errcode) ∧
  (∀ s, (engineStep s).status.err = s.status.err ∧
    (engineStep s).status.errcode = s.status.errcode) ∧
  ∀ s code, s.status.err = false →
    (cmdError code s).status.err = true ∧ (cmdError code s).status.errcode = code

/-! ## Registers and flags -/

/-- R37: a STATUS write clears DONE, ERR with ERRCODE, and ACCERR where it has ones in bits 1, 2 and
3, and changes no other field, whether BUSY or not. -/
def Obligations.StatusWriteClearsFlags : Prop :=
  ∀ s v rest, s.build.base % 0x400000 = 0 →
    s.inputs = .write (s.build.base + 0x00C) 4 v :: rest →
    step s = .next { s with
      inputs := rest, draws := s.draws + 1, resp := some (.okay none)
      status := { s.status with
        done := s.status.done && !v.testBit 1
        err := s.status.err && !v.testBit 2
        errcode := if v.testBit 2 then .none else s.status.errcode
        accerr := s.status.accerr && !v.testBit 3 } }

/-- R36, R242: a STATUS read returns each flag at its bit, ERRCODE in bits [11:8] (0 NONE,
1 INVALID_SIZE, 2 SIZE_MISMATCH, 3 NOT_CONFIGURED, 4 BUSY, 5 ILLEGAL_CMD), and 0 in the reserved
bits, and leaves everything but the port and the counter as it was. -/
def Obligations.StatusReadShowsFlags : Prop :=
  ErrCode.none.code = 0x0 ∧ ErrCode.invalidSize.code = 0x1 ∧ ErrCode.sizeMismatch.code = 0x2 ∧
  ErrCode.notConfigured.code = 0x3 ∧ ErrCode.busy.code = 0x4 ∧ ErrCode.illegalCmd.code = 0x5 ∧
  ∀ s rest, s.build.base % 0x400000 = 0 → s.inputs = .read (s.build.base + 0x00C) 4 :: rest →
    ∃ w : Word, step s = .next { s with
        inputs := rest, draws := s.draws + 1, resp := some (.okay (some w)) } ∧
      w.getLsbD 0 = s.status.busy ∧ w.getLsbD 1 = s.status.done ∧ w.getLsbD 2 = s.status.err ∧
      w.getLsbD 3 = s.status.accerr ∧ w.getLsbD 4 = s.status.cfgValid ∧
      w.getLsbD 5 = s.status.dir ∧ w.getLsbD 6 = false ∧ w.getLsbD 7 = false ∧
      w.toNat / 2 ^ 8 = s.status.errcode.code

/-- R33: a CAP read on a legal build returns the parameters in their fields, and 0 in the reserved
bits; the value is constant for the build, 0x0031044C under REF and 0x00010204 under TST. -/
def Obligations.CapReportsBuild : Prop :=
  (State.powerOn Build.ref).regRead .cap = 0x0031044C ∧
  (State.powerOn Build.tst).regRead .cap = 0x00010204 ∧
  (∀ s t, step s = .next t → t.regRead .cap = s.regRead .cap) ∧
  ∀ s rest, s.build.wellFormed = true → s.inputs = .read (s.build.base + 0x000) 4 :: rest →
    ∃ w : Word, step s = .next { s with
        inputs := rest, draws := s.draws + 1, resp := some (.okay (some w)) } ∧
      w.toNat = s.build.log2FmaThreshold * 2 ^ 20 + s.build.hasFma.toNat * 2 ^ 16
        + s.build.workers * 2 ^ 8 + s.build.log2Lanes * 2 ^ 5 + s.build.dmax

/-- R38 to R42, R196: the other registers' reads, in states whose numbers fit their fields. CMD
reads 0, and STAGE the phase's code (0 IDLE, 1 COPY, 2 BFLY, 3 SCALE) with the stage number. -/
def Obligations.RegisterReadsReturnRegisters : Prop :=
  ∀ s off rest, s.build.base % 0x400000 = 0 → s.n < 2 ^ 32 → s.d < 2 ^ 5 → s.seq.p < 2 ^ 5 →
    s.inputs = .read (s.build.base + off) 4 :: rest →
    (off = 0x004 ∨ off = 0x008 ∨ off = 0x010 ∨ off = 0x014 ∨ off = 0x018 ∨ off = 0x01C ∨
      off = 0x020) →
    ∃ w : Word, step s = .next { s with
        inputs := rest, draws := s.draws + 1, resp := some (.okay (some w)) } ∧
      (off = 0x004 → w = 0) ∧ (off = 0x008 → w = s.arg) ∧ (off = 0x010 → w.toNat = s.n) ∧
      (off = 0x014 → w.toNat = s.d) ∧
      (off = 0x018 → w.toNat = s.cfg.vecEn.toNat + 2 * s.cfg.fmaEn.toNat + 4 * s.cfg.parEn.toNat) ∧
      (off = 0x01C → w.toNat = s.seq.p * 2 ^ 8 +
        match s.seq.phase with
        | .idle => 0
        | .copy => 1
        | .bfly => 2
        | .scale => 3) ∧
      (off = 0x020 → w.toNat = s.irqEn.doneIe.toNat + 2 * s.irqEn.errIe.toNat
        + 4 * s.irqEn.accerrIe.toNat)

/-- R32, R35, R42: an ARG write stores all 32 bits, an IRQ_EN write its three low bits, busy or not;
a write to a RO register is ignored and completes without error. -/
def Obligations.RegisterWritesStoreOrAreIgnored : Prop :=
  ∀ s off v rest, s.build.base % 0x400000 = 0 →
    s.inputs = .write (s.build.base + off) 4 v :: rest →
    let t : State := { s with
      inputs := rest, draws := s.draws + 1, resp := some (.okay none) }
    (off = 0x008 → step s = .next { t with arg := BitVec.ofNat 32 v }) ∧
    (off = 0x020 → step s = .next { t with
      irqEn := ⟨v.testBit 0, v.testBit 1, v.testBit 2⟩ }) ∧
    (off = 0x000 ∨ off = 0x010 ∨ off = 0x014 ∨ off = 0x018 ∨ off = 0x01C → step s = .next t)

/-- R43: the interrupt output is a level, the OR of the flags masked by their enables; it is 0 after
power-on of every build, after every reset step, and after an acknowledgement of all three flags. -/
def Obligations.InterruptLevelFollowsFlags : Prop :=
  (∀ s : State, s.irq = true ↔ ((s.status.done = true ∧ s.irqEn.doneIe = true) ∨
    (s.status.err = true ∧ s.irqEn.errIe = true) ∨
    (s.status.accerr = true ∧ s.irqEn.accerrIe = true))) ∧
  (∀ b, (State.powerOn b).irq = false) ∧
  (∀ s powerOn rest t, s.inputs = .reset powerOn :: rest → step s = .next t → t.irq = false) ∧
  ∀ s rest t, s.build.base % 0x400000 = 0 →
    s.inputs = .write (s.build.base + 0x00C) 4 0x0000000E :: rest → step s = .next t →
    t.irq = false

/-- R82, R245: a read of any size in the block's 4 MiB changes nothing but the port's response, the
counter, the input list and, when it is rejected, ACCERR. Model's choice (log 10), not R82's: the
same of a read outside [BASE, BASE + 0x400000), which the spec leaves to the platform (U17), and of
one that straddles an edge of that region, which falls to the side of its first byte. -/
def Obligations.ReadsHaveNoSideEffects : Prop :=
  ∀ s addr n rest, s.inputs = .read addr n :: rest →
    ∃ r, step s = .next { s with
      inputs := rest, draws := s.draws + 1, resp := some r
      status := { s.status with accerr := s.status.accerr || decide (r = .error (some 0)) } } ∧
      r ≠ .error none

/-! ## The bus -/

/-- The causes of a bus error, as the table of 60_exceptions.md R245 lists them, for an access at an
offset from BASE. -/
def busErrorCause (s : State) (off n : Nat) (isWrite : Bool) : Prop :=
  n ≠ 4 ∨ (s.build.base + off) % 4 ≠ 0 ∨ (0x024 ≤ off ∧ off ≤ 0xFFF) ∨
  (0x1000 ≤ off ∧ off < 0x100000) ∨
  (0x100000 + 16 * 2 ^ s.build.dmax ≤ off ∧ off < 0x200000) ∨
  (0x200000 + 16 * 2 ^ s.build.dmax ≤ off ∧ off < 0x300000) ∨
  (0x300000 + 8 * 2 ^ s.build.dmax ≤ off ∧ off < 0x400000) ∨
  (0x300000 ≤ off ∧ isWrite = true) ∨ (0x100000 ≤ off ∧ s.status.busy = true)

/-- R245: a host access to the block is rejected exactly when a listed cause holds; then the master
gets ERROR (a read with data 0), ACCERR is 1, and no other state changes. Otherwise it gets
OKAY. Model's choice (log 10), not R245's: an access that starts in the block's 4 MiB and runs past
their end is an access to the block, so it is rejected for its size or its alignment. -/
def Obligations.BusErrorExactlyOnListedCauses : Prop :=
  ∀ s off n rest, s.build.wellFormed = true → off < 0x400000 →
    (s.inputs = .read (s.build.base + off) n :: rest →
      (busErrorCause s off n false → step s = .next { s with
        inputs := rest, draws := s.draws + 1, resp := some (.error (some 0))
        status := { s.status with accerr := true } }) ∧
      (¬ busErrorCause s off n false → ∃ w, step s = .next { s with
        inputs := rest, draws := s.draws + 1, resp := some (.okay (some w)) })) ∧
    ∀ v, s.inputs = .write (s.build.base + off) n v :: rest →
      (busErrorCause s off n true → step s = .next { s with
        inputs := rest, draws := s.draws + 1, resp := some (.error none)
        status := { s.status with accerr := true } }) ∧
      (¬ busErrorCause s off n true → ∃ t, step s = .next t ∧ t.resp = some (.okay none))

/-- R73, R77, R85: while idle, a host write to quarter q of entry i of bank b, whatever comes next,
changes those four bytes, byte lane k at address + k, and no other byte and no other state; the
entry's component then holds the word in that half, and a read of the same address right after
returns the word. A host read of a written quarter, whoever wrote it and whenever, returns the word
those four bytes hold, which is that half of the entry's component, and
changes nothing but the response. -/
def Obligations.BankQuarterWriteThenRead : Prop :=
  ∀ s b i q off rest, s.build.wellFormed = true → s.status.busy = false → b < 2 →
    i < 2 ^ s.build.dmax → q < 4 → off = 0x100000 * (1 + b) + 16 * i + 4 * q →
    (∀ v, v < 2 ^ 32 → s.inputs = .write (s.build.base + off) 4 v :: rest →
      ∃ t m, t = { s with
          mem := m, inputs := rest, draws := s.draws + 1, resp := some (.okay none) } ∧
        step s = .next t ∧
        (∀ a, Memory.get m a = if off ≤ a ∧ a < off + 4
          then some (BitVec.ofNat 8 (v / 2 ^ (8 * (a - off)))) else Memory.get s.mem a) ∧
        (∀ slot, (if q < 2 then (t.readEntry b i slot).re else (t.readEntry b i slot).im).toNat
          / 2 ^ (32 * (q % 2)) % 2 ^ 32 = v) ∧
        ∀ rest', rest = .read (s.build.base + off) 4 :: rest' → step t = .next { t with
          inputs := rest', draws := t.draws + 1
          resp := some (.okay (some (BitVec.ofNat 32 v))) }) ∧
    (s.inputs = .read (s.build.base + off) 4 :: rest →
      (∀ k, k < 4 → (Memory.get s.mem (off + k)).isSome = true) →
      ∃ w : Word, step s = .next { s with
          inputs := rest, draws := s.draws + 1, resp := some (.okay (some w)) } ∧
        (∀ k, k < 4 →
          Memory.get s.mem (off + k) = some (BitVec.ofNat 8 (w.toNat / 2 ^ (8 * k)))) ∧
        ∀ slot, (if q < 2 then (s.readEntry b i slot).re else (s.readEntry b i slot).im).toNat
          / 2 ^ (32 * (q % 2)) % 2 ^ 32 = w.toNat)

/-- R48: an idle host read of a wholly unwritten quarter returns the draw, not an error, and the
quarter stays unwritten. Model's choice (log 5): the draw is the free value of this step; the
statement holds for every value of it. -/
def Obligations.UnwrittenQuarterReadsAsDraw : Prop :=
  ∀ s b i q rest, s.build.wellFormed = true → s.status.busy = false → b < 2 →
    i < 2 ^ s.build.dmax → q < 4 →
    (∀ k, k < 4 → Memory.get s.mem (0x100000 * (1 + b) + 16 * i + 4 * q + k) = none) →
    s.inputs = .read (s.build.base + (0x100000 * (1 + b) + 16 * i + 4 * q)) 4 :: rest →
    step s = .next { s with
      inputs := rest, draws := s.draws + 1
      resp := some (.okay (some (Config.unwrittenWord (s.draws + 1) 0))) }

/-- R74, R132: while idle, a host read of quarter q of ROM[k] returns that quarter of the image, and
a write there is rejected and changes nothing but ACCERR. -/
def Obligations.RomWindowReadsImageAndRejectsWrites : Prop :=
  ∀ s k q rest, s.build.wellFormed = true → s.status.busy = false → k < 2 ^ (s.build.dmax - 1) →
    q < 4 →
    (s.inputs = .read (s.build.base + (0x300000 + 16 * k + 4 * q)) 4 :: rest →
      ∃ w : Word, step s = .next { s with
          inputs := rest, draws := s.draws + 1, resp := some (.okay (some w)) } ∧
        w.toNat = (if q < 2 then (s.build.romEntry k).re else (s.build.romEntry k).im).toNat
          / 2 ^ (32 * (q % 2)) % 2 ^ 32) ∧
    ∀ v, s.inputs = .write (s.build.base + (0x300000 + 16 * k + 4 * q)) 4 v :: rest →
      step s = .next { s with
        inputs := rest, draws := s.draws + 1, resp := some (.error none)
        status := { s.status with accerr := true } }

/-- R139, R33: no command, bus access, Engine step or reset writes the ROM or any other build
parameter. -/
def Obligations.NoStepWritesTheRom : Prop :=
  ∀ s t, step s = .next t → t.build = s.build ∧ ∀ k, t.build.romEntry k = s.build.romEntry k

/-! ## The index generator and the coefficients -/

/-- R153: the ranges of everything the index generator computes. -/
def Obligations.IndexGeneratorRanges : Prop :=
  ∀ d p j, 1 ≤ p → p ≤ d → j < 2 ^ d →
    topIndex d p j < 2 ^ p ∧ bottomIndex d p j < 2 ^ (d - p) ∧ reducedTop d p j < 2 ^ (p - 1) ∧
    (indexGen d p j).c < 2 ^ (d - 1) ∧
    (indexGen d p j).ie = reducedTop d p j * (2 * 2 ^ (d - p)) + bottomIndex d p j ∧
    (indexGen d p j).ie < reducedTop d p j * (2 * 2 ^ (d - p)) + 2 ^ (d - p) ∧
    (indexGen d p j).io = (indexGen d p j).ie + 2 ^ (d - p) ∧
    (indexGen d p j).io < reducedTop d p j * (2 * 2 ^ (d - p)) + 2 * 2 ^ (d - p) ∧
    reducedTop d p j * (2 * 2 ^ (d - p)) + 2 * 2 ^ (d - p) ≤ 2 ^ d ∧
    (indexGen d p j).ie < (indexGen d p j).io ∧ (indexGen d p j).io < 2 ^ d ∧
    1 ≤ (indexGen d p j).io - (indexGen d p j).ie

/-- R154: outputs rt·E + bottom and (rt + half)·E + bottom are the even and the odd half of one
butterfly, with the same coefficient and operands; every output is one of the two for exactly one
(rt, bottom). -/
def Obligations.OutputsPairIntoButterflies : Prop :=
  (∀ d p rt bottom, 1 ≤ p → p ≤ d → rt < 2 ^ (p - 1) → bottom < 2 ^ (d - p) →
    indexGen d p (rt * 2 ^ (d - p) + bottom) =
      ⟨false, rt * 2 ^ (d - p), bottom + 2 * rt * 2 ^ (d - p),
        bottom + 2 * rt * 2 ^ (d - p) + 2 ^ (d - p)⟩ ∧
    indexGen d p ((rt + 2 ^ (p - 1)) * 2 ^ (d - p) + bottom) =
      ⟨true, rt * 2 ^ (d - p), bottom + 2 * rt * 2 ^ (d - p),
        bottom + 2 * rt * 2 ^ (d - p) + 2 ^ (d - p)⟩) ∧
  ∀ d p j, 1 ≤ p → p ≤ d → j < 2 ^ d →
    ∃! x : Nat × Nat, x.1 < 2 ^ (p - 1) ∧ x.2 < 2 ^ (d - p) ∧
      (j = x.1 * 2 ^ (d - p) + x.2 ∨ j = (x.1 + 2 ^ (p - 1)) * 2 ^ (d - p) + x.2)

/-- R135: every coefficient index is reducedTop · 2^(d-p), below N/2, and its ROM index is below
Nmax/2; when d = 0 there is no stage. -/
def Obligations.CoefficientIndexInsideRom : Prop :=
  (∀ dir, ∀ q ∈ phaseList 0 dir, q.phase ≠ .bfly) ∧
  ∀ (b : Build) d p j, 1 ≤ p → p ≤ d → d ≤ b.dmax → j < 2 ^ d →
    (indexGen d p j).c = reducedTop d p j * 2 ^ (d - p) ∧ reducedTop d p j < 2 ^ (p - 1) ∧
    (indexGen d p j).c < 2 ^ (d - 1) ∧
    b.romIndex d (indexGen d p j).c = (indexGen d p j).c * 2 ^ (b.dmax - d) ∧
    b.romIndex d (indexGen d p j).c < 2 ^ (b.dmax - 1)

/-- R134, R136: the inverse coefficient is the forward one with the sign bit of its imaginary part
flipped, and the forward one is the ROM entry at stride Nmax/N; under the default image the inverse
coefficient of index 0 is (1.0, -0). -/
def Obligations.InverseCoefficientIsConjugate : Prop :=
  (∀ (b : Build) d, b.rom = .defaultImage → 1 ≤ b.dmax → b.dmax ≤ 16 →
    b.coef d 0 true = ⟨0x3FF0000000000000, 0x8000000000000000⟩) ∧
  ∀ (b : Build) d c,
    b.coef d c false = b.romEntry (c * 2 ^ (b.dmax - d)) ∧
    (b.coef d c true).re = (b.romEntry (c * 2 ^ (b.dmax - d))).re ∧
    (∀ k, k < 63 → (b.coef d c true).im.getLsbD k
      = (b.romEntry (c * 2 ^ (b.dmax - d))).im.getLsbD k) ∧
    (b.coef d c true).im.getLsbD 63 = !(b.romEntry (c * 2 ^ (b.dmax - d))).im.getLsbD 63

/-- R132: the four closed forms of the default image, for every legal DMAX. -/
def Obligations.DefaultRomClosedForms : Prop :=
  ∀ D, 1 ≤ D → D ≤ 16 →
    defaultRom D 0 = ⟨0x3FF0000000000000, 0x0000000000000000⟩ ∧
    (3 ≤ D → defaultRom D (2 ^ D / 8) = ⟨0x3FE6A09E667F3BCD, 0xBFE6A09E667F3BCD⟩) ∧
    (2 ≤ D → defaultRom D (2 ^ D / 4) = ⟨0x0000000000000000, 0xBFF0000000000000⟩) ∧
    (3 ≤ D → defaultRom D (3 * 2 ^ D / 8) = ⟨0xBFE6A09E667F3BCD, 0xBFE6A09E667F3BCD⟩)

/-- R137: under the default image the coefficient of index c at size 2^d is the same whatever DMAX:
that of a table built for size 2^d. -/
def Obligations.CoefficientsDoNotDependOnDmax : Prop :=
  ∀ (b : Build) d c, b.rom = .defaultImage → 1 ≤ d → d ≤ b.dmax → c < 2 ^ (d - 1) →
    b.coef d c false = defaultRom d c

/-- The real value of a finite component. -/
noncomputable def componentReal (x : B64) : ℝ := (units x : ℝ) / 2 ^ 1074

/-- Half an ulp of a finite component: half the spacing of the values of its exponent. -/
noncomputable def halfUlp (x : B64) : ℝ := 2 ^ max 1 (fexp x) / 2 ^ 1076

/-- R130, R132, R133: every component of the default image is a finite value whose distance from the
exact cosine or sine is at most half an ulp of the component itself, up to 2^-180. The term 2^-180
is the model's (log 12): it bounds the error of the 200-bit evaluation, and R132 rounds exactly. -/
def Obligations.DefaultRomApproximatesRootsOfUnity : Prop :=
  ∀ D k, 1 ≤ D → D ≤ 16 → k < 2 ^ (D - 1) →
    isFinite (defaultRom D k).re = true ∧ isFinite (defaultRom D k).im = true ∧
    |componentReal (defaultRom D k).re - Real.cos (2 * Real.pi * k / 2 ^ D)|
      ≤ halfUlp (defaultRom D k).re + 1 / 2 ^ 180 ∧
    |componentReal (defaultRom D k).im + Real.sin (2 * Real.pi * k / 2 ^ D)|
      ≤ halfUlp (defaultRom D k).im + 1 / 2 ^ 180

/-! ## binary64 arithmetic -/

/-- R11: RN gives a nearest binary64: no finite value lies closer to the exact x (in quanta of
2^-2148) than a finite result does. -/
def Obligations.RoundingGivesNearestValue : Prop :=
  ∀ z x, isFinite (rn z x) = true →
    ∀ y, isFinite y = true → |quanta (rn z x) - x| ≤ |quanta y - x|

/-- R11: ties go to the even significand; a result is never a NaN; and a nonzero x keeps its sign.
Taken from IEEE 754 and not from R11's words (log 11, PRESUMED): the overflow "to a signed infinity"
takes place exactly when |x| is at least 2^1024 - 2^970. -/
def Obligations.RoundingTiesOverflowAndSign : Prop :=
  (∀ z x y, isFinite (rn z x) = true → isFinite y = true → quanta y ≠ quanta (rn z x) →
    |quanta (rn z x) - x| = |quanta y - x| → (rn z x).getLsbD 0 = false) ∧
  (∀ z x, isInf (rn z x) = true ↔ (2 ^ 54 - 1) * 2 ^ (970 + 2148) ≤ |x|) ∧
  (∀ z x, isNaN (rn z x) = false) ∧
  ∀ z x, x ≠ 0 → fsign (rn z x) = decide (x < 0)

/-- R11: on finite operands each operation is the exact real operation rounded once, with the sign
of an exact zero given by R163. -/
def Obligations.FiniteOperationsRoundOnce : Prop :=
  ∀ nan a b c, isFinite a = true → isFinite b = true → isFinite c = true →
    fadd nan a b = rn (fsign a && fsign b) (quanta a + quanta b) ∧
    fsub nan a b = rn (fsign a && !fsign b) (quanta a - quanta b) ∧
    fmul nan a b = rn (fsign a ^^ fsign b) (units a * units b) ∧
    ffma nan a b c = rn ((fsign a ^^ fsign b) && fsign c) (units a * units b + quanta c)

/-- R162: each operation gives a NaN exactly when it is invalid (a NaN operand, inf - inf, 0 × inf,
and the two fused cases), and that NaN is then the quiet NaN of the draw (decision D4), whatever the
operands' own bits; every draw gives a quiet NaN, and every quiet NaN is given by some draw.
Infinities propagate; with which sign is IEEE 754's and not in R162's words (log 11, PRESUMED). -/
def Obligations.NaNExactlyOnInvalidOperations : Prop :=
  (∀ nan a b, isNaN (fadd nan a b) = true ↔
    (isNaN a = true ∨ isNaN b = true ∨
      (isInf a = true ∧ isInf b = true ∧ fsign a ≠ fsign b))) ∧
  (∀ nan a b, isNaN (fsub nan a b) = true ↔
    (isNaN a = true ∨ isNaN b = true ∨
      (isInf a = true ∧ isInf b = true ∧ fsign a = fsign b))) ∧
  (∀ nan a b, isNaN (fmul nan a b) = true ↔
    (isNaN a = true ∨ isNaN b = true ∨ (isInf a = true ∧ isZero b = true) ∨
      (isZero a = true ∧ isInf b = true))) ∧
  (∀ nan a b c, isNaN (ffma nan a b c) = true ↔
    (isNaN a = true ∨ isNaN b = true ∨ isNaN c = true ∨ (isInf a = true ∧ isZero b = true) ∨
      (isZero a = true ∧ isInf b = true) ∨
      ((isInf a = true ∨ isInf b = true) ∧ isInf c = true ∧
        fsign c ≠ (fsign a ^^ fsign b)))) ∧
  (∀ nan a b, isNaN (fadd nan a b) = true → fadd nan a b = quietNaN nan) ∧
  (∀ nan a b, isNaN (fsub nan a b) = true → fsub nan a b = quietNaN nan) ∧
  (∀ nan a b, isNaN (fmul nan a b) = true → fmul nan a b = quietNaN nan) ∧
  (∀ nan a b c, isNaN (ffma nan a b c) = true → ffma nan a b c = quietNaN nan) ∧
  (∀ draw, isNaN (quietNaN draw) = true ∧ (quietNaN draw).getLsbD 51 = true) ∧
  (∀ x : B64, isNaN x = true → x.getLsbD 51 = true → ∃ draw, quietNaN draw = x) ∧
  (∀ nan a b, isInf a = true → isFinite b = true → fadd nan a b = a ∧ fadd nan b a = a ∧
    fsub nan a b = a ∧ fsub nan b a = fneg a) ∧
  (∀ nan a b, isInf a = true → isInf b = true →
    (fsign a = fsign b → fadd nan a b = a) ∧ (fsign a ≠ fsign b → fsub nan a b = a)) ∧
  (∀ nan a b, isInf a = true → isNaN b = false → isZero b = false →
    fmul nan a b = infinity (fsign a ^^ fsign b) ∧
      fmul nan b a = infinity (fsign a ^^ fsign b)) ∧
  (∀ nan a b c, isInf a = true → isNaN b = false → isZero b = false → isNaN c = false →
    (isInf c = true → fsign c = (fsign a ^^ fsign b)) →
    ffma nan a b c = infinity (fsign a ^^ fsign b) ∧
      ffma nan b a c = infinity (fsign a ^^ fsign b)) ∧
  ∀ nan a b c, isFinite a = true → isFinite b = true → isInf c = true → ffma nan a b c = c

/-- R163: a sum of two zeros is -0 only when both are -0; an exact zero sum of non-zero terms is +0;
a product of zeros has the XOR of the signs; the fused operation follows the same rules for its
product and addend; and the two CMAC forms differ in the sign of a zero (vector V4). -/
def Obligations.SignedZeroRules : Prop :=
  (∀ nan a b, isZero a = true → isZero b = true →
    fadd nan a b = signedZero (fsign a && fsign b)) ∧
  (∀ nan a b, isFinite a = true → isFinite b = true → isZero a = false →
    units a + units b = 0 → fadd nan a b = signedZero false) ∧
  (∀ nan a b, isFinite a = true → isFinite b = true → (isZero a = true ∨ isZero b = true) →
    fmul nan a b = signedZero (fsign a ^^ fsign b)) ∧
  (∀ nan a b c, isFinite a = true → isFinite b = true → (isZero a = true ∨ isZero b = true) →
    isZero c = true → ffma nan a b c = signedZero ((fsign a ^^ fsign b) && fsign c)) ∧
  (∀ nan a b c, isFinite a = true → isFinite b = true → isFinite c = true → isZero c = false →
    units a * units b + quanta c = 0 → ffma nan a b c = signedZero false) ∧
  ∀ nan : Nat → BitVec 52,
    cmacU nan ⟨signedZero true, signedZero true⟩ ⟨signedZero false, signedZero false⟩
      ⟨0x3FF0000000000000, signedZero false⟩ true = ⟨signedZero true, signedZero true⟩ ∧
    cmacF nan ⟨signedZero true, signedZero true⟩ ⟨signedZero false, signedZero false⟩
      ⟨0x3FF0000000000000, signedZero false⟩ true = ⟨signedZero false, signedZero true⟩

/-- R190, R191, R193: for d <= 16 and finite x, fmul(x, 2^-d) is the single rounding of x/2^d; by
1.0 it is x for every non-NaN x; infinities and zeros keep their sign. -/
def Obligations.ScalingIsOneRoundingOfDivision : Prop :=
  (∀ nan x d, d ≤ 16 → isFinite x = true →
    fmul nan x (twoToMinus d) = rn (fsign x) (units x * 2 ^ (1074 - d))) ∧
  (∀ nan x, isNaN x = false → fmul nan x (twoToMinus 0) = x) ∧
  ∀ nan x d, d ≤ 16 → isInf x = true ∨ isZero x = true → fmul nan x (twoToMinus d) = x

/-- The component is the integer k, exactly. -/
def holdsInteger (x : B64) (k : Int) : Prop := isFinite x = true ∧ units x = k * 2 ^ 1074

/-- R165, vector V10: for e = (1, 0), o = (1, 3) and w = (RN(√2/2), -RN(√2/2)) in the even half the
imaginary part is 0x3FF6A09E667F3BCE unfused and 0x3FF6A09E667F3BCD fused. And where no operation
rounds, which follows from R160, R161 and R11: on integer components of magnitude at most 2^20 both
forms give exactly e + w·o in the even half and e - w·o in the odd half. -/
def Obligations.FusedAndUnfusedCmacDiffer : Prop :=
  (∀ nan : Nat → BitVec 52,
    (cmacU nan ⟨0x3FF0000000000000, 0⟩ ⟨0x3FF0000000000000, 0x4008000000000000⟩
      ⟨0x3FE6A09E667F3BCD, 0xBFE6A09E667F3BCD⟩ false).im = 0x3FF6A09E667F3BCE ∧
    (cmacF nan ⟨0x3FF0000000000000, 0⟩ ⟨0x3FF0000000000000, 0x4008000000000000⟩
      ⟨0x3FE6A09E667F3BCD, 0xBFE6A09E667F3BCD⟩ false).im = 0x3FF6A09E667F3BCD) ∧
  ∀ (nan : Nat → BitVec 52) (e o w : Sample) (er ei or oi wr wi : Int),
    holdsInteger e.re er → holdsInteger e.im ei → holdsInteger o.re or → holdsInteger o.im oi →
    holdsInteger w.re wr → holdsInteger w.im wi →
    (∀ k ∈ [er, ei, or, oi, wr, wi], |k| ≤ 2 ^ 20) →
    (∀ y, y = cmacU nan e o w false ∨ y = cmacF nan e o w false →
      holdsInteger y.re (er + (wr * or - wi * oi)) ∧
        holdsInteger y.im (ei + (wr * oi + wi * or))) ∧
    ∀ y, y = cmacU nan e o w true ∨ y = cmacF nan e o w true →
      holdsInteger y.re (er - (wr * or - wi * oi)) ∧
        holdsInteger y.im (ei - (wr * oi + wi * or))

/-! ## The Engine -/

/-- R183, R186: no stage works in place, the roles swap after each stage, the last stage writes B0,
and stage 1 reads B1 exactly when d is odd. -/
def Obligations.BankRolesAlternate : Prop :=
  ∀ d p, 1 ≤ p → p ≤ d →
    srcBank d p ≠ dstBank d p ∧ srcBank d p < 2 ∧ dstBank d p < 2 ∧
    (p < d → srcBank d (p + 1) = dstBank d p) ∧ dstBank d d = 0 ∧ srcBank d 1 = d % 2

/-- R156, R157, R160, R161, R184: the Engine step of stage p leaves in every entry j of the
destination bank the CMAC of the source entries as they stood at the start, by the formulas of R161
exactly when FMA_EN = 1 and d - p > LOG2_FMA_THRESHOLD and by those of R160 otherwise; every byte
outside those entries is unchanged, the source bank's among them; and before the last stage no
register changes but the sequencer, which moves to stage p + 1. The order of the two addends of a
sum does not matter (R160). -/
def Obligations.StageComputesEveryOutput : Prop :=
  (∀ nan a b, fadd nan a b = fadd nan b a) ∧
  ∀ s p, s.seq = ⟨.bfly, p⟩ → 1 ≤ p → p ≤ s.d → s.d ≤ 16 → s.n = 2 ^ s.d → 1 ≤ s.build.workers →
    (∀ j slot, j < s.n →
      (engineStep s).readEntry ((s.d - p) % 2) j slot =
        let x := indexGen s.d p j
        let e := s.readEntry ((s.d - p + 1) % 2) x.ie (2 * j)
        let o := s.readEntry ((s.d - p + 1) % 2) x.io (2 * j + 1)
        let w := s.build.coef s.d x.c s.status.dir
        let nan := Config.nanDraw s.draws j
        if s.cfg.fmaEn = true ∧ s.build.log2FmaThreshold < s.d - p then
          if x.odd then
            ⟨ffma (nan 1) (fneg w.re) o.re (ffma (nan 0) w.im o.im e.re),
              ffma (nan 3) (fneg w.re) o.im (ffma (nan 2) (fneg w.im) o.re e.im)⟩
          else
            ⟨ffma (nan 1) w.re o.re (ffma (nan 0) (fneg w.im) o.im e.re),
              ffma (nan 3) w.re o.im (ffma (nan 2) w.im o.re e.im)⟩
        else
          let tr := fsub (nan 2) (fmul (nan 0) w.re o.re) (fmul (nan 1) w.im o.im)
          let ti := fadd (nan 5) (fmul (nan 3) w.re o.im) (fmul (nan 4) w.im o.re)
          if x.odd then ⟨fsub (nan 6) e.re tr, fsub (nan 7) e.im ti⟩
          else ⟨fadd (nan 6) e.re tr, fadd (nan 7) e.im ti⟩) ∧
    (∀ a, a < bankOffset ((s.d - p) % 2) 0 ∨ bankOffset ((s.d - p) % 2) s.n ≤ a →
      Memory.get (engineStep s).mem a = Memory.get s.mem a) ∧
    (p < s.d → engineStep s = { s with mem := (engineStep s).mem, seq := ⟨.bfly, p + 1⟩ })

/-- R187: the outputs of a stage may be computed in any order: every permutation of the sweep leaves
the same state. -/
def Obligations.AnyOutputOrderGivesSameStage : Prop :=
  ∀ s p order, 1 ≤ p → p ≤ s.d → s.d ≤ 16 → Memory.wf s.mem →
    order.Perm (List.range (2 ^ s.d)) →
    stageInOrder p order s = stageInOrder p (List.range (2 ^ s.d)) s

/-- R188: for every N and every worker count T >= 1 the partitions, in order, are all outputs 0 to
N-1, each once; worker t's starts at floor(N/T)·t, and when N < T the last worker computes all. -/
def Obligations.WorkerPartitionsCoverEveryOutputOnce : Prop :=
  ∀ n T, 1 ≤ T →
    (List.range T).flatMap (workerRange n T) = List.range n ∧
    (∀ t, t < T → jFrom n T t = n / T * t) ∧
    (∀ t, t + 1 < T → jTo n T t = n / T * (t + 1)) ∧ jTo n T (T - 1) = n ∧
    (n < T → workerRange n T (T - 1) = List.range n)

/-- R7, R35, R158, R188, R189: VEC_EN, PAR_EN, LOG2_LANES and WORKERS change no bit of any result,
and no Engine step reads ARG or IRQ_EN: an Engine step under any other setting of these gives the
same state but for them. -/
def Obligations.SchedulesNeverChangeResults : Prop :=
  ∀ s vec par lanes T arg irqEn, 1 ≤ s.build.workers → 1 ≤ T →
    engineStep { s with
        arg := arg, irqEn := irqEn
        cfg := { s.cfg with vecEn := vec, parEn := par }
        build := { s.build with log2Lanes := lanes, workers := T } } =
      { engineStep s with
        arg := arg, irqEn := irqEn
        cfg := { s.cfg with vecEn := vec, parEn := par }
        build := { s.build with log2Lanes := lanes, workers := T } }

/-- R182: COPY makes entries 0..N-1 of B1 equal to those of B0, byte by byte and marker by marker,
changes no other byte, and moves on to stage 1; it runs only when d is odd. -/
def Obligations.CopyMovesBytesAndMarkers : Prop :=
  (∀ d dir, (∃ q ∈ phaseList d dir, q.phase = .copy) ↔ d % 2 = 1) ∧
  ∀ s, s.seq.phase = .copy → s.n ≤ 2 ^ 16 →
    engineStep s = { s with mem := (engineStep s).mem, seq := ⟨.bfly, 1⟩ } ∧
    (∀ k, k < 16 * s.n →
      Memory.get (engineStep s).mem (0x200000 + k) = Memory.get s.mem (0x100000 + k)) ∧
    ∀ a, a < 0x200000 ∨ 0x200000 + 16 * s.n ≤ a →
      Memory.get (engineStep s).mem a = Memory.get s.mem a

/-- R190, R192: SCALE multiplies both components of every entry 0..N-1 of B0 by 2^-d, changes no
other byte (B1 is not scaled), and completes. -/
def Obligations.ScaleMultipliesBankZero : Prop :=
  ∀ s, s.seq.phase = .scale → s.n ≤ 2 ^ 16 →
    (∀ i slot, i < s.n →
      (engineStep s).readEntry 0 i slot =
        ⟨fmul (Config.nanDraw s.draws i 0) (s.readEntry 0 i i).re (twoToMinus s.d),
          fmul (Config.nanDraw s.draws i 1) (s.readEntry 0 i i).im (twoToMinus s.d)⟩) ∧
    (∀ a, a < 0x100000 ∨ 0x100000 + 16 * s.n ≤ a →
      Memory.get (engineStep s).mem a = Memory.get s.mem a) ∧
    engineStep s = { s with
      mem := (engineStep s).mem, seq := ⟨.idle, 0⟩
      status := { s.status with busy := false, done := true } }

/-- R192, R43: the Engine step of the last phase sets BUSY = 0, DONE = 1 and seq = (IDLE, 0) in that
same step, leaves DIR, WINDOW_SIZE, DEPTH, CFG and the error flags unchanged, and raises irq when
DONE_IE = 1. -/
def Obligations.LastPhaseCompletes : Prop :=
  ∀ s, (s.seq.phase = .scale ∨
      (s.seq.phase = .bfly ∧ s.seq.p = s.d ∧ s.status.dir = false)) →
    engineStep s = { s with
      mem := (engineStep s).mem, seq := ⟨.idle, 0⟩
      status := { s.status with busy := false, done := true } } ∧
    (s.irqEn.doneIe = true → (engineStep s).irq = true)

/-- R195: the transitions of seq taken by Engine steps. -/
def Obligations.SequencerTransitions : Prop :=
  (∀ s, s.seq = ⟨.copy, 0⟩ → (engineStep s).seq = ⟨.bfly, 1⟩) ∧
  (∀ s p, s.seq = ⟨.bfly, p⟩ → p < s.d → (engineStep s).seq = ⟨.bfly, p + 1⟩) ∧
  (∀ s, s.seq = ⟨.bfly, s.d⟩ → s.status.dir = true → (engineStep s).seq = ⟨.scale, 0⟩) ∧
  (∀ s, s.seq = ⟨.bfly, s.d⟩ → s.status.dir = false → (engineStep s).seq = ⟨.idle, 0⟩) ∧
  (∀ s, s.seq = ⟨.scale, 0⟩ → (engineStep s).seq = ⟨.idle, 0⟩) ∧
  ∀ s, s.seq = ⟨.idle, 0⟩ → engineStep s = s

/-- R180, R181, R198: after acceptance the Engine executes exactly the phases of L(d, dir), in order,
BUSY all the while; after |L(d, dir)| = d + (d mod 2) + dir steps, and not before, it is idle with
DONE = 1. -/
def Obligations.TransformTakesExactlyItsPhases : Prop :=
  ∀ s dir, (accept dir s).seq.phase ≠ .idle →
    (phaseList s.d dir).length = s.d + s.d % 2 + dir.toNat ∧
    (∀ k (h : k < (phaseList s.d dir).length),
      (engineStep^[k] (accept dir s)).seq = (phaseList s.d dir)[k] ∧
      (engineStep^[k] (accept dir s)).status.busy = true ∧
      (engineStep^[k] (accept dir s)).status.done = false) ∧
    (engineStep^[(phaseList s.d dir).length] (accept dir s)).seq = ⟨.idle, 0⟩ ∧
    (engineStep^[(phaseList s.d dir).length] (accept dir s)).status.busy = false ∧
    (engineStep^[(phaseList s.d dir).length] (accept dir s)).status.done = true

/-- R47, R246: an Engine step changes no byte outside entries 0..N-1 of the two banks, and no
register but BUSY, DONE and the sequencer state. -/
def Obligations.EngineStepFrame : Prop :=
  ∀ s, s.d ≤ 16 → s.n = 2 ^ s.d → 1 ≤ s.build.workers →
    (s.seq.phase = .bfly → 1 ≤ s.seq.p ∧ s.seq.p ≤ s.d) →
    (∀ a, (a < 0x100000 ∨ 0x100000 + 16 * s.n ≤ a) → (a < 0x200000 ∨ 0x200000 + 16 * s.n ≤ a) →
      Memory.get (engineStep s).mem a = Memory.get s.mem a) ∧
    engineStep s = { s with
      mem := (engineStep s).mem, seq := (engineStep s).seq
      status := { s.status with
        busy := (engineStep s).status.busy, done := (engineStep s).status.done } }

/-! ## What the network computes -/

/-- The rotation by k/N of a turn, forward (clockwise) or inverse. -/
noncomputable def turn (d : Nat) (dir : Bool) (k : Nat) : ℂ :=
  Complex.exp ((if dir then 1 else -1) * 2 * Real.pi * Complex.I * (k : ℂ) / (2 : ℂ) ^ d)

/-- BFLY(p, j) with exact arithmetic in place of RN: the index generator's operands and coefficient,
the exact root of unity, and no rounding (42_sequencer.md R199). -/
noncomputable def exactStage (d : Nat) (dir : Bool) (p : Nat) (x : Nat → ℂ) (j : Nat) : ℂ :=
  let g := indexGen d p j
  if g.odd then x g.ie - turn d dir g.c * x g.io else x g.ie + turn d dir g.c * x g.io

/-- The BFLY stages of the phase list, in its order, with exact arithmetic. -/
noncomputable def exactStages (d : Nat) (dir : Bool) (x : Nat → ℂ) : Nat → ℂ :=
  ((phaseList d dir).filter fun q => q.phase == .bfly).foldl (fun y q => exactStage d dir q.p y) x

/-- What the rules compute (42_sequencer.md R199): with exact arithmetic the stages of the phase
list, through the index generator, give the discrete Fourier sum of the signal, in natural order,
in both directions and at every depth. -/
def Obligations.ExactNetworkComputesTheDft : Prop :=
  ∀ d dir (x : Nat → ℂ) k, k < 2 ^ d →
    exactStages d dir x k = ∑ n ∈ Finset.range (2 ^ d), x n * turn d dir (k * n)

/-- The round trip of 42_sequencer.md R199 and R200 with exact arithmetic: the inverse stages after
the forward ones, times the 1/N of SCALE, give the signal back. -/
def Obligations.ExactRoundTripIsIdentity : Prop :=
  ∀ d (x : Nat → ℂ) k, k < 2 ^ d →
    exactStages d true (exactStages d false x) k / (2 : ℂ) ^ d = x k

/-! ## Reset -/

/-- R53, R272, R273: after power-on of any build every register reads 0 but CAP, irq is 0, the
sequencer is idle, every bank byte is unwritten and the build is unchanged; State.reset is REF's
(log 4), where CAP reads 0x0031044C and the ROM is the default image; TST's CAP reads 0x00010204. -/
def Obligations.ResetValues : Prop :=
  (∀ b, (∀ r, r ≠ .cap → (State.powerOn b).regRead r = 0) ∧ (State.powerOn b).irq = false ∧
    (State.powerOn b).seq = ⟨.idle, 0⟩ ∧ (∀ a, Memory.get (State.powerOn b).mem a = none) ∧
    (State.powerOn b).build = b) ∧
  State.reset = State.powerOn Build.ref ∧ State.reset.regRead .cap = 0x0031044C ∧
  State.reset.build.rom = .defaultImage ∧ (State.powerOn Build.tst).regRead .cap = 0x00010204

/-- R270, R271, R273: a reset step puts every register at its reset value and keeps the build. Every
bank byte is unwritten after power-on; entries 0..N-1 of both banks are unwritten and the rest
unchanged after a reset while BUSY = 1; the banks are unchanged after an idle reset. irq is 0. -/
def Obligations.ResetStepEffect : Prop :=
  ∀ s powerOn rest, s.inputs = .reset powerOn :: rest → s.n ≤ 2 ^ 16 →
    ∃ t, step s = .next t ∧
      t = { State.powerOn s.build with
        mem := t.mem, inputs := rest, again := s.again, draws := s.draws + 1 } ∧
      t.irq = false ∧
      (powerOn = true → ∀ a, Memory.get t.mem a = none) ∧
      (powerOn = false → s.status.busy = false → t.mem = s.mem) ∧
      (powerOn = false → s.status.busy = true → ∀ a, Memory.get t.mem a =
        if (0x100000 ≤ a ∧ a < 0x100000 + 16 * s.n) ∨ (0x200000 ≤ a ∧ a < 0x200000 + 16 * s.n)
        then none else Memory.get s.mem a)

/-! ## The whole machine -/

/-- "FBD has no fault and no stuck case": every step, in every state and on every input, has a next
state. -/
def Obligations.EveryStepHasANextState : Prop :=
  ∀ s, ∃ t, step s = .next t

/-- Every step keeps the invariants of `State.Inv`: a canonical memory inside the populated windows
with whole quarters, BUSY exactly while the sequencer runs, never with DONE, WINDOW_SIZE = 2^DEPTH
while configured and 0 otherwise, the stage number in range, ERRCODE recorded exactly while ERR,
and FMA_EN only on a build with the unit. -/
def Obligations.EveryStepKeepsInvariant : Prop :=
  ∀ s t, s.Inv → step s = .next t → t.Inv

/-- Which events change which part of the state (10_state.md R35, R36, R40, R42; 42_sequencer.md
R192, R195; 43_commands.md R213, R218; 60_exceptions.md R241, R245). On a legal build, any step but
a reset changes ARG and IRQ_EN only by a write to them; the configuration only by a CONFIG while not
busy; the sequencer only by an Engine step or a transform command while not busy; a bank byte only
by an Engine step of a running transform or a bank write while not busy; sets DONE only at
completion or for an accepted DFT at N = 1; sets ERR only by a CMD write; and sets ACCERR only with
an ERROR response. -/
def Obligations.OnlyTheseEventsChangeEachPart : Prop :=
  ∀ s t, s.build.wellFormed = true → step s = .next t → (∀ p, inputOf s ≠ .reset p) →
    (t.arg ≠ s.arg → ∃ v, writes s 0x008 v) ∧
    (t.irqEn ≠ s.irqEn → ∃ v, writes s 0x020 v) ∧
    (t.n ≠ s.n ∨ t.d ≠ s.d ∨ t.cfg ≠ s.cfg ∨ t.status.cfgValid ≠ s.status.cfgValid →
      s.status.busy = false ∧ ∃ v vec fma par, writes s 0x004 v ∧
        decodeWord (BitVec.ofNat 32 v) = .ok (.config vec fma par)) ∧
    (t.seq ≠ s.seq → inputOf s = .engine ∨ (s.status.busy = false ∧ ∃ v, writes s 0x004 v ∧
      (decodeWord (BitVec.ofNat 32 v) = .ok .dft ∨ decodeWord (BitVec.ofNat 32 v) = .ok .idft))) ∧
    (t.mem ≠ s.mem → (inputOf s = .engine ∧ s.seq.phase ≠ .idle) ∨
      (s.status.busy = false ∧ ∃ off v, writes s off v ∧ inBanks s.build off)) ∧
    (s.status.done = false → t.status.done = true →
      (inputOf s = .engine ∧ s.seq.phase ≠ .idle ∧ t.seq = ⟨.idle, 0⟩) ∨
      (s.status.busy = false ∧ s.d = 0 ∧ ∃ v, writes s 0x004 v ∧
        decodeWord (BitVec.ofNat 32 v) = .ok .dft)) ∧
    (s.status.err = false → t.status.err = true → ∃ v, writes s 0x004 v) ∧
    (s.status.accerr = false → t.status.accerr = true →
      t.resp = some (.error (some 0)) ∨ t.resp = some (.error none))

/-- The invariants hold after power-on of every legal build. -/
def Obligations.ResetMeetsInvariant : Prop :=
  ∀ b : Build, b.wellFormed = true → (State.powerOn b).Inv

/-- R292, R198, for the schedules that the state holds (log 1, DESIGN CHOICE: when `inputs` is used
up the Engine has its turn, then `again` comes again, for ever). From every state that meets the
invariant, in the middle of a transform, if no reset intervenes, the transform completes: after a
bounded number of steps BUSY falls, with DONE = 1 and the sequencer idle, and until then it is
running. The Host may do nothing more (`again` empty) or, say, poll STATUS for ever. -/
def Obligations.EveryTransformCompletes : Prop :=
  ∀ s, s.Inv → s.status.busy = true → (∀ p, .reset p ∉ s.inputs ++ s.again) →
    ∃ k t, k ≤ s.inputs.length + (s.again.length + 1) * (s.build.dmax + 2) ∧
      Sys2Proof.core.run k s = .next t ∧
      t.seq = ⟨.idle, 0⟩ ∧ t.status.busy = false ∧ t.status.done = true ∧
      ∀ j, j < k → ∃ u, Sys2Proof.core.run j s = .next u ∧ u.status.busy = true

/-- A run over an endless schedule: step k takes the input f k, as the machine's step does, whatever
list of later inputs the state keeps. -/
def runsSchedule (f : Nat → Input) (σ : Nat → State) : Prop :=
  ∀ k, ∃ later, runInput (f k) ((σ k).advanced later) = .next (σ (k + 1))

/-- R292 for endless schedules of every kind, periodic or not. Let a Host do anything for ever
(polling STATUS, say) and let the Engine only be treated fairly, always having a later turn while
BUSY = 1. Then from every point of the run at which BUSY = 1, in a state that meets the invariant,
either a reset intervenes or, on a later Engine turn, the transform completes with DONE = 1, BUSY
all the while before; and it takes at most DMAX + 2 Engine turns from that point on. The steps the
machine takes from its own lists are such runs: the first two clauses (log 1). -/
def Obligations.FairSchedulesCompleteTransforms : Prop :=
  (∀ s i rest, s.inputs = i :: rest → step s = runInput i (s.advanced rest)) ∧
  (∀ s, s.inputs = [] → step s = runInput .engine (s.advanced s.again)) ∧
  ∀ f σ, runsSchedule f σ →
    (∀ k, (σ k).status.busy = true → ∃ m, k ≤ m ∧ f m = .engine) →
    ∀ k, (σ k).Inv → (σ k).status.busy = true →
      ∃ m, k ≤ m ∧ (∀ j, k ≤ j → j ≤ m → (σ j).status.busy = true) ∧
        ((∃ p, f m = .reset p) ∨
          (f m = .engine ∧ (σ (m + 1)).status.busy = false ∧ (σ (m + 1)).status.done = true ∧
            (σ (m + 1)).seq = ⟨.idle, 0⟩ ∧
            (List.range' k (m + 1 - k)).countP (fun j => f j = .engine) ≤ (σ k).build.dmax + 2))
end

