-- ==== Sys2Proof/Laws/Butterfly.lean ====
section
/-! SUPPORT. The index generator in plain arithmetic, and the ranges the Engine's accesses need. -/

namespace Sys2Proof

theorem bottomExtent_eq (d p : Nat) : bottomExtent d p = 2 ^ (d - p) := by
  simp [bottomExtent, Nat.shiftLeft_eq]

theorem halfTop_eq (p : Nat) : halfTop p = 2 ^ (p - 1) := by simp [halfTop, Nat.shiftLeft_eq]

theorem topIndex_eq (d p j : Nat) : topIndex d p j = j / 2 ^ (d - p) := by
  simp [topIndex, Nat.shiftRight_eq_div_pow]

theorem bottomIndex_eq (d p j : Nat) : bottomIndex d p j = j % 2 ^ (d - p) := by
  simp [bottomIndex, Nat.shiftLeft_eq, Nat.and_two_pow_sub_one_eq_mod]

theorem coefIndex_eq (d p j : Nat) : coefIndex d p j = reducedTop d p j * 2 ^ (d - p) := by
  simp [coefIndex, Nat.shiftLeft_eq]

theorem indexGen_ie (d p j : Nat) :
    (indexGen d p j).ie = j % 2 ^ (d - p) + 2 * coefIndex d p j := by
  simp only [indexGen, bottomIndex_eq, Nat.shiftLeft_eq]; omega

theorem indexGen_io (d p j : Nat) :
    (indexGen d p j).io = (indexGen d p j).ie + 2 ^ (d - p) := by
  simp only [indexGen, bottomExtent_eq]

/-- A stage's group size times its group count is the size: N = 2·half·E. -/
theorem two_pow_split {d p : Nat} (h1 : 1 ≤ p) (h2 : p ≤ d) :
    2 ^ d = 2 * 2 ^ (p - 1) * 2 ^ (d - p) := by
  rw [← pow_succ', ← pow_add]; congr 1; omega

theorem reducedTop_lt {d p j : Nat} (h1 : 1 ≤ p) (h2 : p ≤ d) (hj : j < 2 ^ d) :
    reducedTop d p j < 2 ^ (p - 1) := by
  have ht : topIndex d p j < 2 * 2 ^ (p - 1) := by
    rw [topIndex_eq]
    apply Nat.div_lt_of_lt_mul
    have := two_pow_split h1 h2
    calc j < 2 ^ d := hj
      _ = 2 ^ (d - p) * (2 * 2 ^ (p - 1)) := by rw [this]; ring
  unfold reducedTop
  rw [halfTop_eq]
  split <;> omega

/-- Both operands of a butterfly lie inside the transform. -/
theorem indexGen_io_lt {d p j : Nat} (h1 : 1 ≤ p) (h2 : p ≤ d) (hj : j < 2 ^ d) :
    (indexGen d p j).io < 2 ^ d := by
  rw [indexGen_io, indexGen_ie, coefIndex_eq]
  have hr := reducedTop_lt h1 h2 hj
  have hE : 0 < 2 ^ (d - p) := by positivity
  have hb := Nat.mod_lt j hE
  have := two_pow_split h1 h2
  have : (reducedTop d p j + 1) * 2 ^ (d - p) ≤ 2 ^ (p - 1) * 2 ^ (d - p) :=
    Nat.mul_le_mul_right _ hr
  have e1 : (reducedTop d p j + 1) * 2 ^ (d - p)
      = reducedTop d p j * 2 ^ (d - p) + 2 ^ (d - p) := by ring
  have e2 : 2 * 2 ^ (p - 1) * 2 ^ (d - p) = 2 * (2 ^ (p - 1) * 2 ^ (d - p)) := by ring
  omega

theorem indexGen_ie_lt {d p j : Nat} (h1 : 1 ≤ p) (h2 : p ≤ d) (hj : j < 2 ^ d) :
    (indexGen d p j).ie < 2 ^ d := by
  have := indexGen_io_lt h1 h2 hj
  rw [indexGen_io] at this
  exact lt_of_le_of_lt (Nat.le_add_right _ _) this

end Sys2Proof
end

