-- ==== Sys2Proof/Laws/Memory.lean ====
section
/-! SUPPORT. The laws of the bank memory: reading after writing, the canonical form, and bytes,
words and samples. -/

namespace Sys2Proof.Machine

/-- The first cell, if any, is at or above an offset. -/
def Memory.headFrom (m : Memory) (a : Nat) : Prop := ∀ c ∈ m.head?, a ≤ c.1

namespace Memory

@[simp] theorem get_nil (a : Nat) : get [] a = none := rfl

theorem get_of_headFrom {m : Memory} {a c : Nat} (h : m.headFrom a) (hc : c < a) :
    get m c = none := by
  cases m with
  | nil => rfl
  | cons x m =>
    have hx : a ≤ x.1 := h x (by simp)
    obtain ⟨k, v⟩ := x
    simp only [get]
    rw [if_neg (by simp at hx; omega), if_pos (by simp at hx; omega)]

theorem get_append_low {l r : Memory} {a c : Nat} (hr : r.headFrom a) (hc : c < a) :
    get (l ++ r) c = get l c := by
  induction l with
  | nil => simpa using get_of_headFrom hr hc
  | cons x l ih => obtain ⟨k, v⟩ := x; simp only [List.cons_append, get, ih]

theorem get_append_high {l r : Memory} {a c : Nat} (hl : ∀ x ∈ l, x.1 < a) (hc : a ≤ c) :
    get (l ++ r) c = get r c := by
  induction l with
  | nil => rfl
  | cons x l ih =>
    have hx := hl x (by simp)
    obtain ⟨k, v⟩ := x
    simp only [List.cons_append, get]
    rw [if_neg (by simp at hx; omega), if_neg (by simp at hx; omega),
      ih fun y hy => hl y (by simp [hy])]

theorem get_below {m : Memory} {a c : Nat} (hc : c < a) : get (below m a) c = get m c := by
  unfold below
  induction m with
  | nil => rfl
  | cons x m ih =>
    obtain ⟨k, v⟩ := x
    by_cases hk : k < a
    · simp only [List.takeWhile, hk, decide_true, get, ih]
    · simp only [List.takeWhile, hk, decide_false, get]
      rw [if_neg (by omega), if_pos (by omega)]

theorem below_lt {m : Memory} {a : Nat} : ∀ x ∈ below m a, x.1 < a := fun x hx => by
  simpa using List.mem_takeWhile_imp hx

theorem get_from {m : Memory} {a c : Nat} (hc : a ≤ c) : get (m.from a) c = get m c := by
  unfold Memory.from
  induction m with
  | nil => rfl
  | cons x m ih =>
    obtain ⟨k, v⟩ := x
    by_cases hk : k < a
    · simp only [List.dropWhile, hk, decide_true, ih, get]
      rw [if_neg (by omega), if_neg (by omega)]
    · simp only [List.dropWhile, hk, decide_false]

theorem headFrom_from (m : Memory) (a : Nat) : (m.from a).headFrom a := by
  unfold Memory.from headFrom
  induction m with
  | nil => simp
  | cons x m ih =>
    obtain ⟨k, v⟩ := x
    by_cases hk : k < a
    · simpa only [List.dropWhile, hk, decide_true] using ih
    · simp only [List.dropWhile, hk, decide_false]
      simp; omega

theorem headFrom_cells_append {r : Memory} (bs : List (Option Byte)) {a : Nat}
    (hr : r.headFrom (a + bs.length)) : (cells a bs ++ r).headFrom a := by
  induction bs generalizing a with
  | nil => simpa [cells] using hr
  | cons b bs ih =>
    cases b with
    | none =>
      have := ih (a := a + 1) (by
        simp only [List.length_cons] at hr
        rwa [show a + (bs.length + 1) = a + 1 + bs.length by omega] at hr)
      intro x hx
      have := this x (by simpa [cells] using hx)
      omega
    | some v => simp [headFrom, cells]

theorem get_cells_append {r : Memory} (bs : List (Option Byte)) {a c : Nat}
    (hr : r.headFrom (a + bs.length)) (hc : a ≤ c) :
    get (cells a bs ++ r) c = if c < a + bs.length then bs.getD (c - a) none else get r c := by
  induction bs generalizing a with
  | nil => simp only [cells, List.nil_append, List.length_nil]; rw [if_neg (by omega)]
  | cons b bs ih =>
    have hr' : r.headFrom (a + 1 + bs.length) := by
      rw [List.length_cons] at hr
      rwa [show a + (bs.length + 1) = a + 1 + bs.length by omega] at hr
    rcases Nat.eq_or_lt_of_le hc with rfl | hlt
    · cases b with
      | none =>
        simp only [cells, List.length_cons]
        rw [get_of_headFrom (headFrom_cells_append bs hr') (by omega)]
        simp
      | some v => simp [cells, get]
    · have hget : get (cells a (b :: bs) ++ r) c = get (cells (a + 1) bs ++ r) c := by
        cases b with
        | none => rfl
        | some v =>
          simp only [cells, List.cons_append, get]
          rw [if_neg (by omega), if_neg (by omega)]
      rw [hget, ih hr' hlt, List.length_cons, show c - a = (c - (a + 1)) + 1 by omega,
        List.getD_cons_succ]
      split <;> split <;> first | rfl | omega

/-- Reading one byte after a block write: the block's byte inside it, the old byte outside. -/
theorem get_writeBlock (m : Memory) (a c : Nat) (bs : List (Option Byte)) :
    get (writeBlock m a bs) c =
      if a ≤ c ∧ c < a + bs.length then bs.getD (c - a) none else get m c := by
  have hf := headFrom_from m (a + bs.length)
  unfold writeBlock
  by_cases hc : c < a
  · rw [get_append_low (headFrom_cells_append bs hf) hc, get_below hc, if_neg (by omega)]
  · rw [get_append_high below_lt (by omega), get_cells_append bs hf (by omega)]
    by_cases h2 : c < a + bs.length
    · rw [if_pos h2, if_pos (by omega)]
    · rw [if_neg h2, if_neg (by omega), get_from (by omega)]

theorem get_writeBlock_inside {m : Memory} {a c : Nat} {bs : List (Option Byte)} (h1 : a ≤ c)
    (h2 : c < a + bs.length) : get (writeBlock m a bs) c = bs.getD (c - a) none := by
  rw [get_writeBlock, if_pos ⟨h1, h2⟩]

theorem get_writeBlock_outside {m : Memory} {a c : Nat} {bs : List (Option Byte)}
    (h : c < a ∨ a + bs.length ≤ c) : get (writeBlock m a bs) c = get m c := by
  rw [get_writeBlock, if_neg (by omega)]

/-- A block read is one byte read per offset. -/
theorem readBlock_eq (m : Memory) (a n : Nat) :
    readBlock m a n = (List.range n).map fun i => get m (a + i) := by
  induction n generalizing m a with
  | zero => rfl
  | succ n ih =>
    rw [readBlock, ih, List.range_succ_eq_map, List.map_cons, List.map_map]
    congr 1
    apply List.map_congr_left
    intro i _
    simp only [Function.comp]
    rw [get_from (by omega)]
    congr 1
    omega

@[simp] theorem length_readBlock (m : Memory) (a n : Nat) : (readBlock m a n).length = n := by
  simp [readBlock_eq]

theorem getD_readBlock {m : Memory} {a n i : Nat} (h : i < n) :
    (readBlock m a n).getD i none = get m (a + i) := by
  simp [readBlock_eq, List.getD, h]

/-- Block reads see only the bytes of the block. -/
theorem readBlock_congr {m m' : Memory} {a n : Nat}
    (h : ∀ c, a ≤ c → c < a + n → get m c = get m' c) : readBlock m a n = readBlock m' a n := by
  rw [readBlock_eq, readBlock_eq]
  apply List.map_congr_left
  intro i hi
  exact h _ (by omega) (by have := List.mem_range.1 hi; omega)

theorem readBlock_writeBlock_same (m : Memory) (a : Nat) (bs : List (Option Byte)) :
    readBlock (writeBlock m a bs) a bs.length = bs := by
  rw [readBlock_eq]
  apply List.ext_getElem (by simp)
  intro i h1 h2
  simp only [List.getElem_map, List.getElem_range]
  rw [get_writeBlock_inside (by omega) (by omega)]
  simp [List.getD, h2]

theorem readBlock_writeBlock_disjoint {m : Memory} {a c n : Nat} {bs : List (Option Byte)}
    (h : c + n ≤ a ∨ a + bs.length ≤ c) :
    readBlock (writeBlock m a bs) c n = readBlock m c n :=
  readBlock_congr fun x h1 h2 => get_writeBlock_outside (by omega)

theorem cells_bounds (bs : List (Option Byte)) (a : Nat) :
    ∀ x ∈ cells a bs, a ≤ x.1 ∧ x.1 < a + bs.length := by
  induction bs generalizing a with
  | nil => simp [cells]
  | cons b bs ih =>
    intro x hx
    cases b with
    | none =>
      have := ih (a + 1) x hx
      simp only [List.length_cons]; omega
    | some v =>
      simp only [cells, List.mem_cons] at hx
      rcases hx with rfl | hx
      · simp
      · have := ih (a + 1) x hx
        simp only [List.length_cons]; omega

theorem wf_cells (bs : List (Option Byte)) (a : Nat) : wf (cells a bs) := by
  induction bs generalizing a with
  | nil => exact List.Pairwise.nil
  | cons b bs ih =>
    cases b with
    | none => exact ih (a + 1)
    | some v =>
      refine List.Pairwise.cons (fun x hx => ?_) (ih (a + 1))
      have := cells_bounds bs (a + 1) x hx
      simp only; omega

theorem from_ge {m : Memory} {a : Nat} (hm : wf m) : ∀ x ∈ m.from a, a ≤ x.1 := by
  have hs : wf (m.from a) := hm.sublist (List.dropWhile_sublist _)
  have hh := headFrom_from m a
  intro x hx
  cases hf : m.from a with
  | nil => simp [hf] at hx
  | cons y l =>
    rw [hf] at hx hs hh
    have hy : a ≤ y.1 := hh y (by simp)
    rcases List.mem_cons.1 hx with rfl | hx
    · exact hy
    · have := (List.pairwise_cons.1 hs).1 x hx; omega

/-- A block write keeps the canonical form. -/
theorem wf_writeBlock {m : Memory} (hm : wf m) (a : Nat) (bs : List (Option Byte)) :
    wf (writeBlock m a bs) := by
  unfold writeBlock
  refine List.pairwise_append.2 ⟨hm.sublist (List.takeWhile_sublist _), ?_, ?_⟩
  · refine List.pairwise_append.2
      ⟨wf_cells bs a, hm.sublist (List.dropWhile_sublist _), fun x hx y hy => ?_⟩
    have h1 := cells_bounds bs a x hx
    have h2 := from_ge hm y hy
    omega
  · intro x hx y hy
    have h1 := below_lt x hx
    rcases List.mem_append.1 hy with hy | hy
    · have := cells_bounds bs a y hy; omega
    · have := from_ge hm y hy; omega

/-- A listed cell is what a byte read gives. -/
theorem get_of_mem {m : Memory} (hm : wf m) {k : Nat} {v : Byte} (h : (k, v) ∈ m) :
    get m k = some v := by
  induction m with
  | nil => simp at h
  | cons x m ih =>
    obtain ⟨k', v'⟩ := x
    have ⟨h1, h2⟩ := List.pairwise_cons.1 hm
    rcases List.mem_cons.1 h with h | h
    · cases h; simp [get]
    · have := h1 _ h
      simp only [get]
      rw [if_neg (by simp at this; omega), if_neg (by simp at this; omega), ih h2 h]

/-- A byte that is read is listed. -/
theorem mem_of_get {m : Memory} {k : Nat} {v : Byte} (h : get m k = some v) : (k, v) ∈ m := by
  induction m with
  | nil => simp at h
  | cons x m ih =>
    obtain ⟨k', v'⟩ := x
    simp only [get] at h
    split at h
    · simp_all
    · split at h
      · simp at h
      · exact List.mem_cons_of_mem _ (ih h)

/-- Canonical memories that read alike are equal. -/
theorem ext {m m' : Memory} (hm : wf m) (hm' : wf m') (h : ∀ a, get m a = get m' a) : m = m' := by
  induction m generalizing m' with
  | nil =>
    cases m' with
    | nil => rfl
    | cons y m' =>
      have := h y.1
      rw [get_of_mem hm' (v := y.2) (by simp)] at this
      simp at this
  | cons x m ih =>
    cases m' with
    | nil =>
      have := h x.1
      rw [get_of_mem hm (v := x.2) (by simp)] at this
      simp at this
    | cons y m' =>
      have ⟨h1, h2⟩ := List.pairwise_cons.1 hm
      have ⟨h1', h2'⟩ := List.pairwise_cons.1 hm'
      have hx := mem_of_get ((h x.1).symm.trans (get_of_mem hm (v := x.2) (by simp)))
      have hy := mem_of_get ((h y.1).trans (get_of_mem hm' (v := y.2) (by simp)))
      have hxy : x = y := by
        rcases List.mem_cons.1 hx with e | hx
        · exact e
        · rcases List.mem_cons.1 hy with e | hy
          · exact e.symm
          · have a1 := h1' _ hx
            have a2 := h1 _ hy
            simp only at a1 a2
            omega
      subst hxy
      congr 1
      apply ih h2 h2'
      intro a
      have ha := h a
      obtain ⟨k, v⟩ := x
      by_cases hk : k = a
      · subst hk
        rw [get_of_headFrom (a := k + 1), get_of_headFrom (a := k + 1)]
        · intro c hc; exact h1' c (List.mem_of_mem_head? hc)
        · omega
        · intro c hc; exact h1 c (List.mem_of_mem_head? hc)
        · omega
      · simp only [get] at ha
        rw [if_neg hk, if_neg hk] at ha
        by_cases hlt : a < k
        · rw [get_of_headFrom (a := k + 1), get_of_headFrom (a := k + 1)]
          · intro c hc; exact h1' c (List.mem_of_mem_head? hc)
          · omega
          · intro c hc; exact h1 c (List.mem_of_mem_head? hc)
          · omega
        · rwa [if_neg hlt, if_neg hlt] at ha

end Memory

/-! ## Bytes, words and samples -/

@[simp] theorem length_bytesOfWord (w : Word) : (bytesOfWord w).length = 4 := rfl

@[simp] theorem length_bytesOfSample (e : Sample) : (bytesOfSample e).length = 16 := rfl

theorem bytesOfSample_eq (e : Sample) :
    bytesOfSample e =
      bytesOfWord (e.re.extractLsb' 0 32) ++ (bytesOfWord (e.re.extractLsb' 32 32)
        ++ (bytesOfWord (e.im.extractLsb' 0 32) ++ bytesOfWord (e.im.extractLsb' 32 32))) := rfl

theorem wordOfBytes_byteLane (w : Word) :
    wordOfBytes (byteLane w 0) (byteLane w 1) (byteLane w 2) (byteLane w 3) = w := by
  apply BitVec.eq_of_getLsbD_eq
  intro i hi
  simp only [wordOfBytes, byteLane, BitVec.getLsbD_append, BitVec.getLsbD_extractLsb']
  rcases (by omega : i < 8 ∨ (8 ≤ i ∧ i < 16) ∨ (16 ≤ i ∧ i < 24) ∨ (24 ≤ i ∧ i < 32)) with
    h | h | h | h
  · simp [h]
  · simp [show ¬ i < 8 by omega, show i - 8 < 8 by omega, show 8 + (i - 8) = i by omega]
  · simp [show ¬ i < 8 by omega, show ¬ i - 8 < 8 by omega, show i - 8 - 8 < 8 by omega,
      show 16 + (i - 8 - 8) = i by omega]
  · simp [show ¬ i < 8 by omega, show ¬ i - 8 < 8 by omega, show ¬ i - 8 - 8 < 8 by omega,
      show i - 8 - 8 - 8 < 8 by omega, show 24 + (i - 8 - 8 - 8) = i by omega]

/-- The four byte lanes of a word are the bytes it was made of. -/
theorem bytesOfWord_wordOfBytes (b0 b1 b2 b3 : Byte) :
    bytesOfWord (wordOfBytes b0 b1 b2 b3) = [b0, b1, b2, b3] := by
  have lane : ∀ k, k < 4 → byteLane (wordOfBytes b0 b1 b2 b3) k = [b0, b1, b2, b3].getD k 0 := by
    intro k hk
    apply BitVec.eq_of_toNat_eq
    simp only [byteLane, wordOfBytes, BitVec.extractLsb'_toNat, BitVec.toNat_append,
      Nat.shiftLeft_eq, Nat.mul_comm _ (2 ^ 8), ← Nat.two_pow_add_eq_or_of_lt b0.isLt,
      ← Nat.two_pow_add_eq_or_of_lt b1.isLt, ← Nat.two_pow_add_eq_or_of_lt b2.isLt,
      Nat.shiftRight_eq_div_pow]
    have := b0.isLt; have := b1.isLt; have := b2.isLt; have := b3.isLt
    interval_cases k <;> simp <;> omega
  simp [bytesOfWord, lane]

/-- Written bytes read back as the word, whatever the draw. -/
theorem wordOrDraw_bytes (draw w : Word) (rest : List (Option Byte)) :
    wordOrDraw draw ((bytesOfWord w).map some ++ rest) = w := by
  simpa [wordOrDraw, bytesOfWord] using wordOfBytes_byteLane w

/-- A written quarter reads as the word its four bytes hold. -/
theorem readWord_written {s : State} {off : Nat} {w : Word} (slot : Nat)
    (h : Memory.readBlock s.mem off 4 = (bytesOfWord w).map some) : s.readWord off slot = w := by
  unfold State.readWord
  rw [h]
  simpa using wordOrDraw_bytes (Config.unwrittenWord s.draws slot) w []

/-- A wholly unwritten word is the draw. -/
theorem wordOrDraw_none (draw : Word) (n : Nat) :
    wordOrDraw draw (List.replicate n none) = draw := by
  have h : ∀ k, (List.replicate n (none : Option Byte)).getD k none = none := by
    intro k
    simp only [List.getD, List.getElem?_replicate]
    split <;> rfl
  simpa [wordOrDraw, h] using wordOfBytes_byteLane draw

theorem componentOf_extract (x : B64) :
    componentOf (x.extractLsb' 0 32) (x.extractLsb' 32 32) = x := by
  apply BitVec.eq_of_getLsbD_eq
  intro i hi
  simp only [componentOf, BitVec.getLsbD_append, BitVec.getLsbD_extractLsb']
  by_cases h : i < 32
  · simp [h]
  · simp [h, show i - 32 < 32 by omega, show 32 + (i - 32) = i by omega]

/-- Written bytes read back as the sample, whatever the draws. -/
theorem sampleOrDraw_bytes (draw : Nat → Word) (e : Sample) :
    sampleOrDraw draw ((bytesOfSample e).map some) = e := by
  have h0 : wordOrDraw (draw 0) ((bytesOfSample e).map some) = e.re.extractLsb' 0 32 := by
    rw [bytesOfSample_eq, List.map_append]; exact wordOrDraw_bytes _ _ _
  have h1 : wordOrDraw (draw 1) (((bytesOfSample e).map some).drop 4) =
      e.re.extractLsb' 32 32 := by
    exact wordOrDraw_bytes (draw 1) (e.re.extractLsb' 32 32)
      ((bytesOfWord (e.im.extractLsb' 0 32) ++ bytesOfWord (e.im.extractLsb' 32 32)).map some)
  have h2 : wordOrDraw (draw 2) (((bytesOfSample e).map some).drop 8) =
      e.im.extractLsb' 0 32 := by
    exact wordOrDraw_bytes (draw 2) (e.im.extractLsb' 0 32)
      ((bytesOfWord (e.im.extractLsb' 32 32)).map some)
  have h3 : wordOrDraw (draw 3) (((bytesOfSample e).map some).drop 12) =
      e.im.extractLsb' 32 32 := by
    exact wordOrDraw_bytes (draw 3) (e.im.extractLsb' 32 32) []
  simp only [sampleOrDraw, h0, h1, h2, h3, componentOf_extract]

end Sys2Proof.Machine
end

