-- ==== Sys2Proof/Laws/State.lean ====
section
/-! SUPPORT. One lemma per field per update of the state, true by definition, and the fields that a
status update leaves alone. -/

namespace Sys2Proof.Machine

variable (s : State)

/-! ### writeWord -/

@[simp] theorem writeWord_build (off : Nat) (v : Word) : (s.writeWord off v).build = s.build := rfl
@[simp] theorem writeWord_arg (off : Nat) (v : Word) : (s.writeWord off v).arg = s.arg := rfl
@[simp] theorem writeWord_status (off : Nat) (v : Word) :
    (s.writeWord off v).status = s.status := rfl
@[simp] theorem writeWord_n (off : Nat) (v : Word) : (s.writeWord off v).n = s.n := rfl
@[simp] theorem writeWord_d (off : Nat) (v : Word) : (s.writeWord off v).d = s.d := rfl
@[simp] theorem writeWord_cfg (off : Nat) (v : Word) : (s.writeWord off v).cfg = s.cfg := rfl
@[simp] theorem writeWord_irqEn (off : Nat) (v : Word) : (s.writeWord off v).irqEn = s.irqEn := rfl
@[simp] theorem writeWord_seq (off : Nat) (v : Word) : (s.writeWord off v).seq = s.seq := rfl
@[simp] theorem writeWord_mem (off : Nat) (v : Word) :
    (s.writeWord off v).mem = Memory.writeBlock s.mem off ((bytesOfWord v).map some) := rfl
@[simp] theorem writeWord_inputs (off : Nat) (v : Word) :
    (s.writeWord off v).inputs = s.inputs := rfl
@[simp] theorem writeWord_again (off : Nat) (v : Word) : (s.writeWord off v).again = s.again := rfl
@[simp] theorem writeWord_resp (off : Nat) (v : Word) : (s.writeWord off v).resp = s.resp := rfl
@[simp] theorem writeWord_draws (off : Nat) (v : Word) : (s.writeWord off v).draws = s.draws := rfl

/-! ### writeEntry -/

@[simp] theorem writeEntry_build (b i : Nat) (y : Sample) :
    (s.writeEntry b i y).build = s.build := rfl
@[simp] theorem writeEntry_arg (b i : Nat) (y : Sample) : (s.writeEntry b i y).arg = s.arg := rfl
@[simp] theorem writeEntry_status (b i : Nat) (y : Sample) :
    (s.writeEntry b i y).status = s.status := rfl
@[simp] theorem writeEntry_n (b i : Nat) (y : Sample) : (s.writeEntry b i y).n = s.n := rfl
@[simp] theorem writeEntry_d (b i : Nat) (y : Sample) : (s.writeEntry b i y).d = s.d := rfl
@[simp] theorem writeEntry_cfg (b i : Nat) (y : Sample) : (s.writeEntry b i y).cfg = s.cfg := rfl
@[simp] theorem writeEntry_irqEn (b i : Nat) (y : Sample) :
    (s.writeEntry b i y).irqEn = s.irqEn := rfl
@[simp] theorem writeEntry_seq (b i : Nat) (y : Sample) : (s.writeEntry b i y).seq = s.seq := rfl
@[simp] theorem writeEntry_mem (b i : Nat) (y : Sample) :
    (s.writeEntry b i y).mem = Memory.writeBlock s.mem (bankOffset b i) ((bytesOfSample y).map some) := rfl
@[simp] theorem writeEntry_inputs (b i : Nat) (y : Sample) :
    (s.writeEntry b i y).inputs = s.inputs := rfl
@[simp] theorem writeEntry_again (b i : Nat) (y : Sample) :
    (s.writeEntry b i y).again = s.again := rfl
@[simp] theorem writeEntry_resp (b i : Nat) (y : Sample) : (s.writeEntry b i y).resp = s.resp := rfl
@[simp] theorem writeEntry_draws (b i : Nat) (y : Sample) :
    (s.writeEntry b i y).draws = s.draws := rfl

/-! ### copyPhase -/

@[simp] theorem copyPhase_build : (copyPhase s).build = s.build := rfl
@[simp] theorem copyPhase_arg : (copyPhase s).arg = s.arg := rfl
@[simp] theorem copyPhase_status : (copyPhase s).status = s.status := rfl
@[simp] theorem copyPhase_n : (copyPhase s).n = s.n := rfl
@[simp] theorem copyPhase_d : (copyPhase s).d = s.d := rfl
@[simp] theorem copyPhase_cfg : (copyPhase s).cfg = s.cfg := rfl
@[simp] theorem copyPhase_irqEn : (copyPhase s).irqEn = s.irqEn := rfl
@[simp] theorem copyPhase_seq : (copyPhase s).seq = s.seq := rfl
@[simp] theorem copyPhase_inputs : (copyPhase s).inputs = s.inputs := rfl
@[simp] theorem copyPhase_again : (copyPhase s).again = s.again := rfl
@[simp] theorem copyPhase_resp : (copyPhase s).resp = s.resp := rfl
@[simp] theorem copyPhase_draws : (copyPhase s).draws = s.draws := rfl

/-! ### bfly -/

@[simp] theorem bfly_build (p j : Nat) : (bfly p s j).build = s.build := rfl
@[simp] theorem bfly_arg (p j : Nat) : (bfly p s j).arg = s.arg := rfl
@[simp] theorem bfly_status (p j : Nat) : (bfly p s j).status = s.status := rfl
@[simp] theorem bfly_n (p j : Nat) : (bfly p s j).n = s.n := rfl
@[simp] theorem bfly_d (p j : Nat) : (bfly p s j).d = s.d := rfl
@[simp] theorem bfly_cfg (p j : Nat) : (bfly p s j).cfg = s.cfg := rfl
@[simp] theorem bfly_irqEn (p j : Nat) : (bfly p s j).irqEn = s.irqEn := rfl
@[simp] theorem bfly_seq (p j : Nat) : (bfly p s j).seq = s.seq := rfl
@[simp] theorem bfly_inputs (p j : Nat) : (bfly p s j).inputs = s.inputs := rfl
@[simp] theorem bfly_again (p j : Nat) : (bfly p s j).again = s.again := rfl
@[simp] theorem bfly_resp (p j : Nat) : (bfly p s j).resp = s.resp := rfl
@[simp] theorem bfly_draws (p j : Nat) : (bfly p s j).draws = s.draws := rfl

/-! ### scaleEntry -/

@[simp] theorem scaleEntry_build (i : Nat) : (scaleEntry s i).build = s.build := rfl
@[simp] theorem scaleEntry_arg (i : Nat) : (scaleEntry s i).arg = s.arg := rfl
@[simp] theorem scaleEntry_status (i : Nat) : (scaleEntry s i).status = s.status := rfl
@[simp] theorem scaleEntry_n (i : Nat) : (scaleEntry s i).n = s.n := rfl
@[simp] theorem scaleEntry_d (i : Nat) : (scaleEntry s i).d = s.d := rfl
@[simp] theorem scaleEntry_cfg (i : Nat) : (scaleEntry s i).cfg = s.cfg := rfl
@[simp] theorem scaleEntry_irqEn (i : Nat) : (scaleEntry s i).irqEn = s.irqEn := rfl
@[simp] theorem scaleEntry_seq (i : Nat) : (scaleEntry s i).seq = s.seq := rfl
@[simp] theorem scaleEntry_inputs (i : Nat) : (scaleEntry s i).inputs = s.inputs := rfl
@[simp] theorem scaleEntry_again (i : Nat) : (scaleEntry s i).again = s.again := rfl
@[simp] theorem scaleEntry_resp (i : Nat) : (scaleEntry s i).resp = s.resp := rfl
@[simp] theorem scaleEntry_draws (i : Nat) : (scaleEntry s i).draws = s.draws := rfl

/-! ### cmdError -/

@[simp] theorem cmdError_build (e : ErrCode) : (cmdError e s).build = s.build := rfl
@[simp] theorem cmdError_arg (e : ErrCode) : (cmdError e s).arg = s.arg := rfl
@[simp] theorem cmdError_n (e : ErrCode) : (cmdError e s).n = s.n := rfl
@[simp] theorem cmdError_d (e : ErrCode) : (cmdError e s).d = s.d := rfl
@[simp] theorem cmdError_cfg (e : ErrCode) : (cmdError e s).cfg = s.cfg := rfl
@[simp] theorem cmdError_irqEn (e : ErrCode) : (cmdError e s).irqEn = s.irqEn := rfl
@[simp] theorem cmdError_seq (e : ErrCode) : (cmdError e s).seq = s.seq := rfl
@[simp] theorem cmdError_mem (e : ErrCode) : (cmdError e s).mem = s.mem := rfl
@[simp] theorem cmdError_inputs (e : ErrCode) : (cmdError e s).inputs = s.inputs := rfl
@[simp] theorem cmdError_again (e : ErrCode) : (cmdError e s).again = s.again := rfl
@[simp] theorem cmdError_resp (e : ErrCode) : (cmdError e s).resp = s.resp := rfl
@[simp] theorem cmdError_draws (e : ErrCode) : (cmdError e s).draws = s.draws := rfl

/-! ### busError -/

@[simp] theorem busError_build (x : Option Word) : (busError x s).build = s.build := rfl
@[simp] theorem busError_arg (x : Option Word) : (busError x s).arg = s.arg := rfl
@[simp] theorem busError_status (x : Option Word) :
    (busError x s).status = { s.status with accerr := true } := rfl
@[simp] theorem busError_n (x : Option Word) : (busError x s).n = s.n := rfl
@[simp] theorem busError_d (x : Option Word) : (busError x s).d = s.d := rfl
@[simp] theorem busError_cfg (x : Option Word) : (busError x s).cfg = s.cfg := rfl
@[simp] theorem busError_irqEn (x : Option Word) : (busError x s).irqEn = s.irqEn := rfl
@[simp] theorem busError_seq (x : Option Word) : (busError x s).seq = s.seq := rfl
@[simp] theorem busError_mem (x : Option Word) : (busError x s).mem = s.mem := rfl
@[simp] theorem busError_inputs (x : Option Word) : (busError x s).inputs = s.inputs := rfl
@[simp] theorem busError_again (x : Option Word) : (busError x s).again = s.again := rfl
@[simp] theorem busError_resp (x : Option Word) : (busError x s).resp = some (.error x) := rfl
@[simp] theorem busError_draws (x : Option Word) : (busError x s).draws = s.draws := rfl

/-! ### acknowledge -/

@[simp] theorem acknowledge_build (v : Word) : (acknowledge v s).build = s.build := rfl
@[simp] theorem acknowledge_arg (v : Word) : (acknowledge v s).arg = s.arg := rfl
@[simp] theorem acknowledge_n (v : Word) : (acknowledge v s).n = s.n := rfl
@[simp] theorem acknowledge_d (v : Word) : (acknowledge v s).d = s.d := rfl
@[simp] theorem acknowledge_cfg (v : Word) : (acknowledge v s).cfg = s.cfg := rfl
@[simp] theorem acknowledge_irqEn (v : Word) : (acknowledge v s).irqEn = s.irqEn := rfl
@[simp] theorem acknowledge_seq (v : Word) : (acknowledge v s).seq = s.seq := rfl
@[simp] theorem acknowledge_mem (v : Word) : (acknowledge v s).mem = s.mem := rfl
@[simp] theorem acknowledge_inputs (v : Word) : (acknowledge v s).inputs = s.inputs := rfl
@[simp] theorem acknowledge_again (v : Word) : (acknowledge v s).again = s.again := rfl
@[simp] theorem acknowledge_resp (v : Word) : (acknowledge v s).resp = s.resp := rfl
@[simp] theorem acknowledge_draws (v : Word) : (acknowledge v s).draws = s.draws := rfl

/-! ### configured -/

@[simp] theorem configured_build (c : Cfg) : (s.configured c).build = s.build := rfl
@[simp] theorem configured_arg (c : Cfg) : (s.configured c).arg = s.arg := rfl
@[simp] theorem configured_status (c : Cfg) :
    (s.configured c).status = { s.status with cfgValid := true } := rfl
@[simp] theorem configured_n (c : Cfg) : (s.configured c).n = s.argInt.toNat := rfl
@[simp] theorem configured_d (c : Cfg) : (s.configured c).d = Nat.log2 s.argInt.toNat := rfl
@[simp] theorem configured_cfg (c : Cfg) : (s.configured c).cfg = c := rfl
@[simp] theorem configured_irqEn (c : Cfg) : (s.configured c).irqEn = s.irqEn := rfl
@[simp] theorem configured_seq (c : Cfg) : (s.configured c).seq = s.seq := rfl
@[simp] theorem configured_mem (c : Cfg) : (s.configured c).mem = s.mem := rfl
@[simp] theorem configured_inputs (c : Cfg) : (s.configured c).inputs = s.inputs := rfl
@[simp] theorem configured_again (c : Cfg) : (s.configured c).again = s.again := rfl
@[simp] theorem configured_resp (c : Cfg) : (s.configured c).resp = s.resp := rfl
@[simp] theorem configured_draws (c : Cfg) : (s.configured c).draws = s.draws := rfl

/-! ### unconfigured -/

@[simp] theorem unconfigured_build : (s.unconfigured).build = s.build := rfl
@[simp] theorem unconfigured_arg : (s.unconfigured).arg = s.arg := rfl
@[simp] theorem unconfigured_status :
    (s.unconfigured).status = { s.status with cfgValid := false } := rfl
@[simp] theorem unconfigured_n : (s.unconfigured).n = 0 := rfl
@[simp] theorem unconfigured_d : (s.unconfigured).d = 0 := rfl
@[simp] theorem unconfigured_cfg : (s.unconfigured).cfg = s.cfg := rfl
@[simp] theorem unconfigured_irqEn : (s.unconfigured).irqEn = s.irqEn := rfl
@[simp] theorem unconfigured_seq : (s.unconfigured).seq = s.seq := rfl
@[simp] theorem unconfigured_mem : (s.unconfigured).mem = s.mem := rfl
@[simp] theorem unconfigured_inputs : (s.unconfigured).inputs = s.inputs := rfl
@[simp] theorem unconfigured_again : (s.unconfigured).again = s.again := rfl
@[simp] theorem unconfigured_resp : (s.unconfigured).resp = s.resp := rfl
@[simp] theorem unconfigured_draws : (s.unconfigured).draws = s.draws := rfl

/-! ### complete -/

@[simp] theorem complete_build : (complete s).build = s.build := rfl
@[simp] theorem complete_arg : (complete s).arg = s.arg := rfl
@[simp] theorem complete_status :
    (complete s).status = { s.status with busy := false, done := true } := rfl
@[simp] theorem complete_n : (complete s).n = s.n := rfl
@[simp] theorem complete_d : (complete s).d = s.d := rfl
@[simp] theorem complete_cfg : (complete s).cfg = s.cfg := rfl
@[simp] theorem complete_irqEn : (complete s).irqEn = s.irqEn := rfl
@[simp] theorem complete_seq : (complete s).seq = .idle := rfl
@[simp] theorem complete_mem : (complete s).mem = s.mem := rfl
@[simp] theorem complete_inputs : (complete s).inputs = s.inputs := rfl
@[simp] theorem complete_again : (complete s).again = s.again := rfl
@[simp] theorem complete_resp : (complete s).resp = s.resp := rfl
@[simp] theorem complete_draws : (complete s).draws = s.draws := rfl

/-! ### advanced -/

@[simp] theorem advanced_build (rest : List Input) : (s.advanced rest).build = s.build := rfl
@[simp] theorem advanced_arg (rest : List Input) : (s.advanced rest).arg = s.arg := rfl
@[simp] theorem advanced_status (rest : List Input) : (s.advanced rest).status = s.status := rfl
@[simp] theorem advanced_n (rest : List Input) : (s.advanced rest).n = s.n := rfl
@[simp] theorem advanced_d (rest : List Input) : (s.advanced rest).d = s.d := rfl
@[simp] theorem advanced_cfg (rest : List Input) : (s.advanced rest).cfg = s.cfg := rfl
@[simp] theorem advanced_irqEn (rest : List Input) : (s.advanced rest).irqEn = s.irqEn := rfl
@[simp] theorem advanced_seq (rest : List Input) : (s.advanced rest).seq = s.seq := rfl
@[simp] theorem advanced_mem (rest : List Input) : (s.advanced rest).mem = s.mem := rfl
@[simp] theorem advanced_inputs (rest : List Input) : (s.advanced rest).inputs = rest := rfl
@[simp] theorem advanced_again (rest : List Input) : (s.advanced rest).again = s.again := rfl
@[simp] theorem advanced_resp (rest : List Input) : (s.advanced rest).resp = s.resp := rfl
@[simp] theorem advanced_draws (rest : List Input) : (s.advanced rest).draws = s.draws + 1 := rfl

/-! ### resetEvent -/

@[simp] theorem resetEvent_build (b : Bool) : (resetEvent b s).build = s.build := rfl
@[simp] theorem resetEvent_arg (b : Bool) : (resetEvent b s).arg = 0 := rfl
@[simp] theorem resetEvent_status (b : Bool) : (resetEvent b s).status = .reset := rfl
@[simp] theorem resetEvent_n (b : Bool) : (resetEvent b s).n = 0 := rfl
@[simp] theorem resetEvent_d (b : Bool) : (resetEvent b s).d = 0 := rfl
@[simp] theorem resetEvent_cfg (b : Bool) : (resetEvent b s).cfg = .reset := rfl
@[simp] theorem resetEvent_irqEn (b : Bool) : (resetEvent b s).irqEn = .reset := rfl
@[simp] theorem resetEvent_seq (b : Bool) : (resetEvent b s).seq = .idle := rfl
@[simp] theorem resetEvent_mem (b : Bool) : (resetEvent b s).mem = s.memAfterReset b := rfl
@[simp] theorem resetEvent_inputs (b : Bool) : (resetEvent b s).inputs = s.inputs := rfl
@[simp] theorem resetEvent_again (b : Bool) : (resetEvent b s).again = s.again := rfl
@[simp] theorem resetEvent_resp (b : Bool) : (resetEvent b s).resp = none := rfl
@[simp] theorem resetEvent_draws (b : Bool) : (resetEvent b s).draws = s.draws := rfl

/-! ### Status fields of the error events -/

@[simp] theorem cmdError_status_busy (e : ErrCode) :
    (cmdError e s).status.busy = s.status.busy := rfl
@[simp] theorem cmdError_status_done (e : ErrCode) :
    (cmdError e s).status.done = s.status.done := rfl
@[simp] theorem cmdError_status_err (e : ErrCode) :
    (cmdError e s).status.err = true := rfl
@[simp] theorem cmdError_status_accerr (e : ErrCode) :
    (cmdError e s).status.accerr = s.status.accerr := rfl
@[simp] theorem cmdError_status_cfgValid (e : ErrCode) :
    (cmdError e s).status.cfgValid = s.status.cfgValid := rfl
@[simp] theorem cmdError_status_dir (e : ErrCode) :
    (cmdError e s).status.dir = s.status.dir := rfl
@[simp] theorem cmdError_status_errcode (e : ErrCode) :
    (cmdError e s).status.errcode = if s.status.err then s.status.errcode else e := rfl

@[simp] theorem acknowledge_status_busy (v : Word) :
    (acknowledge v s).status.busy = s.status.busy := rfl
@[simp] theorem acknowledge_status_done (v : Word) :
    (acknowledge v s).status.done = if v.getLsbD 1 then false else s.status.done := rfl
@[simp] theorem acknowledge_status_err (v : Word) :
    (acknowledge v s).status.err = if v.getLsbD 2 then false else s.status.err := rfl
@[simp] theorem acknowledge_status_accerr (v : Word) :
    (acknowledge v s).status.accerr = if v.getLsbD 3 then false else s.status.accerr := rfl
@[simp] theorem acknowledge_status_cfgValid (v : Word) :
    (acknowledge v s).status.cfgValid = s.status.cfgValid := rfl
@[simp] theorem acknowledge_status_dir (v : Word) :
    (acknowledge v s).status.dir = s.status.dir := rfl
@[simp] theorem acknowledge_status_errcode (v : Word) :
    (acknowledge v s).status.errcode = if v.getLsbD 2 then .none else s.status.errcode := rfl

end Sys2Proof.Machine
end

