-- ==== Sys2Proof/Laws/Sequencer.lean ====
section
/-! SUPPORT. What a phase can do: it changes bank memory only, and inside the destination bank's
first N entries only. -/

namespace Sys2Proof.Machine

/-- The state with another bank memory. -/
def State.withMem (s : State) (m : Memory) : State := { s with mem := m }

@[simp] theorem withMem_mem (s : State) (m : Memory) : (s.withMem m).mem = m := rfl

@[simp] theorem withMem_withMem (s : State) (m m' : Memory) :
    (s.withMem m).withMem m' = s.withMem m' := rfl

@[simp] theorem withMem_self (s : State) : s.withMem s.mem = s := rfl

theorem bfly_eq_withMem (p : Nat) (s : State) (j : Nat) : bfly p s j = s.withMem (bfly p s j).mem :=
  rfl

theorem scaleEntry_eq_withMem (s : State) (i : Nat) :
    scaleEntry s i = s.withMem (scaleEntry s i).mem := rfl

/-- Any fold of memory-only updates is a memory-only update. -/
theorem foldl_eq_withMem {f : State → Nat → State}
    (hf : ∀ s j, f s j = s.withMem (f s j).mem) (l : List Nat) (s : State) :
    l.foldl f s = s.withMem (l.foldl f s).mem := by
  induction l generalizing s with
  | nil => rfl
  | cons j l ih =>
    rw [List.foldl_cons, ih, hf s j]
    rfl

theorem stageInOrder_eq_withMem (p : Nat) (l : List Nat) (s : State) :
    stageInOrder p l s = s.withMem (stageInOrder p l s).mem :=
  foldl_eq_withMem (bfly_eq_withMem p) l s

theorem scalePhase_eq_withMem (s : State) : scalePhase s = s.withMem (scalePhase s).mem :=
  foldl_eq_withMem scaleEntry_eq_withMem _ s

/-- The work of a phase changes the banks and nothing else. -/
theorem runPhase_eq_withMem (s : State) : runPhase s = s.withMem (runPhase s).mem := by
  unfold runPhase
  split
  · rfl
  · rfl
  · exact stageInOrder_eq_withMem _ _ s
  · exact scalePhase_eq_withMem s

/-! ## Banks do not overlap -/

theorem bankOffset_add (b i : Nat) : bankOffset b i = bankOffset b 0 + 16 * i := by
  simp only [bankOffset]; omega

/-- Entries of different banks are disjoint while their indices are below 2^16. -/
theorem bankOffset_disjoint {b b' i j : Nat} (hb : b ≠ b') (hi : i < 2 ^ 16) (hj : j < 2 ^ 16) :
    bankOffset b i + 16 ≤ bankOffset b' j ∨ bankOffset b' j + 16 ≤ bankOffset b i := by
  simp only [bankOffset]
  rcases Nat.lt_or_gt_of_ne hb with h | h
  · left; omega
  · right; omega

theorem srcBank_ne_dstBank (d p : Nat) : srcBank d p ≠ dstBank d p := by
  unfold srcBank dstBank; omega

/-! ## One output -/

/-- An output's value depends on the banks only through the bytes of its two source entries. -/
theorem bflyValue_withMem {s : State} {m : Memory} {p j : Nat}
    (he : Memory.readBlock m (bankOffset (srcBank s.d p) (indexGen s.d p j).ie) 16 =
      Memory.readBlock s.mem (bankOffset (srcBank s.d p) (indexGen s.d p j).ie) 16)
    (ho : Memory.readBlock m (bankOffset (srcBank s.d p) (indexGen s.d p j).io) 16 =
      Memory.readBlock s.mem (bankOffset (srcBank s.d p) (indexGen s.d p j).io) 16) :
    (s.withMem m).bflyValue p j = s.bflyValue p j := by
  unfold State.bflyValue State.readEntry
  simp only [State.withMem] at *
  rw [he, ho]
  rfl

/-- Writing an entry of the destination bank changes no output of the stage. -/
theorem bflyValue_after_write {s : State} {p i j : Nat} {y : Sample} (h1 : 1 ≤ p) (h2 : p ≤ s.d)
    (hd : s.d ≤ 16) (hi : i < 2 ^ s.d) (hj : j < 2 ^ s.d) :
    (s.writeEntry (dstBank s.d p) i y).bflyValue p j = s.bflyValue p j := by
  have hN : 2 ^ s.d ≤ 2 ^ 16 := Nat.pow_le_pow_right (by omega) hd
  have hio := indexGen_io_lt h1 h2 hj
  have hie := indexGen_ie_lt h1 h2 hj
  have key : ∀ k, k < 2 ^ s.d →
      Memory.readBlock (s.writeEntry (dstBank s.d p) i y).mem (bankOffset (srcBank s.d p) k) 16 =
        Memory.readBlock s.mem (bankOffset (srcBank s.d p) k) 16 := by
    intro k hk
    rw [writeEntry_mem, Memory.readBlock_writeBlock_disjoint]
    have := bankOffset_disjoint (srcBank_ne_dstBank s.d p) (i := k) (j := i) (by omega) (by omega)
    simpa using this
  exact bflyValue_withMem (s := s) (m := (s.writeEntry (dstBank s.d p) i y).mem)
    (key _ hie) (key _ hio)

/-- The byte of an entry at an offset inside it. -/
def sampleByte (y : Sample) (k : Nat) : Option Byte := ((bytesOfSample y).map some).getD k none

theorem get_writeEntry (s : State) (b i c : Nat) (y : Sample) :
    Memory.get (s.writeEntry b i y).mem c =
      if bankOffset b i ≤ c ∧ c < bankOffset b i + 16 then sampleByte y (c - bankOffset b i)
      else Memory.get s.mem c := by
  rw [writeEntry_mem, Memory.get_writeBlock]
  simp [sampleByte]

/-- What the outputs computed in any order leave at an offset: the byte of the output's value if
the output was computed, the old byte otherwise. -/
theorem get_stageInOrder {s : State} {p : Nat} (h1 : 1 ≤ p) (h2 : p ≤ s.d) (hd : s.d ≤ 16)
    (l : List Nat) (hl : ∀ j ∈ l, j < 2 ^ s.d) (c : Nat) :
    Memory.get (stageInOrder p l s).mem c =
      if bankOffset (dstBank s.d p) 0 ≤ c ∧ (c - bankOffset (dstBank s.d p) 0) / 16 ∈ l then
        sampleByte (s.bflyValue p ((c - bankOffset (dstBank s.d p) 0) / 16))
          ((c - bankOffset (dstBank s.d p) 0) % 16)
      else Memory.get s.mem c := by
  induction l generalizing s with
  | nil => simp [stageInOrder]
  | cons j l ih =>
    have hj : j < 2 ^ s.d := hl j (by simp)
    have hstep : stageInOrder p (j :: l) s = stageInOrder p l (bfly p s j) := rfl
    have hd' : (bfly p s j).d = s.d := rfl
    rw [hstep, ih (s := bfly p s j) h2 hd fun i hi => hl i (by simp [hi]), hd']
    have hval : ∀ i, i < 2 ^ s.d → (bfly p s j).bflyValue p i = s.bflyValue p i :=
      fun i hi => bflyValue_after_write h1 h2 hd hj hi
    have hget : Memory.get (bfly p s j).mem c = _ := get_writeEntry s (dstBank s.d p) j c _
    have hoff := bankOffset_add (dstBank s.d p) j
    by_cases hc : bankOffset (dstBank s.d p) 0 ≤ c
    · by_cases hm : (c - bankOffset (dstBank s.d p) 0) / 16 ∈ l
      · rw [if_pos ⟨hc, hm⟩, if_pos ⟨hc, by simp [hm]⟩, hval _ (hl _ (by simp [hm]))]
      · rw [if_neg (by simp [hm]), hget]
        by_cases hjc : (c - bankOffset (dstBank s.d p) 0) / 16 = j
        · rw [if_pos (by omega), if_pos ⟨hc, by simp [hjc]⟩, hjc]
          congr 1
          omega
        · rw [if_neg (by omega), if_neg (by simp [hm, hjc])]
    · rw [if_neg (by simp [hc]), if_neg (by simp [hc]), hget, if_neg (by omega)]

/-- Writing entries keeps the canonical form. -/
theorem wf_stageInOrder {s : State} (hs : Memory.wf s.mem) (p : Nat) (l : List Nat) :
    Memory.wf (stageInOrder p l s).mem := by
  induction l generalizing s with
  | nil => exact hs
  | cons j l ih => exact ih (s := bfly p s j) (Memory.wf_writeBlock hs _ _)

theorem wf_scaleFold {s : State} (hs : Memory.wf s.mem) (l : List Nat) :
    Memory.wf (l.foldl scaleEntry s).mem := by
  induction l generalizing s with
  | nil => exact hs
  | cons j l ih => exact ih (s := scaleEntry s j) (Memory.wf_writeBlock hs _ _)

/-- Every phase keeps the canonical form of the memory. -/
theorem wf_runPhase {s : State} (hs : Memory.wf s.mem) : Memory.wf (runPhase s).mem := by
  unfold runPhase
  split
  · exact hs
  · exact Memory.wf_writeBlock hs _ _
  · exact wf_stageInOrder hs _ _
  · exact wf_scaleFold hs _

/-! ## The transitions -/

theorem phaseList_eq (d : Nat) (dir : Bool) :
    phaseList d dir = (if d % 2 = 1 then [⟨.copy, 0⟩] else [])
      ++ (List.range' 1 d).map (fun p => ⟨.bfly, p⟩) ++ (if dir then [⟨.scale, 0⟩] else []) := rfl

/-- `first(d, dir)` written out. -/
theorem firstPhase_eq (d : Nat) (dir : Bool) :
    firstPhase d dir =
      if d % 2 = 1 then ⟨.copy, 0⟩ else if 1 ≤ d then ⟨.bfly, 1⟩
      else if dir then ⟨.scale, 0⟩ else .idle := by
  unfold firstPhase phaseList
  by_cases h : d % 2 = 1
  · simp [h]
  · cases d with
    | zero => cases dir <;> simp
    | succ d => simp [h, List.range'_succ]

/-- One Engine step: idle, or one phase and then completion or the next phase. -/
theorem engineStep_cases (s : State) :
    (s.seq.phase = .idle ∧ engineStep s = s) ∨
    (s.seq.phase ≠ .idle ∧ (nextSeq s.d s.status.dir s.seq).phase = .idle ∧
      engineStep s = complete (runPhase s)) ∨
    (s.seq.phase ≠ .idle ∧ (nextSeq s.d s.status.dir s.seq).phase ≠ .idle ∧
      engineStep s = { runPhase s with seq := nextSeq s.d s.status.dir s.seq }) := by
  have h := runPhase_eq_withMem s
  by_cases hi : s.seq.phase = .idle
  · left; exact ⟨hi, by simp [engineStep, hi]⟩
  · right
    have e1 : (runPhase s).d = s.d := by rw [h]; rfl
    have e2 : (runPhase s).status = s.status := by rw [h]; rfl
    have e3 : (runPhase s).seq = s.seq := by rw [h]; rfl
    by_cases hn : (nextSeq s.d s.status.dir s.seq).phase = .idle
    · left; exact ⟨hi, hn, by simp [engineStep, hi, advance, e1, e2, e3, hn]⟩
    · right; exact ⟨hi, hn, by simp [engineStep, hi, advance, e1, e2, e3, hn]⟩

end Sys2Proof.Machine
end

