-- ==== Sys2Proof/Laws/Bus.lean ====
section
/-! SUPPORT. What a command, an input and a step can do. -/

namespace Sys2Proof.Machine

/-- The table's word decodes as the word it is: the byte order of the bus goes both ways. -/
theorem decodeTableWord_eq (nbits w : Nat) :
    decodeTableWord nbits w = (decodeWord (tableWord nbits w)).toOption := by
  have h : ∀ x : Word, decodeBytes (bytesOfWord x) = (decodeWord x).map fun i => (i, []) := by
    intro x
    simp only [bytesOfWord, decodeBytes, wordOfBytes_byteLane]
    cases decodeWord x <;> rfl
  unfold decodeTableWord
  rw [h]
  cases decodeWord (tableWord nbits w) <;> rfl

/-- A command always answers a next state. -/
theorem exec_next (i : Instr) (s : State) : ∃ t, exec i s = .next t := by
  cases i with
  | nop => exact ⟨s, rfl⟩
  | config vec fma par =>
    show ∃ t, execConfig vec fma par s = .next t
    unfold execConfig
    split
    · exact ⟨_, rfl⟩
    · split <;> exact ⟨_, rfl⟩
  | dft => exact ⟨_, rfl⟩
  | idft => exact ⟨_, rfl⟩

/-- A transform command: rejected by one of three codes, or accepted. -/
theorem transform_cases (dir : Bool) (s : State) :
    (∃ e, e ≠ .none ∧ transform dir s = cmdError e s) ∨
      (s.status.busy = false ∧ s.status.cfgValid = true ∧ s.lengthMatches = true ∧
        transform dir s = accept dir s) := by
  unfold transform
  split
  · left; exact ⟨.busy, by decide, rfl⟩
  · split
    · left; exact ⟨.notConfigured, by decide, rfl⟩
    · split
      · left; exact ⟨.sizeMismatch, by decide, rfl⟩
      · right; simp_all

/-- What a command can do: nothing, record a rejection, configure, lose the configuration with a
rejection, or accept a transform. -/
theorem exec_cases {i : Instr} {s t : State} (h : exec i s = .next t) :
    t = s ∨ (∃ e, e ≠ .none ∧ t = cmdError e s) ∨
      (∃ vec fma par, i = .config vec fma par ∧ s.status.busy = false ∧
        validSize s.build.dmax s.argInt = true ∧
        t = s.configured (cfgOf s.build vec fma par)) ∨
      ((∃ vec fma par, i = .config vec fma par) ∧ s.status.busy = false ∧
        t = cmdError .invalidSize s.unconfigured) ∨
      (∃ dir, i = (if dir then .idft else .dft) ∧ s.status.busy = false ∧
        s.status.cfgValid = true ∧ s.lengthMatches = true ∧ t = accept dir s) := by
  cases i with
  | nop => left; simpa [exec, execNop] using h.symm
  | config vec fma par =>
    replace h : execConfig vec fma par s = .next t := h
    unfold execConfig at h
    split at h
    · right; left; exact ⟨.busy, by decide, by simpa using h.symm⟩
    · split at h
      · right; right; left
        exact ⟨vec, fma, par, rfl, by simp_all, ‹_›, by simpa using h.symm⟩
      · right; right; right; left
        exact ⟨⟨vec, fma, par, rfl⟩, by simp_all, by simpa using h.symm⟩
  | dft =>
    have h : transform false s = t := by simpa [exec, execDft] using h
    rcases transform_cases false s with ⟨e, he, h'⟩ | ⟨h1, h2, h3, h4⟩
    · right; left; exact ⟨e, he, by rw [← h, h']⟩
    · right; right; right; right; exact ⟨false, rfl, h1, h2, h3, by rw [← h, h4]⟩
  | idft =>
    have h : transform true s = t := by simpa [exec, execIdft] using h
    rcases transform_cases true s with ⟨e, he, h'⟩ | ⟨h1, h2, h3, h4⟩
    · right; left; exact ⟨e, he, by rw [← h, h']⟩
    · right; right; right; right; exact ⟨true, rfl, h1, h2, h3, by rw [← h, h4]⟩

/-- A command word: the command it encodes, or the ILLEGAL_CMD rejection. -/
theorem execute_cases {w : Word} {s t : State} (h : execute w s = .next t) :
    (∃ i, decodeWord w = .ok i ∧ exec i s = .next t) ∨ t = cmdError .illegalCmd s := by
  unfold execute at h
  split at h
  · left; exact ⟨_, ‹_›, h⟩
  · right; simpa using h.symm

/-- An accepted write: ignored, stored in ARG or IRQ_EN, an acknowledgement, a bank word, or a
command. -/
theorem writeAt_cases {off : Nat} {v : Word} {s t : State} (h : writeAt off v s = .next t) :
    t = s ∨ t = { s with arg := v } ∨ t = { s with irqEn := IrqEn.ofWord v } ∨
      t = acknowledge v s ∨
      (Build.region s.build off = .bank ∧ t = s.writeWord off v) ∨
      execute v s = .next t := by
  unfold writeAt at h
  cases hr : Build.region s.build off with
  | reg r => rw [hr] at h; cases r <;> simp_all [regWrite]
  | bank => rw [hr] at h; simp_all
  | rom => rw [hr] at h; simp_all
  | hole => rw [hr] at h; simp_all

/-- A host write: not claimed, rejected by the bus, or accepted with OKAY. -/
theorem hostWrite_cases {addr n v : Nat} {s t : State} (h : hostWrite addr n v s = .next t) :
    t = { s with resp := some .unclaimed } ∨ t = busError none s ∨
      (Build.claims s.build addr = true ∧ s.accepts addr n true = true ∧
        writeAt (addr - s.build.base) (BitVec.ofNat 32 v) { s with resp := some (.okay none) }
          = .next t) := by
  unfold hostWrite at h
  split at h
  · left; simpa using h.symm
  · split at h
    · right; right; exact ⟨by simp_all, ‹_›, h⟩
    · right; left; simpa using h.symm

/-- A host read: only the response, and ACCERR when it is rejected. -/
theorem hostRead_cases (addr n : Nat) (s : State) :
    (∃ r, hostRead addr n s = { s with resp := some r }) ∨
      hostRead addr n s = busError (some 0) s := by
  unfold hostRead
  split
  · left; exact ⟨_, rfl⟩
  · split
    · left; exact ⟨_, rfl⟩
    · right; rfl

/-- Every input answers a next state. -/
theorem execute_next (w : Word) (s : State) : ∃ t, execute w s = .next t := by
  unfold execute
  split
  · exact exec_next _ s
  · exact ⟨_, rfl⟩

theorem writeAt_next (off : Nat) (v : Word) (s : State) : ∃ t, writeAt off v s = .next t := by
  unfold writeAt
  split
  · unfold regWrite
    split <;> first | exact execute_next _ _ | exact ⟨_, rfl⟩
  all_goals exact ⟨_, rfl⟩

theorem runInput_next (i : Input) (s : State) : ∃ t, runInput i s = .next t := by
  cases i with
  | read addr n => exact ⟨_, rfl⟩
  | write addr n v =>
    show ∃ t, hostWrite addr n v s = .next t
    unfold hostWrite
    split
    · exact ⟨_, rfl⟩
    · split
      · exact writeAt_next _ _ _
      · exact ⟨_, rfl⟩
  | engine => exact ⟨_, rfl⟩
  | reset b => exact ⟨_, rfl⟩

/-- The inputs left after a step: the tail, or the Host's repetition when none was left. -/
def State.later (s : State) : List Input := if s.inputs = [] then s.again else s.inputs.tail

@[simp] theorem later_nil {s : State} (h : s.inputs = []) : s.later = s.again := if_pos h

@[simp] theorem later_cons {s : State} {i : Input} {rest : List Input} (h : s.inputs = i :: rest) :
    s.later = rest := by simp [State.later, h]

/-- A step runs the next input, or the Engine when none is left, on the state with that input
taken and the step counted. -/
theorem step_eq (s : State) :
    step s = runInput (s.inputs.headD .engine) (s.advanced s.later) := by
  unfold step stepInputs State.later
  cases s.inputs <;> rfl

/-- A step whose input is at hand. -/
theorem step_cons {s : State} {i : Input} {rest : List Input} (h : s.inputs = i :: rest) :
    step s = runInput i (s.advanced rest) := by rw [step_eq, later_cons h, h]; rfl

/-- A step with no input left: the Engine's turn, and the Host's repetition comes again. -/
theorem step_nil {s : State} (h : s.inputs = []) :
    step s = .next (engineStep (s.advanced s.again)) := by rw [step_eq, later_nil h, h]; rfl

/-- A step on the Engine's turn. -/
theorem step_engine {s : State} {rest : List Input} (h : s.inputs = .engine :: rest) :
    step s = .next (engineStep (s.advanced rest)) := step_cons h

/-- A run of one step more. -/
theorem run_succ {s t : State} (h : step s = .next t) (k : Nat) :
    Sys2Proof.core.run (k + 1) s = Sys2Proof.core.run k t := by
  have h' : Sys2Proof.core.step s = .next t := h
  simp only [Host.Core.run, h']

/-- A host write to a register: the port answers OKAY and the register's write rule decides. -/
theorem step_write_reg {s : State} {off v : Nat} {rest : List Input} {r : Reg}
    (hb : s.build.base % 0x400000 = 0) (hr : regAt off = some r) (ho : off < 0x400000)
    (h4 : off % 4 = 0) (h : s.inputs = .write (s.build.base + off) 4 v :: rest) :
    step s = regWrite r (BitVec.ofNat 32 v) { s with
      inputs := rest, draws := s.draws + 1, resp := some (.okay none) } := by
  rw [step_cons h]
  show hostWrite _ _ _ _ = _
  have hreg : Build.region s.build off = .reg r := by simp [Build.region, hr]
  have hcl : Build.claims s.build (s.build.base + off) = true := by simp [Build.claims]; omega
  have hacc : (s.advanced rest).accepts (s.build.base + off) 4 true = true := by
    simp [State.accepts, State.regionAccepts, hreg]; omega
  simp only [hostWrite, advanced_build, hcl, hacc, Bool.not_true, if_true,
    Nat.add_sub_cancel_left]
  simp only [Bool.false_eq_true, if_false, writeAt]
  simp only [hreg]
  rfl

/-- A host read of a register returns its value and changes nothing. -/
theorem step_read_reg {s : State} {off : Nat} {rest : List Input} {r : Reg}
    (hb : s.build.base % 0x400000 = 0) (hr : regAt off = some r) (ho : off < 0x400000)
    (h4 : off % 4 = 0) (h : s.inputs = .read (s.build.base + off) 4 :: rest) :
    step s = .next { s with
      inputs := rest, draws := s.draws + 1, resp := some (.okay (some (s.regRead r))) } := by
  rw [step_cons h]
  show Host.Outcome.next (hostRead _ _ _) = _
  have hreg : Build.region s.build off = .reg r := by simp [Build.region, hr]
  have hcl : Build.claims s.build (s.build.base + off) = true := by simp [Build.claims]; omega
  have hacc : (s.advanced rest).accepts (s.build.base + off) 4 false = true := by
    simp [State.accepts, State.regionAccepts, hreg]; omega
  simp only [hostRead, advanced_build, hcl, hacc, Bool.not_true, if_true,
    Nat.add_sub_cancel_left]
  simp only [Bool.false_eq_true, if_false, State.dataAt, advanced_build, hreg]
  cases r <;> rfl

/-- An idle, aligned host write of a bank word: that word is written and the port answers OKAY. -/
theorem step_write_bank {s : State} {off v : Nat} {rest : List Input}
    (hr : Build.region s.build off = .bank) (hidle : s.status.busy = false) (ho : off < 0x400000)
    (h4 : (s.build.base + off) % 4 = 0) (h : s.inputs = .write (s.build.base + off) 4 v :: rest) :
    step s = .next ({ s with
      inputs := rest, draws := s.draws + 1
      resp := some (.okay none) }.writeWord off (BitVec.ofNat 32 v)) := by
  rw [step_cons h]
  show hostWrite _ _ _ _ = _
  have hcl : Build.claims s.build (s.build.base + off) = true := by simp [Build.claims]; omega
  have hacc : (s.advanced rest).accepts (s.build.base + off) 4 true = true := by
    simp [State.accepts, State.regionAccepts, hr, hidle, h4]
  rw [hostWrite, if_neg (by simp [hcl]), if_pos hacc]
  simp only [advanced_build, Nat.add_sub_cancel_left, writeAt, hr]
  rfl

/-- An idle, aligned host read of a bank word: the word, drawn where it is unwritten, and no other
change. -/
theorem step_read_bank {s : State} {off : Nat} {rest : List Input}
    (hr : Build.region s.build off = .bank) (hidle : s.status.busy = false) (ho : off < 0x400000)
    (h4 : (s.build.base + off) % 4 = 0) (h : s.inputs = .read (s.build.base + off) 4 :: rest) :
    step s = .next { s with
      inputs := rest, draws := s.draws + 1
      resp := some (.okay (some ((s.advanced rest).readWord off 0))) } := by
  rw [step_cons h]
  show Host.Outcome.next (hostRead _ _ _) = _
  have hcl : Build.claims s.build (s.build.base + off) = true := by simp [Build.claims]; omega
  have hacc : (s.advanced rest).accepts (s.build.base + off) 4 false = true := by
    simp [State.accepts, State.regionAccepts, hr, hidle, h4]
  rw [hostRead, if_neg (by simp [hcl]), if_pos hacc]
  simp only [advanced_build, Nat.add_sub_cancel_left, State.dataAt, hr]
  rfl

/-! ## The address map -/

theorem regAt_of_ge {off : Nat} (h : 0x024 ≤ off) : regAt off = none := by
  have h' : 9 ≤ off / 4 := by omega
  simp only [regAt, allRegs, List.find?, Reg.offset]
  repeat' rw [show ((_ : Nat) == off / 4 * 4) = false by simp; omega]

theorem regAt_of_lt {off : Nat} (h : off < 0x024) : ∃ r, regAt off = some r :=
  (by decide : ∀ off < 0x024, ∃ r ∈ allRegs, regAt off = some r) off h |>.imp fun _ h => h.2

/-- Legal builds have 1 <= DMAX <= 16, BASE aligned to 4 MiB and at least one worker. -/
theorem wellFormed_bounds {b : Build} (h : b.wellFormed = true) :
    1 ≤ b.dmax ∧ b.dmax ≤ 16 ∧ b.base % 0x400000 = 0 ∧ 1 ≤ b.workers := by
  simp only [Build.wellFormed, Bool.and_eq_true, decide_eq_true_eq] at h
  exact ⟨h.1.1.1.1.1.1, h.1.1.1.1.1.2, h.1.2, h.1.1.1.2.1⟩

theorem region_bank_iff {b : Build} (hD : b.dmax ≤ 16) {off : Nat} :
    Build.region b off = .bank ↔
      (0x100000 ≤ off ∧ off < 0x100000 + 16 * 2 ^ b.dmax) ∨
        (0x200000 ≤ off ∧ off < 0x200000 + 16 * 2 ^ b.dmax) := by
  have hN : 2 ^ b.dmax ≤ 2 ^ 16 := Nat.pow_le_pow_right (by omega) hD
  constructor
  · intro h
    unfold Build.region at h
    cases hr : regAt off with
    | some r => simp [hr] at h
    | none => rw [hr] at h; revert h; simp only; repeat' split <;> simp_all
  · intro h
    unfold Build.region
    rw [regAt_of_ge (by omega)]
    simp only
    split
    · rfl
    · rw [if_pos (by omega)]

theorem region_rom {b : Build} (hD : b.dmax ≤ 16) {off : Nat} (h1 : 0x300000 ≤ off)
    (h2 : off < 0x300000 + 8 * 2 ^ b.dmax) : Build.region b off = .rom := by
  have hN : 2 ^ b.dmax ≤ 2 ^ 16 := Nat.pow_le_pow_right (by omega) hD
  unfold Build.region
  rw [regAt_of_ge (by omega)]
  simp only
  rw [if_neg (by omega), if_neg (by omega), if_pos (by omega)]

end Sys2Proof.Machine
end

