-- ==== Sys2Proof/Laws/Schedule.lean ====
section
/-! SUPPORT. The schedule of a stage: whatever the enables, its groups are the outputs 0 to N-1, in
order and each once. -/

namespace Sys2Proof.Machine

/-- Consecutive ranges join to one. -/
theorem flatMap_consecutive_ranges (f : Nat → Nat) (T : Nat) (h0 : f 0 = 0)
    (hm : ∀ t, f t ≤ f (t + 1)) :
    (List.range T).flatMap (fun t => List.range' (f t) (f (t + 1) - f t)) = List.range (f T) := by
  induction T with
  | zero => simp [h0]
  | succ T ih =>
    have := List.range'_append (s := 0) (m := f T) (n := f (T + 1) - f T) (step := 1)
    simp only [Nat.zero_add, Nat.one_mul] at this
    rw [List.range_succ, List.flatMap_append, ih]
    simp only [List.flatMap_cons, List.flatMap_nil, List.append_nil]
    rw [List.range_eq_range', List.range_eq_range', this, Nat.add_sub_cancel' (hm T)]

/-- The workers' ranges, in order, are all outputs. -/
theorem flatMap_workerRange (n T : Nat) (hT : 1 ≤ T) :
    (List.range T).flatMap (workerRange n T) = List.range n := by
  have h := flatMap_consecutive_ranges (fun t => if t < T then n / T * t else n) T
    (by simp; omega) (by
      intro t
      have : n / T * T ≤ n := Nat.div_mul_le_self n T
      by_cases h1 : t + 1 < T
      · simp only [if_pos h1, if_pos (show t < T by omega)]
        exact Nat.mul_le_mul_left _ (by omega)
      · by_cases h2 : t < T
        · simp only [if_neg h1, if_pos h2]
          exact le_trans (Nat.mul_le_mul_left _ (by omega)) this
        · simp only [if_neg h1, if_neg h2, le_refl])
  simp only [lt_irrefl, if_false] at h
  rw [← h]
  apply List.flatMap_congr
  intro t ht
  simp only [workerRange, jFrom, jTo, if_pos (List.mem_range.1 ht)]

theorem flatten_laneGroups (s : State) (p : Nat) (l : List Nat) :
    (s.laneGroups p l).flatten = l := by
  unfold State.laneGroups
  split
  · exact List.flatten_splitBy ..
  · simp [← List.flatMap_def]

theorem flatten_partitions (s : State) (h : 1 ≤ s.build.workers) :
    s.partitions.flatten = List.range s.n := by
  unfold State.partitions
  split
  · rw [← List.flatMap_def]; exact flatMap_workerRange _ _ h
  · simp

/-- The outputs of a stage in the order they are computed. -/
theorem flatten_schedule (s : State) (p : Nat) (h : 1 ≤ s.build.workers) :
    (s.schedule p).flatten = List.range s.n := by
  rw [← flatten_partitions s h, State.schedule]
  induction s.partitions with
  | nil => rfl
  | cons a l ih => simp [List.flatMap_cons, List.flatten_append, flatten_laneGroups, ih]

theorem stage_eq (s : State) (p : Nat) (h : 1 ≤ s.build.workers) :
    stage p s = stageInOrder p (List.range s.n) s := by rw [stage, flatten_schedule s p h]

end Sys2Proof.Machine
end

