-- ==== Sys2Proof/Laws/Engine.lean ====
section
/-! SUPPORT. What COPY, SCALE, a whole Engine step and the acceptance of a transform can do. -/

namespace Sys2Proof.Machine

/-- An Engine step that is enabled: the phase's bank memory, and completion or the next phase. -/
theorem engineStep_eq (s : State) (h : s.seq.phase ≠ .idle) : engineStep s = 
   if (nextSeq s.d s.status.dir s.seq).phase = .idle then complete (s.withMem (runPhase s).mem)
   else { s.withMem (runPhase s).mem with seq := nextSeq s.d s.status.dir s.seq } := by
  have e := runPhase_eq_withMem s
  rcases engineStep_cases s with ⟨h', _⟩ | ⟨_, h1, h'⟩ | ⟨_, h1, h'⟩
  · exact absurd h' h
  · rw [h', if_pos h1, ← e]
  · rw [h', if_neg h1, ← e]

theorem engineStep_idle {s : State} (h : s.seq.phase = .idle) : engineStep s = s := by
  simp [engineStep, h]

theorem mem_engineStep {s : State} (h : s.seq.phase ≠ .idle) :
    (engineStep s).mem = (runPhase s).mem := by
  rw [engineStep_eq s h]; split <;> rfl

/-- An Engine step changes the banks, BUSY, DONE and the sequencer state only. -/
theorem engineStep_fields (s : State) :
    engineStep s = { s with
      mem := (engineStep s).mem, seq := (engineStep s).seq
      status := { s.status with
        busy := (engineStep s).status.busy, done := (engineStep s).status.done } } := by
  by_cases h : s.seq.phase = .idle
  · rw [engineStep_idle h]
  · rw [engineStep_eq s h]; split <;> rfl

/-- What COPY leaves at an offset. -/
theorem get_copyPhase (s : State) (c : Nat) :
    Memory.get (copyPhase s).mem c =
      if 0x200000 ≤ c ∧ c < 0x200000 + 16 * s.n then Memory.get s.mem (c - 0x100000)
      else Memory.get s.mem c := by
  have hg (B C : Nat) (hB : bankOffset 1 0 = B) (hC : bankOffset 0 0 = C) (hBC : C ≤ B) :
      Memory.get (copyPhase s).mem c =
        if B ≤ c ∧ c < B + 16 * s.n then Memory.get s.mem (c - (B - C))
        else Memory.get s.mem c := by
    rw [copyPhase, Memory.get_writeBlock, hB, hC, Memory.length_readBlock]
    by_cases hc : B ≤ c ∧ c < B + 16 * s.n
    · rw [if_pos hc, if_pos hc, Memory.getD_readBlock (by omega)]
      congr 1; omega
    · rw [if_neg hc, if_neg hc]
  exact hg 0x200000 0x100000 rfl rfl (by decide)

/-- What a run of SCALE entries leaves at an offset. -/
theorem get_scaleFold (s : State) (l : List Nat) (hl : l.Nodup) (c : Nat) :
    Memory.get (l.foldl scaleEntry s).mem c =
      if bankOffset 0 0 ≤ c ∧ (c - bankOffset 0 0) / 16 ∈ l then
        sampleByte (s.scaledEntry ((c - bankOffset 0 0) / 16)) ((c - bankOffset 0 0) % 16)
      else Memory.get s.mem c := by
  induction l generalizing s with
  | nil => simp
  | cons j l ih =>
    obtain ⟨hj, hl⟩ := List.nodup_cons.1 hl
    rw [List.foldl_cons, ih _ hl]
    have hval : ∀ i, i ≠ j → (scaleEntry s j).scaledEntry i = s.scaledEntry i := by
      intro i hi
      unfold State.scaledEntry State.readEntry
      have : Memory.readBlock (scaleEntry s j).mem (bankOffset 0 i) 16 = Memory.readBlock s.mem (bankOffset 0 i) 16 := by
        unfold scaleEntry
        rw [writeEntry_mem, Memory.readBlock_writeBlock_disjoint]
        simp [bankOffset]; omega
      rw [this]; rfl
    have hget : Memory.get (scaleEntry s j).mem c = _ := get_writeEntry s 0 j c _
    have hoff := bankOffset_add 0 j
    generalize bankOffset 0 0 = B at *
    by_cases hc : B ≤ c
    · by_cases hm : (c - B) / 16 ∈ l
      · rw [if_pos ⟨hc, hm⟩, if_pos ⟨hc, by simp [hm]⟩, hval _ (by rintro rfl; exact hj hm)]
      · rw [if_neg (by simp [hm]), hget]
        by_cases hjc : (c - B) / 16 = j
        · rw [if_pos (by omega), if_pos ⟨hc, by simp [hjc]⟩, hjc]
          congr 1; omega
        · rw [if_neg (by omega), if_neg (by simp [hm, hjc])]
    · rw [if_neg (by simp [hc]), if_neg (by simp [hc]), hget, if_neg (by omega)]

/-- What SCALE leaves at an offset. -/
theorem get_scalePhase (s : State) (c : Nat) : Memory.get (scalePhase s).mem c =
      if 0x100000 ≤ c ∧ c < 0x100000 + 16 * s.n then
        sampleByte (s.scaledEntry ((c - 0x100000) / 16)) ((c - 0x100000) % 16)
      else Memory.get s.mem c := by
  rw [scalePhase, get_scaleFold s _ List.nodup_range]
  have hb : bankOffset 0 0 = 0x100000 := rfl
  rw [hb]
  generalize 0x100000 = B
  simp only [List.mem_range]
  by_cases h : B ≤ c ∧ c < B + 16 * s.n
  · rw [if_pos h, if_pos (by omega)]
  · rw [if_neg h, if_neg (by omega)]

/-- An entry whose sixteen bytes are those of a sample. -/
theorem readBlock_sampleByte {m : Memory} {a : Nat} {y : Sample} (h : ∀ k, k < 16 → Memory.get m (a + k) = sampleByte y k) :
    Memory.readBlock m a 16 = (bytesOfSample y).map some := by
  rw [Memory.readBlock_eq, List.map_congr_left fun k hk => h k (List.mem_range.1 hk)]
  rfl

theorem readEntry_of_bytes {s : State} {b i slot : Nat} {y : Sample}
    (h : ∀ k, k < 16 → Memory.get s.mem (bankOffset b i + k) = sampleByte y k) :
    s.readEntry b i slot = y := by
  unfold State.readEntry
  rw [readBlock_sampleByte h, sampleOrDraw_bytes]

/-- Acceptance: the first phase of the list, and the flags. -/
theorem accept_fields (s : State) (dir : Bool) :
    accept dir s = { s with
      seq := firstPhase s.d dir
      status := { s.status with
        done := decide ((firstPhase s.d dir).phase = .idle)
        dir := dir
        busy := s.status.busy || !decide ((firstPhase s.d dir).phase = .idle) } } := by
  unfold accept
  split <;> simp_all

/-- The phase list is a run of `nextSeq`: after each of its phases comes the next, and after the
last (IDLE, 0). -/
theorem phaseList_next (d : Nat) (dir : Bool) (k : Nat) (h : k < (phaseList d dir).length) :
   (phaseList d dir)[k].phase ≠ .idle ∧
   nextSeq d dir (phaseList d dir)[k] = (phaseList d dir).getD (k+1) .idle := by
  suffices H : ∀ q, (phaseList d dir)[k]? = some q → q.phase ≠ .idle ∧ nextSeq d dir q = (phaseList d dir).getD (k+1) .idle from
    H _ (List.getElem?_eq_getElem h)
  clear h
  intro q hq
  have body : ∀ k q, ((List.range' 1 d).map (fun p => (⟨.bfly, p⟩ : Machine.Seq)) ++ (if dir then [(⟨.scale, 0⟩ : Machine.Seq)] else []))[k]? = some q →
      q.phase ≠ .idle ∧ nextSeq d dir q = ((List.range' 1 d).map (fun p => (⟨.bfly, p⟩ : Machine.Seq)) ++ (if dir then [(⟨.scale, 0⟩ : Machine.Seq)] else [])).getD (k+1) .idle := by
    intro k q hq
    rw [List.getElem?_append] at hq
    simp only [List.length_map, List.length_range'] at hq
    rw [List.getD, List.getElem?_append]
    simp only [List.length_map, List.length_range']
    split at hq
    · rename_i hk
      simp [hk] at hq
      subst hq
      refine ⟨by simp, ?_⟩
      by_cases hk2 : k + 1 < d
      · simp [nextSeq, hk2, show 1 + k < d by omega]; omega
      · have : d = k + 1 := by omega
        subst this
        cases dir <;> simp [nextSeq, Seq.idle]
    · rename_i hk
      cases dir
      · simp at hq
      · have : k - d = 0 := by
          by_contra hne
          rw [List.getElem?_eq_none (by simp; omega)] at hq
          simp at hq
        rw [this] at hq
        simp at hq
        subst hq
        refine ⟨by simp, ?_⟩
        rw [if_neg (by omega), List.getElem?_eq_none (by simp; omega)]
        simp [nextSeq]
  unfold phaseList at hq ⊢
  by_cases hd : d % 2 = 1
  · rw [if_pos hd] at hq ⊢
    cases k with
    | zero =>
      simp at hq; subst hq
      obtain ⟨m, rfl⟩ : ∃ m, d = m + 1 := ⟨d - 1, by omega⟩
      simp [nextSeq, List.range'_succ]
    | succ k =>
      have := body k q (by simpa using hq)
      refine ⟨this.1, this.2.trans ?_⟩
      simp
  · rw [if_neg hd, List.nil_append] at hq ⊢
    exact body k q hq

end Sys2Proof.Machine
end

