-- ==== Sys2Proof/Laws/Float.lean ====
section
/-! SUPPORT. The fields of a binary64 in plain arithmetic, and what the rounding builds. -/

namespace Sys2Proof

theorem fsign_eq (x : B64) : fsign x = decide (2 ^ 63 ≤ x.toNat) := by
  have h : fsign x = x.msb := rfl
  rw [h, BitVec.msb_eq_decide]

theorem fexp_eq (x : B64) : fexp x = x.toNat / 2 ^ 52 % 2 ^ 11 := by
  simp [fexp, Nat.shiftRight_eq_div_pow]

theorem ffrac_eq (x : B64) : ffrac x = x.toNat % 2 ^ 52 := by simp [ffrac]

theorem toNat_withSign (neg : Bool) {m : Nat} (h : m < 2 ^ 63) :
    (withSign neg m).toNat = (if neg then 2 ^ 63 else 0) + m := by
  unfold withSign
  rw [BitVec.toNat_ofNat, Nat.mod_eq_of_lt]
  cases neg
  · simp; omega
  · simp; omega

@[simp] theorem fsign_withSign (neg : Bool) {m : Nat} (h : m < 2 ^ 63) :
    fsign (withSign neg m) = neg := by
  rw [fsign_eq, toNat_withSign neg h]
  cases neg
  · simp; omega
  · simp

theorem fexp_withSign (neg : Bool) {m : Nat} (h : m < 2 ^ 63) :
    fexp (withSign neg m) = m / 2 ^ 52 := by
  rw [fexp_eq, toNat_withSign neg h]
  cases neg
  · simp; omega
  · simp; omega

theorem ffrac_withSign (neg : Bool) {m : Nat} (h : m < 2 ^ 63) :
    ffrac (withSign neg m) = m % 2 ^ 52 := by
  rw [ffrac_eq, toNat_withSign neg h]
  cases neg
  · simp
  · simp only [if_true]; omega

theorem fexp_lt (x : B64) : fexp x < 2 ^ 11 := by rw [fexp_eq]; exact Nat.mod_lt _ (by decide)

theorem ffrac_lt (x : B64) : ffrac x < 2 ^ 52 := by rw [ffrac_eq]; exact Nat.mod_lt _ (by decide)

/-- A value is its sign and its lower 63 bits. -/
theorem eq_withSign (x : B64) : x = withSign (fsign x) (fexp x * 2 ^ 52 + ffrac x) := by
  have hx := x.isLt
  have hlt : fexp x * 2 ^ 52 + ffrac x < 2 ^ 63 := by
    have := fexp_lt x; have := ffrac_lt x; omega
  apply BitVec.eq_of_toNat_eq
  rw [toNat_withSign _ hlt, fsign_eq, fexp_eq, ffrac_eq]
  by_cases h : 2 ^ 63 ≤ x.toNat
  · simp only [h, decide_true, if_true]; omega
  · simp only [h, decide_false, Bool.false_eq_true, if_false]; omega

/-! ## Classes -/

theorem isFinite_iff {x : B64} : isFinite x = true ↔ fexp x ≠ 2047 := by simp [isFinite]

theorem isNaN_iff {x : B64} : isNaN x = true ↔ fexp x = 2047 ∧ ffrac x ≠ 0 := by simp [isNaN]

theorem isInf_iff {x : B64} : isInf x = true ↔ fexp x = 2047 ∧ ffrac x = 0 := by simp [isInf]

theorem isZero_iff {x : B64} : isZero x = true ↔ fexp x = 0 ∧ ffrac x = 0 := by simp [isZero]

theorem not_isNaN_of_isFinite {x : B64} (h : isFinite x = true) : isNaN x = false := by
  simp_all [isNaN, isFinite]

theorem not_isInf_of_isFinite {x : B64} (h : isFinite x = true) : isInf x = false := by
  simp_all [isInf, isFinite]

theorem not_isNaN_of_isInf {x : B64} (h : isInf x = true) : isNaN x = false := by
  simp_all [isNaN, isInf]

theorem not_isFinite_of_isInf {x : B64} (h : isInf x = true) : isFinite x = false := by
  simp_all [isFinite, isInf]

theorem magUnits_eq_zero {x : B64} : magUnits x = 0 ↔ isZero x = true := by
  unfold magUnits
  rw [isZero_iff]
  split
  · simp_all
  · simp_all

theorem units_eq_zero {x : B64} : units x = 0 ↔ isZero x = true := by
  rw [← magUnits_eq_zero]
  unfold units
  split <;> omega

theorem natAbs_units (x : B64) : (units x).natAbs = magUnits x := by
  unfold units; split <;> simp

/-! ## Negation -/

@[simp] theorem fsign_fneg (x : B64) : fsign (fneg x) = !fsign x := by
  have h : (0x8000000000000000 : B64).getLsbD 63 = true := rfl
  simp only [fsign, fneg, BitVec.getLsbD_xor, h, Bool.xor_true]

@[simp] theorem fexp_fneg (x : B64) : fexp (fneg x) = fexp x := by
  have h : (0x8000000000000000 : B64).extractLsb' 52 11 = 0 := rfl
  simp only [fexp, fneg, BitVec.extractLsb'_xor, h]
  simp

@[simp] theorem ffrac_fneg (x : B64) : ffrac (fneg x) = ffrac x := by
  have h : (0x8000000000000000 : B64).extractLsb' 0 52 = 0 := rfl
  simp only [ffrac, fneg, BitVec.extractLsb'_xor, h]
  simp

@[simp] theorem isNaN_fneg (x : B64) : isNaN (fneg x) = isNaN x := by simp [isNaN]

@[simp] theorem isInf_fneg (x : B64) : isInf (fneg x) = isInf x := by simp [isInf]

@[simp] theorem isFinite_fneg (x : B64) : isFinite (fneg x) = isFinite x := by simp [isFinite]

@[simp] theorem isZero_fneg (x : B64) : isZero (fneg x) = isZero x := by simp [isZero]

@[simp] theorem magUnits_fneg (x : B64) : magUnits (fneg x) = magUnits x := by simp [magUnits]

@[simp] theorem units_fneg (x : B64) : units (fneg x) = -units x := by
  unfold units
  rw [fsign_fneg, magUnits_fneg]
  cases fsign x <;> simp

/-! ## Results -/

theorem infinity_class (neg : Bool) :
    isInf (infinity neg) = true ∧ fsign (infinity neg) = neg := by cases neg <;> decide

theorem signedZero_class (neg : Bool) :
    isZero (signedZero neg) = true ∧ fsign (signedZero neg) = neg := by cases neg <;> decide

theorem getLsbD_quietNaN_high (draw : BitVec 52) {i : Nat} (h1 : 51 ≤ i) (h2 : i < 63) :
    (quietNaN draw).getLsbD i = true := by
  have h : (0xFFF : BitVec 12).getLsbD (i - 51) = true := by
    have : i - 51 < 12 := by omega
    generalize i - 51 = k at this
    interval_cases k <;> rfl
  unfold quietNaN
  rw [BitVec.getLsbD_append, if_neg (by omega), BitVec.getLsbD_append, if_pos (by omega), h]

theorem isNaN_quietNaN (draw : BitVec 52) : isNaN (quietNaN draw) = true := by
  have he : (quietNaN draw).extractLsb' 52 11 = 0x7FF := by
    apply BitVec.eq_of_getLsbD_eq
    intro i hi
    rw [BitVec.getLsbD_extractLsb', getLsbD_quietNaN_high draw (by omega) (by omega)]
    interval_cases i <;> rfl
  have hf : (quietNaN draw).extractLsb' 0 52 ≠ 0 := by
    intro h
    have := congrArg (fun y => y.getLsbD 51) h
    simp only [BitVec.getLsbD_extractLsb'] at this
    rw [getLsbD_quietNaN_high draw (by omega) (by omega)] at this
    simp at this
  refine isNaN_iff.2 ⟨?_, fun h => hf ?_⟩
  · rw [fexp, he]; rfl
  · exact BitVec.eq_of_toNat_eq h

/-- An operation on finite operands draws nothing. -/
theorem fadd_draw {a b : B64} (ha : isFinite a = true) (hb : isFinite b = true)
    (nan nan' : BitVec 52) : fadd nan a b = fadd nan' a b := by
  simp [fadd, not_isNaN_of_isFinite ha, not_isNaN_of_isFinite hb, not_isInf_of_isFinite ha,
    not_isInf_of_isFinite hb]

theorem fsub_draw {a b : B64} (ha : isFinite a = true) (hb : isFinite b = true)
    (nan nan' : BitVec 52) : fsub nan a b = fsub nan' a b :=
  fadd_draw ha (by simpa using hb) nan nan'

theorem fmul_draw {a b : B64} (ha : isFinite a = true) (hb : isFinite b = true)
    (nan nan' : BitVec 52) : fmul nan a b = fmul nan' a b := by
  simp [fmul, not_isNaN_of_isFinite ha, not_isNaN_of_isFinite hb, not_isInf_of_isFinite ha,
    not_isInf_of_isFinite hb]

theorem ffma_draw {a b c : B64} (ha : isFinite a = true) (hb : isFinite b = true)
    (hc : isFinite c = true) (nan nan' : BitVec 52) : ffma nan a b c = ffma nan' a b c := by
  simp [ffma, not_isNaN_of_isFinite ha, not_isNaN_of_isFinite hb, not_isNaN_of_isFinite hc,
    not_isInf_of_isFinite ha, not_isInf_of_isFinite hb, not_isInf_of_isFinite hc]

/-- The encoding the rounding builds is never above that of infinity. -/
theorem roundMag_le (m : Nat) : roundMag m ≤ 0x7FF0000000000000 := Nat.min_le_right _ _

theorem roundMag_lt (m : Nat) : roundMag m < 2 ^ 63 :=
  lt_of_le_of_lt (roundMag_le m) (by decide)

/-- Rounding to a multiple of 2^g takes one of the two neighbours. -/
theorem roundDiv_cases (m g : Nat) :
    roundDiv m g = m / 2 ^ g ∨ roundDiv m g = m / 2 ^ g + 1 := by
  unfold roundDiv; simp only; split <;> simp

end Sys2Proof
end

