-- ==== Sys2Proof/Laws/PerInstr.lean ====
section
/-! SUPPORT. Per command: the word the encoder writes matches the command's own row of the opcode
map (30_encoding.md R104). -/

namespace Sys2Proof.Laws.RowMatches

/-- The row of the command is in the map, and its encoding matches that row. -/
def Statement (i : Instr) : Prop := i.row ∈ opcodeMap ∧ i.row.hits (encode i) = true

theorem nop : Statement .nop := by unfold Statement; decide

theorem config (vec fma par : Bool) : Statement (.config vec fma par) := by
  unfold Statement
  revert vec fma par
  decide

theorem dft : Statement .dft := by unfold Statement; decide

theorem idft : Statement .idft := by unfold Statement; decide

end Sys2Proof.Laws.RowMatches
end

