-- ==== Sys2Proof/Laws/Rounding.lean ====
section
/-! SUPPORT. What the rounding `rn` does: its grain, its error, when it is finite and when exact. -/

namespace Sys2Proof

/-- The magnitude of an encoding built as exponent times 2^52 plus significand. -/
theorem magUnits_withSign (neg : Bool) {k r : Nat} (hr : r ≤ 2 ^ 53) (hk : k = 0 ∨ 2 ^ 52 ≤ r)
    (he : k * 2 ^ 52 + r < 2 ^ 63) : magUnits (withSign neg (k * 2 ^ 52 + r)) = r * 2 ^ k := by
  unfold magUnits
  rw [fexp_withSign _ he, ffrac_withSign _ he]
  rcases Nat.lt_or_ge r (2 ^ 52) with h1 | h1
  · obtain rfl : k = 0 := by omega
    rw [if_pos (by omega)]; simp; omega
  · rw [if_neg (by omega)]
    rcases Nat.eq_or_lt_of_le hr with rfl | h2
    · rw [show (k * 2 ^ 52 + 2 ^ 53) / 2 ^ 52 - 1 = k + 1 by omega,
        show (k * 2 ^ 52 + 2 ^ 53) % 2 ^ 52 = 0 by omega, pow_succ 2 k]; ring
    · rw [show (k * 2 ^ 52 + r) / 2 ^ 52 - 1 = k by omega]; congr 1; omega

/-- The grain leaves at most 53 bits of a magnitude, and 53 unless it is the smallest grain. -/
theorem grainExp_spec {m : Nat} (hm : m ≠ 0) : 1074 ≤ grainExp m ∧ m < 2 ^ 53 * 2 ^ grainExp m ∧
    (grainExp m = 1074 ∨ 2 ^ 52 * 2 ^ grainExp m ≤ m) := by
  have h1 := Nat.log2_self_le hm
  have h2 := Nat.lt_log2_self (n := m)
  unfold grainExp
  refine ⟨le_max_left _ _, ?_, ?_⟩
  · rw [← pow_add]; exact lt_of_lt_of_le h2 (Nat.pow_le_pow_right (by omega) (by omega))
  · by_cases h : m.log2 - 52 ≤ 1074
    · left; omega
    · right; rw [← pow_add]; exact le_trans (Nat.pow_le_pow_right (by omega) (by omega)) h1

/-- The quotient by the grain, rounded: at most 2^53, and at least 2^52 above the smallest grain. -/
theorem roundDiv_grain {m : Nat} (hm : m ≠ 0) : roundDiv m (grainExp m) ≤ 2 ^ 53 ∧
    (grainExp m - 1074 = 0 ∨ 2 ^ 52 ≤ roundDiv m (grainExp m)) := by
  obtain ⟨-, g2, g3⟩ := grainExp_spec hm
  have a1 : m / 2 ^ grainExp m < 2 ^ 53 := Nat.div_lt_of_lt_mul (by rw [Nat.mul_comm]; exact g2)
  have a2 : grainExp m = 1074 ∨ 2 ^ 52 ≤ m / 2 ^ grainExp m :=
    g3.imp id fun h => (Nat.le_div_iff_mul_le (by positivity)).2 h
  have := roundDiv_cases m (grainExp m)
  omega

/-- A rounded quotient is within half a divisor. -/
theorem roundDiv_error (m g : Nat) : 2 * |((roundDiv m g * 2 ^ g : Nat) : Int) - m| ≤ 2 ^ g := by
  have hd := Nat.div_add_mod m (2 ^ g)
  have hr := Nat.mod_lt m (show 0 < 2 ^ g by positivity)
  have hR : (roundDiv m g = m / 2 ^ g ∧ 2 * (m % 2 ^ g) ≤ 2 ^ g) ∨
      (roundDiv m g = m / 2 ^ g + 1 ∧ 2 ^ g ≤ 2 * (m % 2 ^ g)) := by
    unfold roundDiv
    simp only
    split <;> omega
  have hc : ((2 : Int) ^ g) = ((2 ^ g : Nat) : Int) := by push_cast; rfl
  rw [hc]
  generalize m / 2 ^ g = q at *
  generalize m % 2 ^ g = r at *
  generalize 2 ^ g = E at *
  rcases hR with ⟨h, h1⟩ | ⟨h, h1⟩ <;> rw [h]
  · have : ((q * E : Nat) : Int) - m = -((r : Nat) : Int) := by rw [← hd]; push_cast; ring
    rw [this, abs_neg, Nat.abs_cast]; omega
  · have : (((q + 1) * E : Nat) : Int) - m = ((E - r : Nat) : Int) := by
      rw [← hd]; push_cast [Nat.cast_sub hr.le]; ring
    rw [this, Nat.abs_cast]; omega

/-- Everything about a finite rounding of a nonzero x: its encoding, sign, magnitude and exponent
field. -/
theorem rn_finite {z : Bool} {x : Int} (hx : x ≠ 0) (hf : isFinite (rn z x) = true) :
    rn z x = withSign (decide (x < 0))
      ((grainExp x.natAbs - 1074) * 2 ^ 52 + roundDiv x.natAbs (grainExp x.natAbs)) ∧
    fsign (rn z x) = decide (x < 0) ∧
    magUnits (rn z x) * 2 ^ 1074 = roundDiv x.natAbs (grainExp x.natAbs) * 2 ^ grainExp x.natAbs ∧
    grainExp x.natAbs ≤ max 1 (fexp (rn z x)) + 1073 := by
  have hm : x.natAbs ≠ 0 := by omega
  have hrn : rn z x = withSign (decide (x < 0)) (roundMag x.natAbs) := by simp [rn, hx]
  have hlt := roundMag_lt x.natAbs
  have hfin : roundMag x.natAbs < 0x7FF0000000000000 := by
    rw [hrn, isFinite_iff, fexp_withSign _ hlt] at hf
    have := roundMag_le x.natAbs
    omega
  have hE : roundMag x.natAbs = (grainExp x.natAbs - 1074) * 2 ^ 52
      + roundDiv x.natAbs (grainExp x.natAbs) := by
    unfold roundMag at hfin ⊢; omega
  have hq := roundDiv_grain hm
  have g1 := (grainExp_spec hm).1
  have hlt' := hE ▸ hlt
  refine ⟨by rw [hrn, hE], by rw [hrn, fsign_withSign _ hlt], ?_, ?_⟩
  · rw [hrn, hE, magUnits_withSign _ hq.1 hq.2 hlt', Nat.mul_assoc, ← pow_add,
      Nat.sub_add_cancel g1]
  · rw [hrn, hE, fexp_withSign _ hlt']; omega

/-- A magnitude below 2^53 · 2^e has a grain of at most 2^e. -/
theorem grainExp_le_of_lt {m e : Nat} (hm : m ≠ 0) (h : m < 2 ^ 53 * 2 ^ e) :
    grainExp m ≤ max 1074 e := by
  rcases (grainExp_spec hm).2.2 with h' | h'
  · omega
  · by_contra hc
    have h1 : 2 ^ (e + 1) ≤ 2 ^ grainExp m := Nat.pow_le_pow_right (by decide) (by omega)
    rw [pow_succ] at h1
    omega

/-- A magnitude below 2^53 · 2^e quanta, with e at most 3118, rounds to a finite value. -/
theorem isFinite_rn (z : Bool) {x : Int} {e : Nat} (h : x.natAbs < 2 ^ 53 * 2 ^ e)
    (he : e ≤ 3118) : isFinite (rn z x) = true := by
  by_cases hx : x = 0
  · subst hx; cases z <;> decide +kernel
  have hm : x.natAbs ≠ 0 := by omega
  have hrn : rn z x = withSign (decide (x < 0)) (roundMag x.natAbs) := by simp [rn, hx]
  have hq := roundDiv_grain hm
  have hg : grainExp x.natAbs ≤ 3118 := by
    rcases (grainExp_spec hm).2.2 with h' | h'
    · omega
    · exact (grainExp_le_of_lt hm h).trans (max_le (by decide) he)
  rw [hrn, isFinite_iff, fexp_withSign _ (roundMag_lt _)]
  have : roundMag x.natAbs ≤ 2046 * 2 ^ 52 := by unfold roundMag; omega
  omega

/-- The signed value of an encoding, from its sign and magnitude. -/
theorem units_mul_unitQuanta (y : B64) : units y * unitQuanta =
    if fsign y then -((magUnits y * 2 ^ 1074 : Nat) : Int)
    else ((magUnits y * 2 ^ 1074 : Nat) : Int) := by
  unfold units unitQuanta
  rw [Nat.cast_mul]
  split
  · exact neg_mul _ _
  · rfl

/-- The error of a finite rounding: at most half the spacing at the result's exponent. -/
theorem rn_error {z : Bool} {x : Int} (hf : isFinite (rn z x) = true) :
    2 * |units (rn z x) * unitQuanta - x| ≤ 2 ^ (max 1 (fexp (rn z x)) + 1073) := by
  by_cases hx : x = 0
  · subst hx
    have : units (rn z 0) = 0 := by cases z <;> decide +kernel
    rw [this, zero_mul, sub_zero, abs_zero, mul_zero]
    exact pow_nonneg (by decide) _
  obtain ⟨-, f2, f3, f4⟩ := rn_finite hx hf
  have h1 : |units (rn z x) * unitQuanta - x|
      = |((roundDiv x.natAbs (grainExp x.natAbs) * 2 ^ grainExp x.natAbs : Nat) : Int)
        - x.natAbs| := by
    rw [units_mul_unitQuanta, f2, f3]
    generalize roundDiv x.natAbs (grainExp x.natAbs) * 2 ^ grainExp x.natAbs = R
    by_cases h : x < 0
    · simp only [h, decide_true, if_true]
      rw [Int.ofNat_natAbs_of_nonpos h.le, ← abs_neg, neg_sub', neg_neg]
    · simp only [h, decide_false, Bool.false_eq_true, if_false]
      rw [Int.natAbs_of_nonneg (not_lt.1 h)]
  rw [h1]
  exact le_trans (roundDiv_error _ _) (pow_le_pow_right₀ (by norm_num) f4)

/-- A magnitude of at most 53 bits times a power of two is not changed by the rounding. -/
theorem rn_exact (z : Bool) {x : Int} {q e : Nat} (hx : x.natAbs = q * 2 ^ e) (hq : q < 2 ^ 53)
    (h1 : 1074 ≤ e) (h2 : e ≤ 3118) :
    isFinite (rn z x) = true ∧ units (rn z x) * unitQuanta = x := by
  have hlt : x.natAbs < 2 ^ 53 * 2 ^ e := hx ▸ Nat.mul_lt_mul_of_pos_right hq (by positivity)
  have hf := isFinite_rn z hlt h2
  refine ⟨hf, ?_⟩
  by_cases h0 : x = 0
  · subst h0
    have : units (rn z 0) = 0 := by cases z <;> decide +kernel
    rw [this, zero_mul]
  obtain ⟨-, f2, f3, -⟩ := rn_finite h0 hf
  have hg := grainExp_le_of_lt (by omega) hlt
  have hex : roundDiv x.natAbs (grainExp x.natAbs) * 2 ^ grainExp x.natAbs = x.natAbs := by
    obtain ⟨j, hj⟩ : ∃ j, e = j + grainExp x.natAbs := ⟨e - grainExp x.natAbs, by omega⟩
    generalize grainExp x.natAbs = g at *
    rw [hx, hj, pow_add, ← Nat.mul_assoc]
    have hp : 0 < 2 ^ g := by positivity
    have : roundDiv (q * 2 ^ j * 2 ^ g) g = q * 2 ^ j := by
      unfold roundDiv
      simp only [Nat.mul_mod_left, Nat.mul_div_cancel _ hp]
      rw [if_neg (by omega)]
    rw [this]
  rw [units_mul_unitQuanta, f2, f3, hex]
  by_cases h : x < 0
  · simp only [h, decide_true, if_true]; omega
  · simp only [h, decide_false, Bool.false_eq_true, if_false]; omega

end Sys2Proof
end

