-- ==== Sys2Proof/Laws/Rom.lean ====
section
/-! SUPPORT. How far the fixed-point evaluation behind the default ROM image is from the exact
cosine and sine: the digits of pi, the truncated series and the divisions. -/

namespace Sys2Proof

/-! ## The digits of pi -/

/-- Partial sums of the arctangent series of 1/m. -/
def arctanSum (m : ℚ) (n : ℕ) : ℚ :=
  ∑ i ∈ Finset.range n, (-1) ^ i * m⁻¹ ^ (2 * i + 1) / (2 * i + 1 : ℕ)

/-- The arctangent series of 1/m, cut after n terms. -/
theorem arctanSum_error {m : ℚ} (hm : 2 ≤ m) (n : ℕ) :
    |((arctanSum m n : ℚ) : ℝ) - Real.arctan (m : ℝ)⁻¹| ≤ 2 * ((m : ℝ)⁻¹ ^ 2) ^ n := by
  have hm' : (2 : ℝ) ≤ m := by exact_mod_cast hm
  have hi0 : (0 : ℝ) ≤ (m : ℝ)⁻¹ := by positivity
  have hi : (m : ℝ)⁻¹ ≤ 1 / 2 := by rw [inv_le_comm₀ (by linarith) (by norm_num)]; linarith
  have h := Real.hasSum_arctan (x := (m : ℝ)⁻¹) (by rw [Real.norm_of_nonneg hi0]; linarith)
  have hg := norm_sub_le_of_geometric_bound_of_hasSum (r := (m : ℝ)⁻¹ ^ 2) (C := (m : ℝ)⁻¹)
    (by nlinarith) (fun i => ?_) h n
  · have hs : ((arctanSum m n : ℚ) : ℝ)
        = ∑ i ∈ Finset.range n, (-1 : ℝ) ^ i * (m : ℝ)⁻¹ ^ (2 * i + 1) / ((2 * i + 1 : ℕ) : ℝ) := by
      simp [arctanSum]
    rw [← hs] at hg
    refine hg.trans ?_
    rw [div_le_iff₀ (by nlinarith)]
    have : (0 : ℝ) ≤ ((m : ℝ)⁻¹ ^ 2) ^ n := by positivity
    nlinarith [mul_nonneg this hi0]
  · rw [norm_div, norm_mul, norm_pow, norm_neg, norm_one, one_pow, one_mul, norm_pow,
      Real.norm_of_nonneg hi0, pow_succ, pow_mul, mul_comm]
    refine div_le_self (by positivity) ?_
    rw [Real.norm_natCast]
    exact_mod_cast Nat.le_add_left 1 (2 * i)

/-- `fixPi` is pi in 200-bit fixed point, to within one unit. -/
theorem fixPi_error : |(fixPi : ℝ) - Real.pi * 2 ^ 200| ≤ 1 := by
  have h5 := arctanSum_error (m := 5) (by norm_num) 48
  have h239 := arctanSum_error (m := 239) (by norm_num) 14
  have hpi := Real.four_mul_arctan_inv_5_sub_arctan_inv_239
  have key : |(fixPi : ℚ) - 4 * (4 * arctanSum 5 48 - arctanSum 239 14) * 2 ^ 200| ≤ 99 / 100 := by
    rw [abs_le]
    constructor <;>
      norm_num [arctanSum, Finset.sum_range_succ, fixPi]
  have key' : |(fixPi : ℝ)
      - 4 * (4 * ((arctanSum 5 48 : ℚ) : ℝ) - ((arctanSum 239 14 : ℚ) : ℝ)) * 2 ^ 200|
      ≤ 99 / 100 := by
    have h := (Rat.cast_le (K := ℝ)).2 key
    push_cast at h
    exact h
  push_cast at h5 h239
  have e5 : (2 : ℝ) * (((5 : ℝ)⁻¹) ^ 2) ^ 48 * 2 ^ 200 ≤ 1 / 10000 := by norm_num
  have e239 : (2 : ℝ) * (((239 : ℝ)⁻¹) ^ 2) ^ 14 * 2 ^ 200 ≤ 1 / 10000 := by norm_num
  rw [abs_le] at *
  constructor <;> nlinarith

/-! ## The series -/

/-- The alternating series of `fixSeries` with exact division. -/
noncomputable def exactSeries (X : ℝ) : ℕ → ℕ → ℝ → ℝ
  | 0, _, _ => 0
  | fuel + 1, k, t => t - exactSeries X fuel (k + 2) (t * X / ((k + 1) * (k + 2)))

/-- One division step: 2 + 5/2 e of the multiplication over the divisor, and less than one unit of
the division. -/
theorem fixTerm_error {X e t : ℝ} {x2 k T : ℕ} (hX0 : 0 ≤ X) (hX : X ≤ 5 / 2)
    (hx : |(x2 : ℝ) / 2 ^ 200 - X| ≤ 1 / 2 ^ 200) (hT : (T : ℝ) ≤ 2 * 2 ^ 200)
    (ht : |(T : ℝ) - t| ≤ e) :
    |((T * x2 / 2 ^ fixBits / ((k + 1) * (k + 2)) : ℕ) : ℝ) - t * X / ((k + 1) * (k + 2))|
      ≤ (2 + 5 / 2 * e) / ((k + 1) * (k + 2)) + 1 := by
  have hm : (0 : ℝ) < (k + 1) * (k + 2) := by positivity
  have hT0 : (0 : ℝ) ≤ T := by positivity
  have he : 0 ≤ e := (abs_nonneg _).trans ht
  rw [Nat.div_div_eq_div_mul, show fixBits = 200 from rfl]
  have hfl := Nat.div_add_mod (T * x2) (2 ^ 200 * ((k + 1) * (k + 2)))
  have hlt := Nat.mod_lt (T * x2) (show 0 < 2 ^ 200 * ((k + 1) * (k + 2)) by positivity)
  generalize T * x2 / (2 ^ 200 * ((k + 1) * (k + 2))) = q at *
  generalize T * x2 % (2 ^ 200 * ((k + 1) * (k + 2))) = r at *
  have hfl' : (2 ^ 200 * ((k + 1) * (k + 2)) : ℝ) * q + r = T * x2 := by exact_mod_cast hfl
  have hlt' : (r : ℝ) < 2 ^ 200 * ((k + 1) * (k + 2)) := by exact_mod_cast hlt
  have hr0 : (0 : ℝ) ≤ r := by positivity
  have hprod : |(T : ℝ) * (x2 / 2 ^ 200) - t * X| ≤ 2 + 5 / 2 * e := by
    have h1 : |(T : ℝ) * (x2 / 2 ^ 200 - X)| ≤ 2 := by
      rw [abs_mul, abs_of_nonneg hT0]
      calc (T : ℝ) * |(x2 : ℝ) / 2 ^ 200 - X| ≤ 2 * 2 ^ 200 * (1 / 2 ^ 200) :=
            mul_le_mul hT hx (abs_nonneg _) (by positivity)
        _ = 2 := by norm_num
    have h2 : |((T : ℝ) - t) * X| ≤ 5 / 2 * e := by
      rw [abs_mul, abs_of_nonneg hX0, mul_comm]
      exact mul_le_mul hX ht (abs_nonneg _) (by norm_num)
    calc |(T : ℝ) * (x2 / 2 ^ 200) - t * X|
        = |(T : ℝ) * (x2 / 2 ^ 200 - X) + ((T : ℝ) - t) * X| := by congr 1; ring
      _ ≤ 2 + 5 / 2 * e := (abs_add_le _ _).trans (add_le_add h1 h2)
  have hq : (q : ℝ) - t * X / ((k + 1) * (k + 2))
      = (T * (x2 / 2 ^ 200) - t * X) / ((k + 1) * (k + 2))
        - r / (2 ^ 200 * ((k + 1) * (k + 2))) := by
    field_simp
    linarith
  rw [hq]
  refine (abs_sub _ _).trans (add_le_add ?_ ?_)
  · rw [abs_div, abs_of_pos hm]
    exact div_le_div_of_nonneg_right hprod hm.le
  · rw [abs_of_nonneg (by positivity), div_le_one (by positivity)]
    exact hlt'.le

/-- The whole series from a term of degree at least 1: three units of error a term. -/
theorem fixSeries_error {X : ℝ} {x2 : ℕ} (hX0 : 0 ≤ X) (hX : X ≤ 5 / 2)
    (hx : |(x2 : ℝ) / 2 ^ 200 - X| ≤ 1 / 2 ^ 200) (hx2 : 2 * x2 ≤ 5 * 2 ^ 200) (fuel : ℕ) :
    ∀ (k T : ℕ) (t : ℝ), 1 ≤ k → T ≤ 2 * 2 ^ 200 → |(T : ℝ) - t| ≤ 3 →
      |(fixSeries x2 fuel k T : ℝ) - exactSeries X fuel k t| ≤ 3 * fuel := by
  induction fuel with
  | zero => intro k T t _ _ _; simp [fixSeries, exactSeries]
  | succ fuel ih =>
    intro k T t hk hT ht
    have h := fixTerm_error (k := k) hX0 hX hx (by exact_mod_cast hT) ht
    have hm : (6 : ℝ) ≤ (k + 1) * (k + 2) := by
      have : (1 : ℝ) ≤ k := by exact_mod_cast hk
      nlinarith
    have h3 : (2 + 5 / 2 * 3) / (((k : ℝ) + 1) * (k + 2)) + 1 ≤ 3 := by
      have : (2 + 5 / 2 * 3) / (((k : ℝ) + 1) * (k + 2)) ≤ 2 := by
        rw [div_le_iff₀ (by linarith)]; linarith
      linarith
    have hT' : T * x2 / 2 ^ fixBits / ((k + 1) * (k + 2)) ≤ 2 * 2 ^ 200 := by
      have h6 : 6 ≤ (k + 1) * (k + 2) := by nlinarith
      refine (Nat.div_le_div_left h6 (by norm_num)).trans ?_
      rw [Nat.div_div_eq_div_mul, show fixBits = 200 from rfl]
      refine Nat.div_le_of_le_mul ?_
      calc T * x2 ≤ 2 * 2 ^ 200 * x2 := Nat.mul_le_mul_right _ hT
        _ ≤ 2 ^ 200 * 6 * (2 * 2 ^ 200) := by nlinarith
    have h' := ih (k + 2) _ _ (by omega) hT' (h.trans h3)
    simp only [fixSeries, exactSeries]
    push_cast
    rw [show (T : ℝ) - (fixSeries x2 fuel (k + 2) (T * x2 / 2 ^ fixBits / ((k + 1) * (k + 2))) : ℝ)
        - (t - exactSeries X fuel (k + 2) (t * X / ((k + 1) * (k + 2))))
        = (T - t) - ((fixSeries x2 fuel (k + 2) (T * x2 / 2 ^ fixBits / ((k + 1) * (k + 2))) : ℝ)
          - exactSeries X fuel (k + 2) (t * X / ((k + 1) * (k + 2)))) by ring]
    refine (abs_sub _ _).trans ?_
    linarith

/-- The whole series from the first term of the cosine, which is exact. -/
theorem fixSeries_error_zero {X : ℝ} {x2 : ℕ} (hX0 : 0 ≤ X) (hX : X ≤ 5 / 2)
    (hx : |(x2 : ℝ) / 2 ^ 200 - X| ≤ 1 / 2 ^ 200) (hx2 : 2 * x2 ≤ 5 * 2 ^ 200) (fuel : ℕ) :
    |(fixSeries x2 (fuel + 1) 0 (2 ^ fixBits) : ℝ) - exactSeries X (fuel + 1) 0 (2 ^ 200)|
      ≤ 3 * fuel := by
  have hb : ((2 ^ fixBits : ℕ) : ℝ) = 2 ^ 200 := by
    rw [show fixBits = 200 from rfl, Nat.cast_pow, Nat.cast_ofNat]
  have h1 := fixTerm_error (k := 0) (T := 2 ^ fixBits) (t := 2 ^ 200) (e := 0) hX0 hX hx
    (by rw [hb]; linarith [show (0 : ℝ) ≤ 2 ^ 200 by positivity]) (by rw [hb, sub_self, abs_zero])
  have hT : 2 ^ fixBits * x2 / 2 ^ fixBits / ((0 + 1) * (0 + 2)) ≤ 2 * 2 ^ 200 := by
    rw [Nat.mul_div_cancel_left _ (by positivity)]
    omega
  have h2 := fixSeries_error hX0 hX hx hx2 fuel (0 + 2) _ _ (by decide) hT
    (h1.trans (by norm_num))
  rw [fixSeries, exactSeries, Int.cast_sub, Int.cast_natCast, hb, sub_sub_sub_cancel_left,
    abs_sub_comm]
  exact h2

/-- The exact series sums the alternating powers over factorials. -/
theorem exactSeries_eq (u x : ℝ) (fuel : ℕ) : ∀ k,
    exactSeries (x ^ 2) fuel k (u * x ^ k / k.factorial)
    = u * ∑ i ∈ Finset.range fuel, (-1) ^ i * x ^ (k + 2 * i) / (k + 2 * i).factorial := by
  induction fuel with
  | zero => intro k; simp [exactSeries]
  | succ fuel ih =>
    intro k
    have h : u * x ^ k / (k.factorial : ℝ) * x ^ 2 / ((k + 1) * (k + 2))
        = u * x ^ (k + 2) / ((k + 2).factorial : ℝ) := by
      rw [Nat.factorial_succ, Nat.factorial_succ]
      have : (k.factorial : ℝ) ≠ 0 := by exact_mod_cast k.factorial_ne_zero
      push_cast
      field_simp
      ring
    simp only [exactSeries]
    rw [h, ih, Finset.sum_range_succ', mul_add, Finset.mul_sum, Finset.mul_sum]
    have : ∀ i, u * ((-1) ^ (i + 1) * x ^ (k + 2 * (i + 1)) / ((k + 2 * (i + 1)).factorial : ℝ))
        = -(u * ((-1) ^ i * x ^ (k + 2 + 2 * i) / ((k + 2 + 2 * i).factorial : ℝ))) := by
      intro i
      rw [show k + 2 * (i + 1) = k + 2 + 2 * i by ring, pow_succ]
      ring
    simp only [this, Finset.sum_neg_distrib]
    simp
    ring

/-- The first 30 terms of the cosine and the sine, for angles up to 8/5. -/
theorem taylor_error {x : ℝ} (h0 : 0 ≤ x) (h : x ≤ 8 / 5) :
    |∑ i ∈ Finset.range 30, (-1) ^ i * x ^ (0 + 2 * i) / (0 + 2 * i).factorial - Real.cos x|
      ≤ 1 / 2 ^ 200 ∧
    |∑ i ∈ Finset.range 30, (-1) ^ i * x ^ (1 + 2 * i) / (1 + 2 * i).factorial - Real.sin x|
      ≤ 1 / 2 ^ 200 := by
  have hn : ‖(x : ℂ) * Complex.I‖ = x := by
    rw [norm_mul, Complex.norm_I, mul_one, Complex.norm_real, Real.norm_of_nonneg h0]
  have hb := Complex.exp_bound' (x := (x : ℂ) * Complex.I) (n := 60)
    (by rw [hn]; push_cast; linarith)
  rw [hn] at hb
  have hsum : ∀ n, ∑ m ∈ Finset.range (2 * n), ((x : ℂ) * Complex.I) ^ m / (m.factorial : ℂ)
      = ((∑ i ∈ Finset.range n, (-1) ^ i * x ^ (0 + 2 * i) / (0 + 2 * i).factorial : ℝ) : ℂ)
        + ((∑ i ∈ Finset.range n, (-1) ^ i * x ^ (1 + 2 * i) / (1 + 2 * i).factorial : ℝ) : ℂ)
          * Complex.I := by
    intro n
    induction n with
    | zero => simp
    | succ n ih =>
      rw [show 2 * (n + 1) = 2 * n + 1 + 1 by ring, Finset.sum_range_succ, Finset.sum_range_succ,
        ih,
        Finset.sum_range_succ, Finset.sum_range_succ]
      have e1 : ((x : ℂ) * Complex.I) ^ (2 * n) = (-1) ^ n * (x : ℂ) ^ (2 * n) := by
        rw [mul_pow, pow_mul Complex.I, Complex.I_sq]; ring
      rw [pow_succ, e1]
      push_cast
      rw [show 0 + 2 * n = 2 * n by ring, show 1 + 2 * n = 2 * n + 1 by ring, pow_succ]
      ring
  rw [show 60 = 2 * 30 by rfl, hsum, Complex.exp_mul_I, ← Complex.ofReal_cos, ← Complex.ofReal_sin]
    at hb
  have hsmall : x ^ (2 * 30) / ((2 * 30 : ℕ).factorial : ℝ) * 2 ≤ 1 / 2 ^ 200 := by
    have : x ^ (2 * 30) ≤ (8 / 5) ^ (2 * 30) := pow_le_pow_left₀ h0 h _
    refine (mul_le_mul_of_nonneg_right (div_le_div_of_nonneg_right this (by positivity))
      (by norm_num)).trans ?_
    norm_num [Nat.factorial]
  have hb' := hb.trans hsmall
  generalize (∑ i ∈ Finset.range 30, (-1) ^ i * x ^ (0 + 2 * i)
    / ((0 + 2 * i).factorial : ℝ)) = c at *
  generalize (∑ i ∈ Finset.range 30, (-1) ^ i * x ^ (1 + 2 * i)
    / ((1 + 2 * i).factorial : ℝ)) = s at *
  have hre := (Complex.abs_re_le_norm _).trans hb'
  have him := (Complex.abs_im_le_norm _).trans hb'
  simp at hre him
  rw [abs_sub_comm] at hre him
  constructor
  · simpa [Complex.cos_ofReal_re] using hre
  · simpa [Complex.sin_ofReal_re] using him

/-! ## The evaluation -/

/-- Squaring a fixed-point angle loses less than one unit. -/
theorem fixSquare_error (A : ℕ) :
    |((A * A / 2 ^ fixBits : ℕ) : ℝ) / 2 ^ 200 - (A / 2 ^ 200) ^ 2| ≤ 1 / 2 ^ 200 := by
  rw [show fixBits = 200 from rfl]
  have hfl := Nat.div_add_mod (A * A) (2 ^ 200)
  have hlt := Nat.mod_lt (A * A) (show 0 < 2 ^ 200 by positivity)
  generalize A * A / 2 ^ 200 = q at *
  generalize A * A % 2 ^ 200 = r at *
  have hfl' : (2 ^ 200 : ℝ) * q + r = A * A := by exact_mod_cast hfl
  have hlt' : (r : ℝ) < 2 ^ 200 := by exact_mod_cast hlt
  have h : (q : ℝ) / 2 ^ 200 - (A / 2 ^ 200) ^ 2 = -(r / 2 ^ 200 / 2 ^ 200) := by
    field_simp
    linarith
  rw [h, abs_neg, abs_of_nonneg (by positivity)]
  refine div_le_div_of_nonneg_right ?_ (by positivity)
  rw [div_le_one (by positivity)]
  exact hlt'.le

/-- `fixCos` and `fixSin` at a fixed-point angle up to 79/50: within 91 units of 2^-200. -/
theorem fixCos_fixSin_error {A : ℕ} (hA : 50 * A ≤ 79 * 2 ^ 200) :
    |(fixCos A : ℝ) / 2 ^ 200 - Real.cos (A / 2 ^ 200)| ≤ 91 / 2 ^ 200 ∧
      |(fixSin A : ℝ) / 2 ^ 200 - Real.sin (A / 2 ^ 200)| ≤ 91 / 2 ^ 200 := by
  have hA' : (A : ℝ) / 2 ^ 200 ≤ 79 / 50 := by
    rw [div_le_div_iff₀ (by positivity) (by norm_num)]
    have : (50 * A : ℝ) ≤ 79 * 2 ^ 200 := by exact_mod_cast hA
    linarith
  have hA0 : (0 : ℝ) ≤ A / 2 ^ 200 := by positivity
  have hx := fixSquare_error A
  have hX : ((A : ℝ) / 2 ^ 200) ^ 2 ≤ 5 / 2 := by nlinarith
  have hX0 : (0 : ℝ) ≤ (A / 2 ^ 200) ^ 2 := by positivity
  have hx2 : 2 * (A * A / 2 ^ fixBits) ≤ 5 * 2 ^ 200 := by
    rw [show fixBits = 200 from rfl]
    have h1 : 2500 * (A * A) ≤ 2500 * (5 * 2 ^ 199 * 2 ^ 200) := by nlinarith
    have h2 : A * A / 2 ^ 200 ≤ 5 * 2 ^ 199 :=
      Nat.div_le_of_le_mul (by linarith [Nat.le_of_mul_le_mul_left h1 (by decide)])
    omega
  have tay := taylor_error hA0 (hA'.trans (by norm_num))
  generalize hx2' : A * A / 2 ^ fixBits = x2 at *
  generalize hxr : (A : ℝ) / 2 ^ 200 = x at *
  have hAx : (A : ℝ) = 2 ^ 200 * x := by rw [← hxr]; field_simp
  have e0 := exactSeries_eq (2 ^ 200) x 30 0
  have e1 := exactSeries_eq (2 ^ 200) x 30 1
  rw [Nat.factorial_zero, Nat.cast_one, div_one, pow_zero, mul_one] at e0
  rw [Nat.factorial_one, Nat.cast_one, div_one, pow_one] at e1
  have scale : ∀ {F : ℤ} {E S C : ℝ}, |(F : ℝ) - E| ≤ 90 → E = 2 ^ 200 * S → |S - C| ≤ 1 / 2 ^ 200 →
      |(F : ℝ) / 2 ^ 200 - C| ≤ 91 / 2 ^ 200 := by
    intro F E S C h1 h2 h3
    have : (F : ℝ) / 2 ^ 200 - C = (F - E) / 2 ^ 200 + (S - C) := by rw [h2]; field_simp; ring
    rw [this]
    refine (abs_add_le _ _).trans ?_
    rw [abs_div, abs_of_pos (show (0 : ℝ) < 2 ^ 200 by positivity)]
    have := div_le_div_of_nonneg_right h1 (show (0 : ℝ) ≤ 2 ^ 200 by positivity)
    calc |(F : ℝ) - E| / 2 ^ 200 + |S - C| ≤ 90 / 2 ^ 200 + 1 / 2 ^ 200 := add_le_add this h3
      _ = 91 / 2 ^ 200 := by ring
  constructor
  · refine scale ?_ e0 tay.1
    have h2 := fixSeries_error_zero hX0 hX hx hx2 29
    unfold fixCos
    rw [hx2']
    exact h2.trans (by norm_num)
  · refine scale ?_ e1 tay.2
    have hT : A ≤ 2 * 2 ^ 200 := by omega
    have h2 := fixSeries_error hX0 hX hx hx2 30 1 A (2 ^ 200 * x) (by decide) hT
      (by rw [hAx]; simp)
    unfold fixSin
    rw [hx2']
    exact h2.trans (by norm_num)

/-- The fixed-point angle of a quarter turn or less: within two units, and at most 79/50. -/
theorem fixAngle_error {D k : ℕ} (hk : 4 * k ≤ 2 ^ D) :
    |(fixAngle D k : ℝ) / 2 ^ 200 - 2 * Real.pi * k / 2 ^ D| ≤ 2 / 2 ^ 200 ∧
      50 * fixAngle D k ≤ 79 * 2 ^ 200 := by
  have hD : (0 : ℝ) < 2 ^ D := by positivity
  have hk' : (4 * k : ℝ) ≤ 2 ^ D := by exact_mod_cast hk
  have hpi := fixPi_error
  constructor
  · have hfl := Nat.div_add_mod (2 * fixPi * k) (2 ^ D)
    have hlt := Nat.mod_lt (2 * fixPi * k) (show 0 < 2 ^ D by positivity)
    unfold fixAngle
    generalize 2 * fixPi * k / 2 ^ D = q at *
    generalize 2 * fixPi * k % 2 ^ D = r at *
    have hfl' : (2 ^ D : ℝ) * q + r = 2 * fixPi * k := by exact_mod_cast hfl
    have hlt' : (r : ℝ) < 2 ^ D := by exact_mod_cast hlt
    have hq : (q : ℝ) / 2 ^ 200 - 2 * Real.pi * k / 2 ^ D
        = (2 * k / 2 ^ D * (fixPi - Real.pi * 2 ^ 200) - r / 2 ^ D) / 2 ^ 200 := by
      have : (q : ℝ) = (2 * fixPi * k - r) / 2 ^ D := by rw [eq_div_iff hD.ne']; linarith
      rw [this]
      generalize (fixPi : ℝ) = P
      field_simp
      ring
    rw [hq, abs_div, abs_of_pos (show (0 : ℝ) < 2 ^ 200 by positivity)]
    refine div_le_div_of_nonneg_right ?_ (by positivity)
    have h1 : |2 * (k : ℝ) / 2 ^ D * (fixPi - Real.pi * 2 ^ 200)| ≤ 1 := by
      rw [abs_mul, abs_of_nonneg (by positivity)]
      refine mul_le_one₀ ?_ (abs_nonneg _) hpi
      rw [div_le_one hD]; linarith
    have h2 : |(r : ℝ) / 2 ^ D| ≤ 1 := by
      rw [abs_of_nonneg (by positivity), div_le_one hD]; exact hlt'.le
    linarith [abs_sub (2 * (k : ℝ) / 2 ^ D * (fixPi - Real.pi * 2 ^ 200)) ((r : ℝ) / 2 ^ D)]
  · have : fixAngle D k ≤ fixPi / 2 := by
      unfold fixAngle
      refine Nat.div_le_of_le_mul ?_
      have h2 : 2 * (fixPi / 2) = fixPi := by decide +kernel
      nlinarith
    have h3 : 50 * (fixPi / 2) ≤ 79 * 2 ^ 200 := by decide +kernel
    omega

/-- `fixRound` of a value v · 2^-200 of magnitude at most 2: finite, and within half the spacing of
the result's exponent. -/
theorem fixRound_error {v : ℤ} (hv : |v| ≤ 2 * 2 ^ 200) : isFinite (fixRound v) = true ∧
    |(units (fixRound v) : ℝ) / 2 ^ 1074 - (v : ℝ) / 2 ^ 200|
      ≤ 2 ^ max 1 (fexp (fixRound v)) / 2 ^ 1076 := by
  have hf : isFinite (fixRound v) = true := by
    refine isFinite_rn false (e := 200 + (2148 - fixBits)) ?_ (by decide)
    rw [Int.natAbs_mul, Int.natAbs_natCast, pow_add, ← Nat.mul_assoc]
    refine Nat.mul_lt_mul_of_pos_right ?_ (by positivity)
    have := abs_le.1 hv
    omega
  refine ⟨hf, ?_⟩
  have h := rn_error (z := false) (x := v * ((2 ^ (2148 - fixBits) : ℕ) : ℤ)) hf
  change 2 * |units (fixRound v) * unitQuanta - _| ≤ 2 ^ (max 1 (fexp (fixRound v)) + 1073) at h
  generalize units (fixRound v) = u at *
  generalize max 1 (fexp (fixRound v)) = e at *
  have h' : 2 * |(u : ℝ) * 2 ^ 1074 - v * 2 ^ 1948| ≤ 2 ^ e * 2 ^ 1073 := by
    rw [← pow_add]
    have : ((2 * |u * unitQuanta - v * ((2 ^ (2148 - fixBits) : ℕ) : ℤ)| : ℤ) : ℝ)
        ≤ ((2 ^ (e + 1073) : ℤ) : ℝ) := Int.cast_le.2 h
    rw [show unitQuanta = ((2 ^ 1074 : ℕ) : ℤ) from rfl, show 2148 - fixBits = 1948 from rfl,
      Int.cast_mul, Int.cast_abs, Int.cast_sub, Int.cast_mul, Int.cast_mul, Int.cast_natCast,
      Int.cast_natCast, Nat.cast_pow, Nat.cast_pow, Int.cast_pow] at this
    simpa only [Int.cast_ofNat, Nat.cast_ofNat] using this
  have p1 : (2 : ℝ) ^ 1074 = 2 ^ 1073 * 2 := pow_succ 2 1073
  have p2 : (2 : ℝ) ^ 1076 = 2 ^ 1073 * 8 := by rw [pow_add 2 1073 3]; norm_num
  have p3 : (2 : ℝ) ^ 1948 * 2 ^ 200 = 2 ^ 1074 * 2 ^ 1074 := by rw [← pow_add, ← pow_add]
  have q1 : (0 : ℝ) < 2 ^ 1073 := by positivity
  have q2 : (0 : ℝ) < 2 ^ 1948 := by positivity
  have q3 : (0 : ℝ) < 2 ^ 200 := by positivity
  have q4 : (0 : ℝ) < 2 ^ e := by positivity
  rw [p1] at h' p3
  rw [p1, p2]
  clear p1 p2 h hf
  generalize (2 : ℝ) ^ 1073 = P at *
  generalize (2 : ℝ) ^ 1948 = Q at *
  generalize (2 : ℝ) ^ 200 = R at *
  generalize (2 : ℝ) ^ e = E at *
  have hd : (u : ℝ) / (P * 2) - v / R = (u * (P * 2) - v * Q) / (P * 2 * (P * 2)) := by
    have hQ : Q = P * 2 * (P * 2) / R := by rw [eq_div_iff q3.ne']; linarith
    rw [hQ]
    field_simp
  rw [hd, abs_div, abs_of_pos (show 0 < P * 2 * (P * 2) by positivity),
    div_le_div_iff₀ (by positivity) (by positivity)]
  nlinarith [mul_le_mul_of_nonneg_right h' (show 0 ≤ 4 * P by positivity)]

end Sys2Proof
end

