-- ==== Sys2Proof/Tests/Slice0.lean ====
section
/-! SUPPORT. The model's own tests, each a named theorem. Expected values are the spec's: the
vectors of 95_test_vectors.md (named E.., A.., X.., V..), and words written out from 30_encoding.md.
Then, for every obligation with hypotheses, a witness that meets them together. -/

namespace Sys2Proof.Tests

open Sys2Proof Sys2Proof.Machine

/-! ## Well-formedness refuses ill-formed terms -/

theorem test_wf_legal_builds : Build.ref.wellFormed = true ∧ Build.tst.wellFormed = true := by decide

theorem test_wf_dmax :
    { Build.ref with dmax := 0 }.wellFormed = false ∧
      { Build.ref with dmax := 17, log2FmaThreshold := 16 }.wellFormed = false := by decide

theorem test_wf_lanes :
    { Build.ref with log2Lanes := 8, log2FmaThreshold := 8 }.wellFormed = false := by decide

theorem test_wf_workers :
    { Build.ref with workers := 0 }.wellFormed = false ∧
      { Build.ref with workers := 256 }.wellFormed = false := by decide

theorem test_wf_threshold :
    { Build.ref with log2FmaThreshold := 1 }.wellFormed = false ∧
      { Build.ref with log2FmaThreshold := 17 }.wellFormed = false := by decide

theorem test_wf_base : { Build.ref with base := 0x40000004 }.wellFormed = false := by decide

/-- An image of one entry is legal only for DMAX = 1, with components in [-1, 1]. -/
theorem test_wf_rom :
    (RomContents.image [⟨0x3FF0000000000000, 0xBFF0000000000000⟩]).wellFormed 1 = true ∧
    (RomContents.image [⟨0x3FF0000000000000, 0xBFF0000000000000⟩]).wellFormed 2 = false ∧
    (RomContents.image [⟨0x3FF0000000000001, 0⟩]).wellFormed 1 = false ∧
    (RomContents.image [⟨0, 0xFFF0000000000000⟩]).wellFormed 1 = false := by decide

theorem test_wf_input :
    (Input.read 0 0).wellFormed = false ∧ (Input.write 0 0 0).wellFormed = false ∧
      (Input.write 0 4 0x100000000).wellFormed = false ∧
      (Input.write 0 4 0xFFFFFFFF).wellFormed = true := by decide

/-! ## Decoding: words written out bit by bit from 30_encoding.md R101, R104, R105 -/

theorem test_decode_nop :
    decodeWord 0b00000000000000000000000000000000 = .ok .nop := by decide

theorem test_decode_config :
    decodeWord 0b00000000000000000000000000010001 = .ok (.config true false false) ∧
      decodeWord 0b00000000000000000000000000100001 = .ok (.config false true false) ∧
      decodeWord 0b00000000000000000000000001000001 = .ok (.config false false true) := by decide

theorem test_decode_dft :
    decodeWord 0b00000000000000000000000000000010 = .ok .dft := by decide

theorem test_decode_idft :
    decodeWord 0b00000000000000000000000000000011 = .ok .idft := by decide

/-- Byte order (20_memory.md R77): the first byte holds OP. -/
theorem test_decode_bytes :
    decodeBytes [0x71, 0x00, 0x00, 0x00, 0xAA] = .ok (.config true true true, [0xAA]) ∧
      decodeBytes [0x02, 0x00, 0x00] = .error .truncated := by decide

theorem test_decode_illegal :
    decodeWord 0x00000004 = .error .reservedOp ∧ decodeWord 0x0000000F = .error .reservedOp ∧
      decodeWord 0x00000012 = .error .reservedBits ∧
      decodeWord 0x80000001 = .error .reservedBits ∧
      decodeWord 0x00000010 = .error .reservedBits := by decide

theorem test_decode_table_word :
    decodeTableWord 32 0x00000002 = some .dft ∧ decodeTableWord 32 0x00000012 = none ∧
      decodeTableWord 8 0x00000102 = some .dft := by decide

/-! ## Commands (95_test_vectors.md section 6) -/

/-- The next state of one step. -/
def next (s : State) : State :=
  match step s with
  | .next t => t
  | .fault _ => s
  | .refused _ => s

/-- One input's step. -/
def on (s : State) (i : Input) : State := next { s with inputs := [i] }

/-- The state after a CMD write with ARG holding `arg`. -/
def cmd (s : State) (arg w : Word) : State := on { s with arg := arg } (commandWrite s.build w)

/-- A configured state of depth d. -/
def conf (b : Build) (d : Nat) : State :=
  { State.powerOn b with n := 2 ^ d, d := d, status := { Status.reset with cfgValid := true } }

/-- The state "cfg" of section 6: REF, WINDOW_SIZE 8. -/
def cfg8 : State := conf Build.ref 3

/-- A running transform of depth d in a phase. -/
def running (b : Build) (d : Nat) (q : Machine.Seq) (dir : Bool) : State :=
  { conf b d with
    seq := q, status := { Status.reset with cfgValid := true, busy := true, dir := dir } }

theorem test_e1_nop : (cmd State.reset 9 0x00000000).status.word = 0x00000000 := by decide

theorem test_e2_dft_not_configured : (cmd State.reset 4 0x00000002).status.word = 0x00000304 := by
  decide

theorem test_e3_config :
    let t := cmd State.reset 4 0x00000021
    t.status.word = 0x00000010 ∧ t.n = 4 ∧ t.d = 2 ∧ t.cfg.word = 0x2 := by decide

theorem test_e6_config_negative :
    let t := cmd State.reset 0xFFFFFFFF 0x00000001
    t.status.word = 0x00000104 ∧ t.n = 0 := by decide

theorem test_e11_dft_accepted :
    let t := cmd cfg8 8 0x00000002
    t.status.word = 0x00000011 ∧ t.seq.word = 0x00000001 := by decide

theorem test_e12_idft_accepted : (cmd cfg8 8 0x00000003).status.word = 0x00000031 := by decide

theorem test_e19_illegal_before_busy :
    (cmd (running Build.ref 3 ⟨.copy, 0⟩ false) 8 0x00000005).status.word = 0x00000515 := by decide

theorem test_e20_first_error_kept :
    let s := { cfg8 with status := { cfg8.status with err := true, errcode := .sizeMismatch } }
    (cmd s 6 0x00000001).status.word = 0x00000204 ∧
      (on s (.write (0x40000000 + 0x00C) 4 0x00000004)).status.word = 0x00000010 := by decide

/-- The host's way in: a word placed on the reset state is the very next step's command. -/
theorem test_step_runs_placed_word :
    (next (State.reset.withFetchWord 32 0x00000003)).status.word = 0x00000304 := by decide

/-! ## The bus (section 7) -/

/-- A 4-byte read at an offset: the response and STATUS. -/
def rd (s : State) (off : Nat) : Option BusResp × Word :=
  let t := on s (.read (s.build.base + off) 4)
  (t.resp, t.status.word)

theorem test_a1_cap : rd State.reset 0x000 = (some (.okay (some 0x0031044C)), 0) := by decide

theorem test_a7_unused_register : rd State.reset 0x024 = (some (.error (some 0)), 8) := by decide

theorem test_a12_a14_holes :
    rd State.reset 0x110000 = (some (.error (some 0)), 8) ∧
      rd State.reset 0x308000 = (some (.error (some 0)), 8) := by decide

theorem test_a13_rom : rd State.reset 0x307FFC = (some (.okay (some 0xBF5921FA)), 0) := by
  decide +kernel

theorem test_a9_one_byte_read :
    (on State.reset (.read (0x40000000 + 0x008) 1)).status.word = 8 := by decide

theorem test_a16_bank_while_busy :
    rd (running Build.ref 3 ⟨.copy, 0⟩ false) 0x100000 = (some (.error (some 0)), 0x00000019) := by decide

theorem test_a21_bank_write_then_read :
    rd (State.reset.writeWord 0x100000 0x11111111) 0x100000 =
      (some (.okay (some 0x11111111)), 0) := by decide +kernel

/-! ## The index generator (section 3: d = 3, p = 2, j = 7 and p = 3, j = 5) -/

theorem test_index_gen :
    indexGen 3 2 7 = ⟨true, 2, 5, 7⟩ ∧ indexGen 3 3 5 = ⟨true, 1, 2, 3⟩ ∧
      indexGen 3 3 2 = ⟨false, 2, 4, 5⟩ := by decide

/-! ## A Host that polls for ever (70_reset_and_hazards.md R292) -/

/-- The Engine has its turn, and then the poll comes again. -/
theorem test_poll_forever :
    let s := HostProgram.pollForever 0x00C (running Build.ref 0 ⟨.scale, 0⟩ true)
    (next s).status.word = 0x00000032 ∧ (next s).inputs = [.read 0x4000000C 4] ∧
      (next (next s)).inputs = [] ∧
      (next (next s)).resp = some (.okay (some 0x00000032)) := by decide

/-! ## The ROM (section 2) -/

theorem test_rom_tst :
    Build.tst.romEntry 1 = ⟨0x3FED906BCF328D46, 0xBFD87DE2A6AEA963⟩ ∧
      Build.tst.romEntry 7 = ⟨0xBFED906BCF328D46, 0xBFD87DE2A6AEA963⟩ := by decide +kernel

theorem test_rom_ref :
    Build.ref.romEntry 341 = ⟨0x3FEBB892D5D5DAD5, 0xBFDFF8BE6537615F⟩ ∧
      Build.ref.romEntry 2047 = ⟨0xBFEFFFFD88586EE6, 0xBF5921FAAEE6472E⟩ := by decide +kernel

/-- R136: the conjugate at c = 0 is (1, -0). -/
theorem test_coef_idft : Build.tst.coef 4 0 true = ⟨0x3FF0000000000000, 0x8000000000000000⟩ := by
  decide +kernel

/-! ## CMAC (section 4) -/

def draw0 (_ : Nat) : BitVec 52 := 0

/-- V4, V5: signs of zero results. -/
theorem test_v4_v5_zero_signs :
    cmacU draw0 ⟨0x8000000000000000, 0x8000000000000000⟩ ⟨0, 0⟩ ⟨0x3FF0000000000000, 0⟩ true
      = ⟨0x8000000000000000, 0x8000000000000000⟩ ∧
    cmacF draw0 ⟨0x8000000000000000, 0x8000000000000000⟩ ⟨0, 0⟩ ⟨0x3FF0000000000000, 0⟩ true
      = ⟨0, 0x8000000000000000⟩ ∧
    cmacF draw0 ⟨0x8000000000000000, 0x8000000000000000⟩ ⟨0, 0⟩
      ⟨0x3FF0000000000000, 0x8000000000000000⟩ true = ⟨0x8000000000000000, 0⟩ := by decide +kernel

/-- V6: overflow to infinity. -/
theorem test_v6_overflow :
    cmacU draw0 ⟨0x7FEFFFFFFFFFFFFF, 0⟩ ⟨0x7FEFFFFFFFFFFFFF, 0⟩ ⟨0x3FF0000000000000, 0⟩ false
      = ⟨0x7FF0000000000000, 0⟩ := by decide +kernel

/-- V7: infinity times zero is a NaN, in one component only. -/
theorem test_v7_nan :
    let y := cmacU draw0 ⟨0x3FF0000000000000, 0x3FF0000000000000⟩ ⟨0x7FF0000000000000, 0⟩
      ⟨0, 0xBFF0000000000000⟩ false
    isNaN y.re = true ∧ y.im = 0xFFF0000000000000 := by decide +kernel

/-- V9: a subnormal sum is exact. -/
theorem test_v9_subnormal :
    cmacF draw0 ⟨1, 0⟩ ⟨1, 0⟩ ⟨0x3FF0000000000000, 0⟩ false = ⟨2, 0⟩ := by decide +kernel

/-- V10: the two forms differ in the last bit of im. -/
theorem test_v10_forms_differ :
    cmacU draw0 ⟨0x3FF0000000000000, 0⟩ ⟨0x3FF0000000000000, 0x4008000000000000⟩
      ⟨0x3FE6A09E667F3BCD, 0xBFE6A09E667F3BCD⟩ true = ⟨0xBFFD413CCCFE779A, 0xBFF6A09E667F3BCE⟩ ∧
    cmacF draw0 ⟨0x3FF0000000000000, 0⟩ ⟨0x3FF0000000000000, 0x4008000000000000⟩
      ⟨0x3FE6A09E667F3BCD, 0xBFE6A09E667F3BCD⟩ true = ⟨0xBFFD413CCCFE779A, 0xBFF6A09E667F3BCD⟩ := by
  decide +kernel

/-- Section 5.5: the corners of SCALE. -/
theorem test_scale_corners :
    fmul 0 0x0000000000000003 (twoToMinus 1) = 0x0000000000000002 ∧
      fmul 0 0x8000000000000001 (twoToMinus 1) = 0x8000000000000000 ∧
      fmul 0 0x7FF0000000000000 (twoToMinus 2) = 0x7FF0000000000000 := by decide +kernel

/-! ## The Engine (sections 1.2 and 5) -/

theorem test_phase_list :
    phaseList 3 false = [⟨.copy, 0⟩, ⟨.bfly, 1⟩, ⟨.bfly, 2⟩, ⟨.bfly, 3⟩] ∧
      phaseList 2 true = [⟨.bfly, 1⟩, ⟨.bfly, 2⟩, ⟨.scale, 0⟩] ∧ phaseList 0 false = [] := by decide

/-- The N = 2 transform of section 1.2, COPY done: B1 holds the signal, stage 1 writes B0. -/
def n2 : State :=
  (running Build.ref 1 ⟨.bfly, 1⟩ false).writeEntry 1 0 ⟨0x3FFB333333333333, 0x400999999999999A⟩
    |>.writeEntry 1 1 ⟨0xC002666666666666, 0x3FF999999999999A⟩

theorem test_n2_stage :
    let t := on n2 .engine
    t.readEntry 0 0 0 = ⟨0xBFE3333333333332, 0x4013333333333334⟩ ∧
      t.readEntry 0 1 0 = ⟨0x4010000000000000, 0x3FF999999999999A⟩ ∧
      t.status.word = 0x00000012 ∧ t.seq.word = 0 := by decide +kernel

/-- SCALE at N = 2 halves: 4.0 becomes 2.0. -/
theorem test_scale_step :
    (on (((running Build.ref 1 ⟨.scale, 0⟩ true).writeEntry 0 0
        ⟨0x4010000000000000, 0x4010000000000000⟩).writeEntry 0 1 ⟨0, 0⟩) .engine).readEntry 0 0 0
      = ⟨0x4000000000000000, 0x4000000000000000⟩ := by decide +kernel

/-- X3: a reset while BUSY loses the entries of the transform and keeps the others. -/
theorem test_x3_reset_while_busy :
    let s := ((running Build.ref 2 ⟨.bfly, 1⟩ false).writeEntry 0 0 ⟨1, 1⟩).writeEntry 0 4 ⟨9, 9⟩
    let t := on s (.reset false)
    t.status.word = 0 ∧ Memory.get t.mem 0x100000 = none ∧ t.readEntry 0 4 0 = ⟨9, 9⟩ := by
  decide +kernel

/-! ## Witnesses: for each obligation with hypotheses, values that meet them together -/

/-- A state with these inputs to come. -/
def ask (s : State) (l : List Input) : State := { s with inputs := l }

/-- A state with this ARG. -/
def arg (s : State) (v : Word) : State := { s with arg := v }

/-- TST's running N = 16 transform in stage 4 of 4. -/
def lastStage : State := running Build.tst 4 ⟨.bfly, 4⟩ false

/-- No power of two is 3. -/
theorem three_ne_two_pow (k : Nat) : (3 : Int) ≠ 2 ^ k := by
  rcases k with _ | _ | k
  · decide
  · decide
  · intro h
    rw [pow_succ, pow_succ] at h
    omega

theorem witness_ExactlyOneRowMatchesOrNone :
    rowIdft ∈ opcodeMap ∧ rowIdft.hits 3 = true ∧ decodeWord 0x71 = .ok (.config true true true) ∧
      (∃ r ∈ opcodeMap, r.hits 0x71 = true) := by decide

theorem witness_IllegalWordsRejectedInEveryState :
    decodeWord 0x4 = .error .reservedOp ∧ decodeWord 0x81 = .error .reservedBits ∧
      decodeWord 0x10 = .error .reservedBits := by decide

/-- A legal word, an illegal one, the Engine's turn, and a list used up. -/
theorem witness_StepRunsDecodedCommand :
    (let s := ask State.reset [.write (0x40000000 + 0x004) 4 0x71]
     s.build.base % 0x400000 = 0 ∧ s.inputs = .write (s.build.base + 0x004) 4 0x71 :: [] ∧
      decodeWord (BitVec.ofNat 32 0x71) = .ok (.config true true true) ∧
      decodeTableWord 32 0x71 = some (.config true true true)) ∧
    (let s := ask State.reset [.write (0x40000000 + 0x004) 4 0x12]
     s.inputs = .write (s.build.base + 0x004) 4 0x12 :: [] ∧
      decodeWord (BitVec.ofNat 32 0x12) = .error .reservedBits) ∧
    (ask lastStage [.engine]).inputs = .engine :: [] ∧ State.reset.inputs = [] := by decide

theorem witness_NopCompletesAndChangesNothing :
    (0x10 : Word).toNat % 16 = 0 ∧ (0x10 : Word) ≠ 0x00000000 ∧
      (0x80000000 : Word).toNat % 16 = 0 := by decide

/-- The three cases of CONFIG; the first at the smallest and the largest size of TST. -/
theorem witness_ConfigInEachCase :
    (let s := arg (State.powerOn Build.tst) 1
     s.status.busy = false ∧ 0 ≤ s.build.dmax ∧ s.arg.toInt = 2 ^ 0) ∧
    (let s := arg (State.powerOn Build.tst) 16
     s.status.busy = false ∧ 4 ≤ s.build.dmax ∧ s.arg.toInt = 2 ^ 4) ∧
    (let s := arg (State.powerOn Build.tst) 32
     s.status.busy = false ∧ ∀ k, k ≤ s.build.dmax → s.arg.toInt ≠ 2 ^ k) ∧
    lastStage.status.busy = true := by decide

theorem witness_InvalidSizesAreRejected :
    State.reset.status.busy = false ∧ State.reset.status.err = false ∧
      (arg State.reset 0).arg.toInt ≤ 0 ∧ (arg State.reset 0x80000000).arg.toInt ≤ 0 ∧
      (∀ k : Nat, (arg State.reset 3).arg.toInt ≠ 2 ^ k) ∧
      (State.reset.build.dmax < 13 ∧ (arg State.reset 8192).arg.toInt = 2 ^ 13) :=
  ⟨rfl, rfl, by decide, by decide, three_ne_two_pow, by decide⟩

/-- Depths 1, 4 and 0. -/
theorem witness_DftAcceptedStartsTransform :
    (let s := arg (conf Build.tst 1) 2
     s.status.busy = false ∧ s.status.cfgValid = true ∧ s.arg.toInt = (s.n : Int) ∧ 1 ≤ s.d) ∧
    (let s := arg (conf Build.tst 4) 16
     s.status.busy = false ∧ s.status.cfgValid = true ∧ s.arg.toInt = (s.n : Int) ∧ 1 ≤ s.d) ∧
    (let s := arg (conf Build.tst 0) 1
     s.status.busy = false ∧ s.status.cfgValid = true ∧ s.arg.toInt = (s.n : Int) ∧ s.d = 0) := by
  decide

theorem witness_IdftAcceptedStartsTransform :
    (let s := arg (conf Build.tst 0) 1
     s.status.busy = false ∧ s.status.cfgValid = true ∧ s.arg.toInt = (s.n : Int)) ∧
    (let s := arg (conf Build.tst 3) 8
     s.status.busy = false ∧ s.status.cfgValid = true ∧ s.arg.toInt = (s.n : Int)) := by decide

/-- One state and word for each clause, in order. -/
theorem witness_FirstFailingCheckDecides :
    decodeWord 0x12 = .error .reservedBits ∧ decodeWord 0x0 = .ok .nop ∧
    (decodeWord 0x1 = .ok (.config false false false) ∧ lastStage.status.busy = true) ∧
    (decodeWord 0x2 = .ok .dft ∧ lastStage.status.busy = true) ∧
    (decodeWord 0x3 = .ok .idft ∧ State.reset.status.busy = false ∧
      State.reset.status.cfgValid = false) ∧
    (cfg8.status.busy = false ∧ cfg8.status.cfgValid = true ∧
      (arg cfg8 4).arg.toInt ≠ (cfg8.n : Int)) ∧
    (cfg8.status.busy = false ∧
      ∀ k, k ≤ cfg8.build.dmax → (arg cfg8 6).arg.toInt ≠ 2 ^ k) := by decide

theorem witness_CommandFrame :
    exec .idft cfg8 = .next (cmdError .sizeMismatch cfg8) ∧
      exec (.config true false false) lastStage = .next (cmdError .busy lastStage) := ⟨rfl, rfl⟩

theorem witness_FirstErrorCodeIsKept :
    (let s := ask (cmdError .busy cfg8) [.write (0x40000000 + 0x00C) 4 0xA]
     s.build.base % 0x400000 = 0 ∧ s.status.err = true ∧ (∀ p, inputOf s ≠ .reset p) ∧
      (∀ v, writes s 0x00C v → v.testBit 2 = false) ∧ ∃ t, step s = .next t) ∧
    execute 0x12 (cmdError .busy cfg8) = .next (cmdError .illegalCmd (cmdError .busy cfg8)) ∧
      (cmdError .busy cfg8).status.err = true ∧ cfg8.status.err = false := by
  refine ⟨⟨rfl, rfl, by decide, fun v h => ?_, _, rfl⟩, rfl, rfl, rfl⟩
  obtain rfl : 0xA = v := by injection h
  rfl

theorem witness_StatusWriteClearsFlags :
    let s := ask cfg8 [.write (0x40000000 + 0x00C) 4 0xE]
    s.build.base % 0x400000 = 0 ∧ s.inputs = .write (s.build.base + 0x00C) 4 0xE :: [] := by decide

theorem witness_StatusReadShowsFlags :
    let s := ask cfg8 [.read (0x40000000 + 0x00C) 4]
    s.build.base % 0x400000 = 0 ∧ s.inputs = .read (s.build.base + 0x00C) 4 :: [] := by decide

theorem witness_CapReportsBuild :
    let s := ask cfg8 [.read (0x40000000 + 0x000) 4]
    s.build.wellFormed = true ∧ s.inputs = .read (s.build.base + 0x000) 4 :: [] := by decide

/-- The last register of the list; the others differ in the offset only. -/
theorem witness_RegisterReadsReturnRegisters :
    ∀ off ∈ [0x004, 0x008, 0x010, 0x014, 0x018, 0x01C, 0x020],
      let s := ask lastStage [.read (0x40000000 + off) 4]
      s.build.base % 0x400000 = 0 ∧ s.n < 2 ^ 32 ∧ s.d < 2 ^ 5 ∧ s.seq.p < 2 ^ 5 ∧
        s.inputs = .read (s.build.base + off) 4 :: [] := by decide

theorem witness_RegisterWritesStoreOrAreIgnored :
    ∀ off ∈ [0x008, 0x020, 0x000, 0x010, 0x014, 0x018, 0x01C],
      let s := ask lastStage [.write (0x40000000 + off) 4 0xFFFFFFFF]
      s.build.base % 0x400000 = 0 ∧
        s.inputs = .write (s.build.base + off) 4 0xFFFFFFFF :: [] := by decide

theorem witness_InterruptLevelFollowsFlags :
    (∃ t, step (ask lastStage [.reset false]) = .next t) ∧
    (let s := ask lastStage [.write (0x40000000 + 0x00C) 4 0xE]
     s.build.base % 0x400000 = 0 ∧ s.inputs = .write (s.build.base + 0x00C) 4 0xE :: [] ∧
      ∃ t, step s = .next t) := ⟨⟨_, rfl⟩, rfl, rfl, _, rfl⟩

/-- An accepted read, a rejected one, one outside the block, and one across each of its edges. -/
theorem witness_ReadsHaveNoSideEffects :
    (ask cfg8 [.read 0x4000000C 4]).inputs = .read 0x4000000C 4 :: [] ∧
      (ask cfg8 [.read 0x40000024 2]).inputs = .read 0x40000024 2 :: [] ∧
      (ask cfg8 [.read 0 1]).inputs = .read 0 1 :: [] ∧
      (ask cfg8 [.read 0x3FFFFFFC 8]).inputs = .read 0x3FFFFFFC 8 :: [] ∧
      (ask cfg8 [.read 0x403FFFFF 2]).inputs = .read 0x403FFFFF 2 :: [] :=
  ⟨rfl, rfl, rfl, rfl, rfl⟩

/-- Each cause of the table at a boundary, and accesses that none of them stops. -/
theorem witness_BusErrorExactlyOnListedCauses :
    Build.tst.wellFormed = true ∧
    (let s := State.powerOn Build.tst
     busErrorCause s 0x008 1 false ∧ busErrorCause s 0x002 4 false ∧
      busErrorCause s 0x024 4 false ∧ busErrorCause s 0xFFC 4 true ∧
      busErrorCause s 0x1000 4 false ∧ busErrorCause s 0x0FFFFC 4 true ∧
      busErrorCause s 0x100100 4 false ∧ busErrorCause s 0x200100 4 true ∧
      busErrorCause s 0x300080 4 false ∧ busErrorCause s 0x30007C 4 true ∧
      busErrorCause lastStage 0x1000FC 4 false ∧ busErrorCause s 0x3FFFFF 2 false ∧
      ¬ busErrorCause s 0x020 4 true ∧ ¬ busErrorCause s 0x1000FC 4 true ∧
      ¬ busErrorCause s 0x2000FC 4 false ∧ ¬ busErrorCause s 0x30007C 4 false ∧
      ¬ busErrorCause lastStage 0x020 4 true) ∧
    (ask cfg8 [.read (0x40000000 + 0x024) 4]).inputs = .read (cfg8.build.base + 0x024) 4 :: [] ∧
    (ask cfg8 [.write (0x40000000 + 0x024) 4 0]).inputs
      = .write (cfg8.build.base + 0x024) 4 0 :: [] := by
  refine ⟨by decide, ?_, by decide, by decide⟩
  refine ⟨?_, ?_, ?_, ?_, ?_, ?_, ?_, ?_, ?_, ?_, ?_, ?_, ?_, ?_, ?_, ?_, ?_⟩ <;>
    unfold busErrorCause <;> decide

/-- The last quarter of the last entry of B1: written and then read, written before another write,
and read when written. -/
theorem witness_BankQuarterWriteThenRead :
    let off := 0x100000 * (1 + 1) + 16 * 15 + 4 * 3
    let a := 0x40000000 + off
    let s := ask (State.powerOn Build.tst) [.write a 4 0xFFFFFFFF, .read a 4]
    let r := ask (s.writeWord off 0x12345678) [.read a 4]
    s.build.wellFormed = true ∧ s.status.busy = false ∧ 15 < 2 ^ s.build.dmax ∧
      s.inputs = .write a 4 0xFFFFFFFF :: .read a 4 :: [] ∧ a = s.build.base + 0x2000FC ∧
      (ask s [.write a 4 0, .write (a - 4) 4 1]).inputs
        = .write a 4 0 :: .write (a - 4) 4 1 :: [] ∧
      r.build.wellFormed = true ∧ r.status.busy = false ∧ r.inputs = .read a 4 :: [] ∧
      ∀ k, k < 4 → (Memory.get r.mem (off + k)).isSome = true := by decide

theorem witness_UnwrittenQuarterReadsAsDraw :
    let a := 0x100000 * (1 + 0) + 16 * 0 + 4 * 0
    let s := ask (State.powerOn Build.tst) [.read (0x40000000 + a) 4]
    s.build.wellFormed = true ∧ s.status.busy = false ∧ 0 < 2 ^ s.build.dmax ∧
      (∀ k, k < 4 → Memory.get s.mem (a + k) = none) ∧
      s.inputs = .read (s.build.base + a) 4 :: [] := by decide

/-- The last quarter of TST's last ROM entry. -/
theorem witness_RomWindowReadsImageAndRejectsWrites :
    let a := 0x40000000 + (0x300000 + 16 * 7 + 4 * 3)
    let s := ask (State.powerOn Build.tst) [.read a 4]
    s.build.wellFormed = true ∧ s.status.busy = false ∧ 7 < 2 ^ (s.build.dmax - 1) ∧
      s.inputs = .read a 4 :: [] ∧
      (ask s [.write a 4 1]).inputs = .write a 4 1 :: [] := by decide

theorem witness_NoStepWritesTheRom : ∃ t, step lastStage = .next t := ⟨_, rfl⟩

/-- The first and the last stage of the largest size, and the only one of the smallest. -/
theorem witness_IndexGeneratorRanges :
    (1 ≤ 1 ∧ 1 ≤ 1 ∧ 1 < 2 ^ 1) ∧ (1 ≤ 1 ∧ 1 ≤ 16 ∧ 65535 < 2 ^ 16) ∧
      (1 ≤ 16 ∧ 16 ≤ 16 ∧ 65535 < 2 ^ 16) := by decide

theorem witness_OutputsPairIntoButterflies :
    (1 ≤ 3 ∧ 3 ≤ 4 ∧ 3 < 2 ^ (3 - 1) ∧ 1 < 2 ^ (4 - 3)) ∧ (1 ≤ 3 ∧ 3 ≤ 4 ∧ 15 < 2 ^ 4) := by decide

theorem witness_CoefficientIndexInsideRom :
    1 ≤ 4 ∧ 4 ≤ 4 ∧ 4 ≤ Build.tst.dmax ∧ 15 < 2 ^ 4 := by decide

theorem witness_InverseCoefficientIsConjugate :
    Build.ref.rom = .defaultImage ∧ 1 ≤ Build.ref.dmax ∧ Build.ref.dmax ≤ 16 ∧ 62 < 63 := by decide

theorem witness_CoefficientsDoNotDependOnDmax :
    Build.ref.rom = .defaultImage ∧ 1 ≤ 4 ∧ 4 ≤ Build.ref.dmax ∧ 7 < 2 ^ (4 - 1) := by decide

theorem witness_DefaultRomApproximatesRootsOfUnity :
    (1 ≤ 1 ∧ 1 ≤ 16 ∧ 0 < 2 ^ (1 - 1)) ∧ (1 ≤ 16 ∧ 16 ≤ 16 ∧ 32767 < 2 ^ (16 - 1)) := by decide

/-- 1.0 and 0, as exact and as given values. -/
theorem witness_RoundingGivesNearestValue :
    isFinite (rn false (quanta 0x3FF0000000000000)) = true ∧
      isFinite (0x7FEFFFFFFFFFFFFF : B64) = true := by decide +kernel

/-- 2^53 + 1 lies halfway between 2^53 and 2^53 + 2. -/
theorem witness_RoundingTiesOverflowAndSign :
    let x : Int := (2 ^ 53 + 1) * 2 ^ 2148
    let y : B64 := 0x4340000000000001
    isFinite (rn false x) = true ∧ isFinite y = true ∧ quanta y ≠ quanta (rn false x) ∧
      |quanta (rn false x) - x| = |quanta y - x| ∧ x ≠ 0 := by decide +kernel

theorem witness_FiniteOperationsRoundOnce :
    isFinite (0x7FEFFFFFFFFFFFFF : B64) = true ∧ isFinite (0x0000000000000001 : B64) = true ∧
      isFinite (0x8000000000000000 : B64) = true := by decide

theorem witness_NaNExactlyOnInvalidOperations :
    isInf (0xFFF0000000000000 : B64) = true ∧ isFinite (0x3FF0000000000000 : B64) = true ∧
      isNaN (0x3FF0000000000000 : B64) = false ∧ isZero (0x3FF0000000000000 : B64) = false ∧
      isNaN (0x7FF8000000000000 : B64) = true ∧ (0x7FF8000000000000 : B64).getLsbD 51 = true ∧
      (isInf (0x7FF0000000000000 : B64) = true ∧
        fsign 0x7FF0000000000000 ≠ fsign 0xFFF0000000000000 ∧
        fsign 0xFFF0000000000000 = (fsign 0xFFF0000000000000 ^^ fsign 0x3FF0000000000000)) ∧
      (∀ nan, isNaN (fadd nan 0x7FF0000000000001 0) = true ∧
        isNaN (fsub nan 0x7FF0000000000000 0x7FF0000000000000) = true ∧
        isNaN (fmul nan 0 0xFFF0000000000000) = true ∧
        isNaN (ffma nan 0x3FF0000000000000 0x7FF0000000000000 0xFFF0000000000000) = true) :=
  ⟨by decide, by decide, by decide, by decide, by decide, by decide, by decide,
    fun nan => ⟨isNaN_quietNaN nan, isNaN_quietNaN nan, isNaN_quietNaN nan, isNaN_quietNaN nan⟩⟩

theorem witness_SignedZeroRules :
    (isZero (0x8000000000000000 : B64) = true ∧ isZero (0 : B64) = true) ∧
    (isFinite (0x3FF0000000000000 : B64) = true ∧ isFinite (0xBFF0000000000000 : B64) = true ∧
      isZero (0x3FF0000000000000 : B64) = false ∧
      units 0x3FF0000000000000 + units 0xBFF0000000000000 = 0) ∧
    (isZero (0xBFF0000000000000 : B64) = false ∧
      units 0x3FF0000000000000 * units 0x3FF0000000000000 + quanta 0xBFF0000000000000 = 0) := by
  decide +kernel

theorem witness_ScalingIsOneRoundingOfDivision :
    (16 ≤ 16 ∧ isFinite (0x0000000000000003 : B64) = true) ∧
      isNaN (0x7FF0000000000000 : B64) = false ∧ isInf (0x7FF0000000000000 : B64) = true ∧
      isZero (0x8000000000000000 : B64) = true := by decide

/-- Both signs, zero, and the largest magnitude. -/
theorem witness_FusedAndUnfusedCmacDiffer :
    holdsInteger 0x3FF0000000000000 1 ∧ holdsInteger 0xC008000000000000 (-3) ∧ holdsInteger 0 0 ∧
      holdsInteger 0x8000000000000000 0 ∧ holdsInteger 0x4130000000000000 (2 ^ 20) ∧
      (∀ k ∈ [1, -3, 0, 0, 2 ^ 20, -3], |k| ≤ (2 ^ 20 : Int)) := by
  unfold holdsInteger
  decide +kernel

theorem witness_BankRolesAlternate : (1 ≤ 1 ∧ 1 ≤ 1) ∧ (1 ≤ 2 ∧ 2 < 3) ∧ (1 ≤ 3 ∧ 3 ≤ 3) := by decide

/-- The last stage, and a stage before it. -/
theorem witness_StageComputesEveryOutput :
    let s := lastStage
    s.seq = ⟨.bfly, 4⟩ ∧ 1 ≤ 4 ∧ 4 ≤ s.d ∧ s.d ≤ 16 ∧ s.n = 2 ^ s.d ∧ 1 ≤ s.build.workers ∧
      (running Build.tst 4 ⟨.bfly, 1⟩ false).seq = ⟨.bfly, 1⟩ ∧ 15 < s.n := by decide

theorem witness_AnyOutputOrderGivesSameStage :
    let s := running Build.tst 2 ⟨.bfly, 1⟩ false
    1 ≤ 1 ∧ 1 ≤ s.d ∧ s.d ≤ 16 ∧ Memory.wf s.mem ∧ [3, 1, 2, 0].Perm (List.range (2 ^ s.d)) := by
  decide

theorem witness_WorkerPartitionsCoverEveryOutputOnce : (1 ≤ 1 ∧ 0 < 1) ∧ (1 ≤ 255 ∧ 1 < 255) := by
  decide

theorem witness_SchedulesNeverChangeResults : 1 ≤ lastStage.build.workers ∧ 1 ≤ 255 := by decide

theorem witness_CopyMovesBytesAndMarkers :
    let s := running Build.tst 3 ⟨.copy, 0⟩ false
    s.seq.phase = .copy ∧ s.n ≤ 2 ^ 16 := by decide

theorem witness_ScaleMultipliesBankZero :
    let s := running Build.tst 0 ⟨.scale, 0⟩ true
    s.seq.phase = .scale ∧ s.n ≤ 2 ^ 16 ∧ 0 < s.n := by decide

theorem witness_LastPhaseCompletes :
    (lastStage.seq.phase = .bfly ∧ lastStage.seq.p = lastStage.d ∧ lastStage.status.dir = false) ∧
      (running Build.tst 0 ⟨.scale, 0⟩ true).seq.phase = .scale ∧
      ({ lastStage with irqEn := ⟨true, false, false⟩ } : State).irqEn.doneIe = true := by decide

theorem witness_SequencerTransitions :
    (running Build.tst 3 ⟨.copy, 0⟩ false).seq = ⟨.copy, 0⟩ ∧
    ((running Build.tst 3 ⟨.bfly, 2⟩ false).seq = ⟨.bfly, 2⟩ ∧ 2 < cfg8.d) ∧
    (let s := running Build.tst 3 ⟨.bfly, 3⟩ true; s.seq = ⟨.bfly, s.d⟩ ∧ s.status.dir = true) ∧
    (lastStage.seq = ⟨.bfly, lastStage.d⟩ ∧ lastStage.status.dir = false) ∧
    (running Build.tst 3 ⟨.scale, 0⟩ true).seq = ⟨.scale, 0⟩ ∧ State.reset.seq = ⟨.idle, 0⟩ := by
  decide

/-- The longest list of N = 8, and the one-phase list of N = 1. -/
theorem witness_TransformTakesExactlyItsPhases :
    (accept true cfg8).seq.phase ≠ .idle ∧ (accept true (conf Build.tst 0)).seq.phase ≠ .idle ∧
      0 < (phaseList 0 true).length ∧ 4 < (phaseList 3 true).length := by decide

theorem witness_EngineStepFrame :
    let s := lastStage
    s.d ≤ 16 ∧ s.n = 2 ^ s.d ∧ 1 ≤ s.build.workers ∧
      (s.seq.phase = .bfly → 1 ≤ s.seq.p ∧ s.seq.p ≤ s.d) := by decide

theorem witness_ExactNetworkComputesTheDft : 0 < 2 ^ 0 ∧ 65535 < 2 ^ 16 := by decide

theorem witness_ExactRoundTripIsIdentity : 0 < 2 ^ 0 ∧ 65535 < 2 ^ 16 := by decide

theorem witness_ResetStepEffect :
    (ask lastStage [.reset false]).inputs = .reset false :: [] ∧ lastStage.n ≤ 2 ^ 16 ∧
      lastStage.status.busy = true ∧ cfg8.status.busy = false ∧
      (ask cfg8 [.reset true]).inputs = .reset true :: [] := by decide

/-- A running transform meets the invariant. -/
theorem lastStage_inv : lastStage.Inv where
  build := by decide
  memWf := by decide
  memInBanks := fun c h => nomatch h
  quarters := fun _ => rfl
  busy := by decide
  notBusyAndDone := by decide
  configured := by decide
  unconfigured := by decide
  runsConfigured := by decide
  stageInRange := by decide
  stageOnlyInBfly := by decide
  copyOdd := by decide
  scaleIdft := by decide
  errcode := by decide
  fma := by decide

theorem witness_EveryStepKeepsInvariant : lastStage.Inv ∧ ∃ t, step lastStage = .next t :=
  ⟨lastStage_inv, _, rfl⟩

/-- A CMD write, an Engine turn and a bank write; none is a reset. -/
theorem witness_OnlyTheseEventsChangeEachPart :
    Build.ref.wellFormed = true ∧ Build.tst.wellFormed = true ∧
    (∀ p, inputOf (ask cfg8 [.write (0x40000000 + 0x004) 4 1]) ≠ .reset p) ∧
    (∀ p, inputOf lastStage ≠ .reset p) ∧
    (∃ t, step (ask cfg8 [.write (0x40000000 + 0x004) 4 1]) = .next t) ∧
    ∃ t, step lastStage = .next t :=
  ⟨by decide, by decide, by decide, by decide, ⟨_, rfl⟩, _, rfl⟩

theorem witness_ResetMeetsInvariant :
    Build.ref.wellFormed = true ∧ Build.tst.wellFormed = true := by decide

/-- A running transform under a Host that polls STATUS for ever. -/
def polled : State := HostProgram.pollForever 0x00C lastStage

/-- The model's own lists are no part of the invariant. -/
theorem polled_inv : polled.Inv :=
  let h := lastStage_inv
  ⟨h.build, h.memWf, h.memInBanks, h.quarters, h.busy, h.notBusyAndDone, h.configured,
    h.unconfigured, h.runsConfigured, h.stageInRange, h.stageOnlyInBfly, h.copyOdd, h.scaleIdft,
    h.errcode, h.fma⟩

theorem witness_EveryTransformCompletes :
    polled.Inv ∧ polled.status.busy = true ∧ polled.again = [.read 0x4000000C 4] ∧
      ∀ p, .reset p ∉ polled.inputs ++ polled.again :=
  ⟨polled_inv, rfl, rfl, fun p h => by simp [polled, HostProgram.pollForever, HostProgram.rd,
    lastStage, running, conf, State.powerOn] at h⟩

/-- STATUS is read at every odd step, and the Engine has every even one. -/
def pollSchedule (k : Nat) : Input := if k % 2 = 1 then .read 0x4000000C 4 else .engine

/-- The endless run of that schedule. -/
def pollRun : Nat → State
  | 0 => lastStage
  | k + 1 =>
    match runInput (pollSchedule k) ((pollRun k).advanced []) with
    | .next t => t
    | .fault _ => pollRun k
    | .refused _ => pollRun k

theorem witness_FairSchedulesCompleteTransforms :
    runsSchedule pollSchedule pollRun ∧
      (∀ k, (pollRun k).status.busy = true → ∃ m, k ≤ m ∧ pollSchedule m = .engine) ∧
      (pollRun 0).Inv ∧ (pollRun 0).status.busy = true ∧ pollSchedule 1 = .read 0x4000000C 4 ∧
      polled.inputs = [] ∧ (ask polled [.engine]).inputs = .engine :: [] := by
  refine ⟨fun k => ⟨[], ?_⟩, fun k _ => ⟨2 * k, by omega, ?_⟩, lastStage_inv, rfl, rfl, rfl, rfl⟩
  · obtain ⟨t, ht⟩ := runInput_next (pollSchedule k) ((pollRun k).advanced [])
    rw [pollRun, ht]
  · simp [pollSchedule]

end Sys2Proof.Tests
end

section
/-! PROOF. The rounding `rn` against every finite value: a nearest one, the even one at a tie, no
NaN, the sign of x, and the bound of overflow. -/

namespace Sys2Proof

open Machine

/-! ## Rounding to a multiple of the grain -/

/-- A quotient rounded by exactly half a divisor is even. -/
theorem roundDiv_even_of_half {m g : Nat}
    (h : 2 * |((roundDiv m g * 2 ^ g : Nat) : Int) - m| = 2 ^ g) : roundDiv m g % 2 = 0 := by
  have hd := Nat.div_add_mod' m (2 ^ g)
  have hr := Nat.mod_lt m (show 0 < 2 ^ g by positivity)
  have hsucc := Nat.add_one_mul (m / 2 ^ g) (2 ^ g)
  have hG : ((2 : Int) ^ g) = ((2 ^ g : Nat) : Int) := by push_cast; rfl
  rw [hG, Int.abs_eq_natAbs] at h
  unfold roundDiv at h ⊢
  simp only at h ⊢
  split
  case isTrue hup => rw [if_pos hup] at h; omega
  case isFalse hdown => rw [if_neg hdown] at h; omega

/-- No multiple of the divisor is nearer than the rounded one, and another as near leaves an even
quotient: the multiples lie a divisor apart, and the error is at most half of one. -/
theorem roundDiv_nearest (m g k : Nat) :
    |((roundDiv m g * 2 ^ g : Nat) : Int) - m| ≤ |((k * 2 ^ g : Nat) : Int) - m| ∧
    (|((k * 2 ^ g : Nat) : Int) - m| = |((roundDiv m g * 2 ^ g : Nat) : Int) - m| →
      k ≠ roundDiv m g → roundDiv m g % 2 = 0) := by
  by_cases hk : k = roundDiv m g
  · simp [hk]
  have herr := roundDiv_error m g
  have hapart : (2 : Int) ^ g ≤
      |((k * 2 ^ g : Nat) : Int) - ((roundDiv m g * 2 ^ g : Nat) : Int)| := by
    have h1 : 1 ≤ |(k : Int) - roundDiv m g| := Int.one_le_abs (by omega)
    rw [Nat.cast_mul, Nat.cast_mul, ← sub_mul, abs_mul]
    simpa using le_mul_of_one_le_left (show (0 : Int) ≤ 2 ^ g by positivity) h1
  have htri := abs_sub_le ((k * 2 ^ g : Nat) : Int) m ((roundDiv m g * 2 ^ g : Nat) : Int)
  rw [abs_sub_comm (m : Int)] at htri
  exact ⟨by linarith, fun heq _ => roundDiv_even_of_half (by linarith)⟩

/-- The rounded quotient reaches an even k from half a divisor below k divisors on. -/
theorem le_roundDiv_iff (m g : Nat) {k : Nat} (hk : 0 < k) (hk2 : k % 2 = 0) :
    k ≤ roundDiv m (g + 1) ↔ (2 * k - 1) * 2 ^ g ≤ m := by
  obtain ⟨j, rfl⟩ : ∃ j, k = j + 1 := ⟨k - 1, by omega⟩
  have herr := roundDiv_error m (g + 1)
  have heven := roundDiv_even_of_half (m := m) (g := g + 1)
  have hH : (0 : Int) < 2 ^ g := by positivity
  rw [show 2 * (j + 1) - 1 = 2 * j + 1 by omega]
  zify
  push_cast [pow_succ] at herr heven
  generalize roundDiv m (g + 1) = R at *
  generalize (2 : Int) ^ g = H at *
  have hnear := abs_le.1 (show |(R : Int) * (H * 2) - m| ≤ H by linarith)
  constructor
  · intro h
    nlinarith [hnear.2]
  · intro h
    by_contra hlt
    have hRj : (R : Int) ≤ j := by omega
    -- only the tie below k is left, and there the quotient would be odd
    have hR : (R : Int) = j := by nlinarith [hnear.1]
    have htie : (R : Int) * (H * 2) - m = -H := by rw [hR] at hnear ⊢; linarith [hnear.1]
    have := heven (by rw [htie, abs_neg, abs_of_pos hH, mul_comm])
    omega

/-! ## Finite values against the grain -/

/-- The magnitude of any encoding: a significand below 2^53 at its exponent. -/
theorem magUnits_eq_significand (y : B64) :
    ∃ k, k < 2 ^ 53 ∧ magUnits y = k * 2 ^ (fexp y - 1) := by
  have hf := ffrac_lt y
  unfold magUnits
  split
  case isTrue h => exact ⟨ffrac y, by omega, by simp [h]⟩
  case isFalse => exact ⟨2 ^ 52 + ffrac y, by omega, rfl⟩

theorem natAbs_quanta (y : B64) : (quanta y).natAbs = magUnits y * 2 ^ 1074 := by
  rw [quanta, Int.natAbs_mul, natAbs_units]; rfl

/-- Among the multiples of the grain around m there is one at least as near to m as any value, and
nearer if it is not that value itself: a value off the multiples lies below 2^52 of them, where the
grain of m begins. -/
theorem exists_grain_multiple_as_near {m : Nat} (hm : m ≠ 0) (y : B64) :
    ∃ k, (quanta y).natAbs = k * 2 ^ grainExp m ∨
      |((k * 2 ^ grainExp m : Nat) : Int) - m| < |((quanta y).natAbs : Int) - m| := by
  obtain ⟨-, -, hlow⟩ := grainExp_spec hm
  obtain ⟨k, hk, hy⟩ := magUnits_eq_significand y
  rw [natAbs_quanta, hy, Nat.mul_assoc, ← pow_add]
  have he : 1074 ≤ fexp y - 1 + 1074 := Nat.le_add_left ..
  generalize fexp y - 1 + 1074 = e at *
  by_cases hg : grainExp m ≤ e
  · refine ⟨k * 2 ^ (e - grainExp m), .inl ?_⟩
    rw [Nat.mul_assoc, ← pow_add, Nat.sub_add_cancel hg]
  · have hfloor : 2 ^ 52 * 2 ^ grainExp m ≤ m := hlow.resolve_left (by omega)
    have hbelow : k * 2 ^ e < 2 ^ 52 * 2 ^ grainExp m :=
      calc k * 2 ^ e < 2 ^ 53 * 2 ^ e := Nat.mul_lt_mul_of_pos_right hk (by positivity)
        _ = 2 ^ 52 * 2 ^ (e + 1) := by ring
        _ ≤ 2 ^ 52 * 2 ^ grainExp m :=
            Nat.mul_le_mul_left _ (Nat.pow_le_pow_right (by decide) (by omega))
    refine ⟨2 ^ 52, .inr ?_⟩
    generalize 2 ^ 52 * 2 ^ grainExp m = P at *
    generalize k * 2 ^ e = Y at *
    rw [Int.abs_eq_natAbs, Int.abs_eq_natAbs]
    omega

/-- The magnitude m rounded to a multiple of its grain, in quanta: the magnitude of `rn`, if finite
(`natAbs_quanta_rn`). -/
def roundedQuanta (m : Nat) : Nat := roundDiv m (grainExp m) * 2 ^ grainExp m

/-- No value's magnitude is nearer to m than the rounded one, and another as near leaves an even
significand. -/
theorem roundedQuanta_nearest {m : Nat} (hm : m ≠ 0) (y : B64) :
    |(roundedQuanta m : Int) - m| ≤ |((quanta y).natAbs : Int) - m| ∧
    (|((quanta y).natAbs : Int) - m| = |(roundedQuanta m : Int) - m| →
      (quanta y).natAbs ≠ roundedQuanta m → roundDiv m (grainExp m) % 2 = 0) := by
  obtain ⟨k, hk⟩ := exists_grain_multiple_as_near hm y
  obtain ⟨hnear, heven⟩ := roundDiv_nearest m (grainExp m) k
  rcases hk with hk | hk
  · rw [hk]
    exact ⟨hnear, fun heq hne => heven heq fun h => hne (by rw [h, roundedQuanta])⟩
  · exact ⟨hnear.trans hk.le, fun heq _ => absurd (heq ▸ hk) (not_lt.2 hnear)⟩

/-! ## Signed values -/

theorem rn_of_ne_zero (z : Bool) {x : Int} (hx : x ≠ 0) :
    rn z x = withSign (decide (x < 0)) (roundMag x.natAbs) := if_neg hx

@[simp] theorem rn_zero (z : Bool) : rn z 0 = signedZero z := rfl

theorem fsign_rn (z : Bool) {x : Int} (hx : x ≠ 0) : fsign (rn z x) = decide (x < 0) := by
  rw [rn_of_ne_zero z hx, fsign_withSign _ (roundMag_lt _)]

theorem isNaN_rn (z : Bool) (x : Int) : isNaN (rn z x) = false := by
  by_cases hx : x = 0
  · subst hx; cases z <;> decide
  · have hle := roundMag_le x.natAbs
    rw [← Bool.not_eq_true, isNaN_iff, rn_of_ne_zero z hx, fexp_withSign _ (roundMag_lt _),
      ffrac_withSign _ (roundMag_lt _)]
    omega

@[simp] theorem quanta_signedZero (z : Bool) : quanta (signedZero z) = 0 := by
  rw [quanta, units_eq_zero.2 (signedZero_class z).1, zero_mul]

/-- A value is no nearer than its magnitude is. -/
theorem abs_natAbs_quanta_sub_le (y : B64) (x : Int) :
    |((quanta y).natAbs : Int) - x.natAbs| ≤ |quanta y - x| := by
  rw [Int.natCast_natAbs, Int.natCast_natAbs]
  exact abs_abs_sub_abs_le _ _

theorem quanta_rn {z : Bool} {x : Int} (hx : x ≠ 0) (hf : isFinite (rn z x) = true) :
    quanta (rn z x) =
      if x < 0 then -(roundedQuanta x.natAbs : Int) else roundedQuanta x.natAbs := by
  obtain ⟨-, hsign, hmag, -⟩ := rn_finite hx hf
  rw [quanta, units_mul_unitQuanta, hsign, hmag, roundedQuanta]
  simp only [decide_eq_true_eq]

theorem natAbs_quanta_rn {z : Bool} {x : Int} (hx : x ≠ 0) (hf : isFinite (rn z x) = true) :
    (quanta (rn z x)).natAbs = roundedQuanta x.natAbs := by
  rw [quanta_rn hx hf]
  split <;> omega

/-- The error of a finite rounding is that of its magnitude. -/
theorem abs_quanta_rn_sub {z : Bool} {x : Int} (hx : x ≠ 0) (hf : isFinite (rn z x) = true) :
    |quanta (rn z x) - x| = |(roundedQuanta x.natAbs : Int) - x.natAbs| := by
  rw [quanta_rn hx hf, Int.abs_eq_natAbs, Int.abs_eq_natAbs]
  split <;> omega

/-- Values of one magnitude that are equally far from a nonzero x have one sign as well. -/
theorem quanta_eq_of_natAbs_eq {y r : B64} {x : Int} (hx : x ≠ 0)
    (h : (quanta y).natAbs = (quanta r).natAbs) (hd : |quanta r - x| = |quanta y - x|) :
    quanta y = quanta r := by
  rw [Int.abs_eq_natAbs, Int.abs_eq_natAbs] at hd
  omega

/-- No value is nearer to x than a finite rounding of x. -/
theorem rn_nearest {z : Bool} {x : Int} (hf : isFinite (rn z x) = true) (y : B64) :
    |quanta (rn z x) - x| ≤ |quanta y - x| := by
  by_cases hx : x = 0
  · subst hx; simp
  · rw [abs_quanta_rn_sub hx hf]
    exact (roundedQuanta_nearest (Int.natAbs_ne_zero.2 hx) y).1.trans (abs_natAbs_quanta_sub_le y x)

theorem getLsbD_zero_withSign (neg : Bool) (m : Nat) :
    (withSign neg m).getLsbD 0 = decide (m % 2 = 1) := by
  rw [withSign, BitVec.getLsbD, Nat.testBit_zero, BitVec.toNat_ofNat]
  congr 2
  split <;> omega

/-- A value as near to x as the rounding, but another, leaves an even significand. -/
theorem rn_even_of_tie {z : Bool} {x : Int} {y : B64} (hf : isFinite (rn z x) = true)
    (hne : quanta y ≠ quanta (rn z x)) (htie : |quanta (rn z x) - x| = |quanta y - x|) :
    (rn z x).getLsbD 0 = false := by
  by_cases hx : x = 0
  · subst hx
    exact absurd (by simpa using htie.symm) hne
  have hm := Int.natAbs_ne_zero.2 hx
  obtain ⟨hrn, -⟩ := rn_finite hx hf
  obtain ⟨hnear, heven⟩ := roundedQuanta_nearest hm y
  have hle := abs_natAbs_quanta_sub_le y x
  rw [← htie, abs_quanta_rn_sub hx hf] at hle
  have := heven (le_antisymm hle hnear) fun h =>
    hne (quanta_eq_of_natAbs_eq hx (h.trans (natAbs_quanta_rn hx hf).symm) htie)
  rw [hrn, getLsbD_zero_withSign, decide_eq_false_iff_not]
  omega

/-! ## Overflow -/

/-- The rounded encoding, with no limit set, reaches that of 2^54 · 2^e quanta from half the grain
below that power on: there the grain is 2^(e+1), and the significand's carry raises the exponent. -/
theorem rounded_reaches_power_iff {m e : Nat} (hm : m ≠ 0) (he : 1074 ≤ e) :
    (e - 1071) * 2 ^ 52 ≤ (grainExp m - 1074) * 2 ^ 52 + roundDiv m (grainExp m) ↔
      (2 ^ 54 - 1) * 2 ^ e ≤ m := by
  obtain ⟨-, hhigh, hlow⟩ := grainExp_spec hm
  obtain ⟨hq, hq2⟩ := roundDiv_grain hm
  rcases Nat.lt_trichotomy (grainExp m) (e + 1) with hg | hg | hg
  · have hsmall : m < 2 ^ 53 * 2 ^ e := hhigh.trans_le
      (Nat.mul_le_mul_left _ (Nat.pow_le_pow_right (by decide) (by omega)))
    omega
  · rw [hg]
    have := le_roundDiv_iff m e (k := 2 ^ 53) (by decide) (by decide)
    omega
  · have hlarge : 2 ^ 52 * 2 ^ (e + 2) ≤ m := le_trans
      (Nat.mul_le_mul_left _ (Nat.pow_le_pow_right (by decide) hg)) (hlow.resolve_left (by omega))
    rw [pow_add] at hlarge
    omega

theorem roundMag_eq_infinity_iff {m : Nat} (hm : m ≠ 0) :
    roundMag m = 0x7FF0000000000000 ↔ (2 ^ 54 - 1) * 2 ^ 3118 ≤ m := by
  rw [roundMag, min_eq_right_iff]
  exact rounded_reaches_power_iff hm (e := 3118) (by decide)

theorem isInf_rn_iff (z : Bool) (x : Int) :
    isInf (rn z x) = true ↔ (2 ^ 54 - 1) * 2 ^ (970 + 2148) ≤ |x| := by
  have hbound : ((2 ^ 54 - 1) * 2 ^ (970 + 2148) : Int) =
      (((2 ^ 54 - 1) * 2 ^ 3118 : Nat) : Int) := by
    rw [Nat.cast_mul, Nat.cast_pow]; rfl
  rw [hbound, Int.abs_eq_natAbs, Nat.cast_le]
  by_cases hx : x = 0
  · subst hx
    have hpos : 0 < (2 ^ 54 - 1) * 2 ^ 3118 := by positivity
    exact iff_of_false (by cases z <;> decide) (not_le.2 hpos)
  · have hle := roundMag_le x.natAbs
    rw [← roundMag_eq_infinity_iff (Int.natAbs_ne_zero.2 hx), isInf_iff, rn_of_ne_zero z hx,
      fexp_withSign _ (roundMag_lt _), ffrac_withSign _ (roundMag_lt _)]
    omega

end Sys2Proof

open Sys2Proof Sys2Proof.Machine

/-- Settles O33: the rounded multiple of the grain is nearest among the multiples, and every finite
value off them lies below the binary power where the grain of x begins. -/
theorem roundingGivesNearestValue : Obligations.RoundingGivesNearestValue :=
  fun _ _ hf y _ => rn_nearest hf y

/-- Settles O34: ties by the parity of the rounded quotient, overflow by the quotient's carry at the
largest grain of a finite value. -/
theorem roundingTiesOverflowAndSign : Obligations.RoundingTiesOverflowAndSign :=
  ⟨fun _ _ _ hf _ hne htie => rn_even_of_tie hf hne htie, isInf_rn_iff, isNaN_rn,
    fun z _ hx => fsign_rn z hx⟩
end

section
/-! PROOF. The four operations on finite operands: no special case is left, and the exact result is
rounded once. -/

namespace Sys2Proof

open Machine

variable {a b c : B64} (nan : BitVec 52) (ha : isFinite a = true) (hb : isFinite b = true)
include ha hb

theorem fadd_of_isFinite :
    fadd nan a b = rn (fsign a && fsign b) (quanta a + quanta b) := by
  rw [quanta, quanta, ← add_mul]
  simp [fadd, not_isNaN_of_isFinite, not_isInf_of_isFinite, ha, hb]

/-- Subtraction adds the negated operand, whose value and sign are the opposite ones. -/
theorem fsub_of_isFinite :
    fsub nan a b = rn (fsign a && !fsign b) (quanta a - quanta b) := by
  have hneg : quanta (fneg b) = -quanta b := by rw [quanta, units_fneg, neg_mul, quanta]
  rw [fsub, fadd_of_isFinite nan ha (by rwa [isFinite_fneg]), fsign_fneg, hneg, sub_eq_add_neg]

theorem fmul_of_isFinite :
    fmul nan a b = rn (fsign a ^^ fsign b) (units a * units b) := by
  simp [fmul, not_isNaN_of_isFinite, not_isInf_of_isFinite, ha, hb]

/-- The product enters the sum unrounded: one rounding is all there is. -/
theorem ffma_of_isFinite (hc : isFinite c = true) :
    ffma nan a b c =
      rn ((fsign a ^^ fsign b) && fsign c) (units a * units b + quanta c) := by
  rw [quanta]
  simp [ffma, not_isNaN_of_isFinite, not_isInf_of_isFinite, ha, hb, hc]

end Sys2Proof

open Sys2Proof Sys2Proof.Machine

/-- Settles O35: each operation by its own rule for finite operands. -/
theorem finiteOperationsRoundOnce : Obligations.FiniteOperationsRoundOnce :=
  fun nan _ _ _ ha hb hc => ⟨fadd_of_isFinite nan ha hb, fsub_of_isFinite nan ha hb,
    fmul_of_isFinite nan ha hb, ffma_of_isFinite nan ha hb hc⟩
end

section
/-! PROOF. No Engine step reads VEC_EN, PAR_EN, LOG2_LANES, WORKERS, ARG or IRQ_EN, but for the
order of a stage's outputs, and that order is the same under all of them. -/

namespace Sys2Proof.Machine

/-- The fields an Engine step's results do not depend on: how a stage is scheduled (41_butterfly.md
R158, 42_sequencer.md R188, R189), and two registers no phase reads. -/
structure Settings where
  vecEn : Bool
  parEn : Bool
  log2Lanes : Nat
  workers : Nat
  arg : Word
  irqEn : IrqEn

/-- The state under other settings. -/
def State.withSettings (s : State) (x : Settings) : State :=
  { s with
    arg := x.arg, irqEn := x.irqEn
    cfg := { s.cfg with vecEn := x.vecEn, parEn := x.parEn }
    build := { s.build with log2Lanes := x.log2Lanes, workers := x.workers } }

variable (s : State) (x : Settings)

@[simp] theorem withSettings_seq : (s.withSettings x).seq = s.seq := rfl

@[simp] theorem withSettings_status : (s.withSettings x).status = s.status := rfl

@[simp] theorem withSettings_n : (s.withSettings x).n = s.n := rfl

@[simp] theorem withSettings_d : (s.withSettings x).d = s.d := rfl

/-- One output of a stage reads no setting: its value needs the ROM, FMA_EN and the threshold. -/
theorem bfly_withSettings (p j : Nat) :
    bfly p (s.withSettings x) j = (bfly p s j).withSettings x := rfl

theorem scaleEntry_withSettings (i : Nat) :
    scaleEntry (s.withSettings x) i = (scaleEntry s i).withSettings x := rfl

@[simp] theorem copyPhase_withSettings :
    copyPhase (s.withSettings x) = (copyPhase s).withSettings x := rfl

@[simp] theorem scalePhase_withSettings :
    scalePhase (s.withSettings x) = (scalePhase s).withSettings x :=
  List.foldl_hom (State.withSettings · x) fun s i => scaleEntry_withSettings s x i

theorem stageInOrder_withSettings (p : Nat) (order : List Nat) :
    stageInOrder p order (s.withSettings x) = (stageInOrder p order s).withSettings x :=
  List.foldl_hom (State.withSettings · x) fun s j => bfly_withSettings s x p j

@[simp] theorem complete_withSettings :
    complete (s.withSettings x) = (complete s).withSettings x := rfl

@[simp] theorem advance_withSettings :
    advance (s.withSettings x) = (advance s).withSettings x := by
  unfold advance
  by_cases h : (nextSeq s.d s.status.dir s.seq).phase = .idle
  · simp [h]
  · simp [h, State.withSettings]

theorem build_engineStep : (engineStep s).build = s.build := by rw [engineStep_fields]

theorem cfg_engineStep : (engineStep s).cfg = s.cfg := by rw [engineStep_fields]

variable {s x} (hs : 1 ≤ s.build.workers) (hx : 1 ≤ x.workers)
include hs hx

/-- The order of a stage's outputs is that of one worker without lanes, under any settings. -/
theorem stage_withSettings (p : Nat) :
    stage p (s.withSettings x) = (stage p s).withSettings x := by
  rw [stage_eq (s.withSettings x) p hx, stage_eq s p hs, withSettings_n, stageInOrder_withSettings]

theorem runPhase_withSettings : runPhase (s.withSettings x) = (runPhase s).withSettings x := by
  unfold runPhase
  rw [withSettings_seq]
  split
  · rfl
  · exact copyPhase_withSettings s x
  · exact stage_withSettings hs hx _
  · exact scalePhase_withSettings s x

theorem engineStep_withSettings :
    engineStep (s.withSettings x) = (engineStep s).withSettings x := by
  unfold engineStep
  rw [withSettings_seq]
  split
  · rfl
  · rw [runPhase_withSettings hs hx, advance_withSettings]

end Sys2Proof.Machine

open Sys2Proof Sys2Proof.Machine

/-- Settles O44: an Engine step commutes with a change of the settings. -/
theorem schedulesNeverChangeResults : Obligations.SchedulesNeverChangeResults := by
  unfold Obligations.SchedulesNeverChangeResults
  intro s vec par lanes T arg irqEn hs hT
  have h := engineStep_withSettings (x := ⟨vec, par, lanes, T, arg, irqEn⟩) hs hT
  rwa [State.withSettings, State.withSettings, build_engineStep, cfg_engineStep] at h
end

section
/-! PROOF. Said once: the events a step can be, each with the next state it leaves and the input
that causes it. -/

namespace Sys2Proof.Machine

/-- The state with its next input taken, the step counted and the port's response given. -/
def State.answered (s : State) (r : BusResp) : State := { s.advanced s.later with resp := some r }

section
variable (s : State) (r : BusResp)

@[simp] theorem answered_build : (s.answered r).build = s.build := rfl
@[simp] theorem answered_arg : (s.answered r).arg = s.arg := rfl
@[simp] theorem answered_status : (s.answered r).status = s.status := rfl
@[simp] theorem answered_n : (s.answered r).n = s.n := rfl
@[simp] theorem answered_d : (s.answered r).d = s.d := rfl
@[simp] theorem answered_cfg : (s.answered r).cfg = s.cfg := rfl
@[simp] theorem answered_irqEn : (s.answered r).irqEn = s.irqEn := rfl
@[simp] theorem answered_seq : (s.answered r).seq = s.seq := rfl
@[simp] theorem answered_mem : (s.answered r).mem = s.mem := rfl

end

/-- The next input is a host write that the bus accepts, to this region of the address map. -/
structure AcceptedWrite (s : State) (off v : Nat) (g : Region) : Prop where
  input : writes s off v
  aligned : (s.build.base + off) % 4 = 0
  region : Build.region s.build off = g
  bankIdle : g = .bank → s.status.busy = false

/-- What a step can do. A read, an access outside the block, a write to a read-only register and a
NOP all leave no more than the port's answer. -/
inductive Event (s : State) : State → Prop where
  | engine : inputOf s = .engine → Event s (engineStep (s.advanced s.later))
  | reset {p} : inputOf s = .reset p → Event s (resetEvent p (s.advanced s.later))
  | answered (r) : Event s (s.answered r)
  | busError {data} : data = some 0 ∨ data = none → Event s (busError data (s.advanced s.later))
  | arg {off v} : AcceptedWrite s off v (.reg .arg) →
      Event s { s.answered (.okay none) with arg := BitVec.ofNat 32 v }
  | irqEn {off v} : AcceptedWrite s off v (.reg .irqEn) →
      Event s { s.answered (.okay none) with irqEn := IrqEn.ofWord (BitVec.ofNat 32 v) }
  | acknowledged {off v} : AcceptedWrite s off v (.reg .status) →
      Event s (acknowledge (BitVec.ofNat 32 v) (s.answered (.okay none)))
  | bank {off v} : AcceptedWrite s off v .bank →
      Event s ((s.answered (.okay none)).writeWord off (BitVec.ofNat 32 v))
  | rejected {off v e} : AcceptedWrite s off v (.reg .cmd) → e ≠ .none →
      Event s (cmdError e (s.answered (.okay none)))
  | configured {off v vec fma par} : AcceptedWrite s off v (.reg .cmd) →
      decodeWord (BitVec.ofNat 32 v) = .ok (.config vec fma par) → s.status.busy = false →
      validSize s.build.dmax s.argInt = true →
      Event s ((s.answered (.okay none)).configured (cfgOf s.build vec fma par))
  | unconfigured {off v vec fma par} : AcceptedWrite s off v (.reg .cmd) →
      decodeWord (BitVec.ofNat 32 v) = .ok (.config vec fma par) → s.status.busy = false →
      Event s (cmdError .invalidSize (s.answered (.okay none)).unconfigured)
  | accepted {off v dir} : AcceptedWrite s off v (.reg .cmd) →
      decodeWord (BitVec.ofNat 32 v) = .ok (if dir then .idft else .dft) →
      s.status.busy = false → s.status.cfgValid = true →
      Event s (accept dir (s.answered (.okay none)))

/-- A write to CMD is one of the command events, or changes nothing (NOP). -/
theorem event_of_execute {s t : State} {off v : Nat} (hw : AcceptedWrite s off v (.reg .cmd))
    (h : execute (BitVec.ofNat 32 v) (s.answered (.okay none)) = .next t) : Event s t := by
  rcases execute_cases h with ⟨i, hi, hexec⟩ | rfl
  · rcases exec_cases hexec with rfl | ⟨e, he, rfl⟩ | ⟨vec, fma, par, rfl, hidle, hv, rfl⟩ |
      ⟨⟨vec, fma, par, rfl⟩, hidle, rfl⟩ | ⟨dir, rfl, hidle, hcfg, -, rfl⟩
    · exact .answered _
    · exact .rejected hw he
    · exact .configured hw hi hidle hv
    · exact .unconfigured hw hi hidle
    · exact .accepted hw hi hidle hcfg
  · exact .rejected hw (by decide)

/-- An accepted write to a register: the event is the register's. -/
theorem event_of_regWrite {s t : State} {off v : Nat} {r : Reg}
    (hw : AcceptedWrite s off v (.reg r))
    (h : regWrite r (BitVec.ofNat 32 v) (s.answered (.okay none)) = .next t) : Event s t := by
  cases r with
  | cmd => exact event_of_execute hw h
  | arg => cases h; exact .arg hw
  | status => cases h; exact .acknowledged hw
  | irqEn => cases h; exact .irqEn hw
  | cap | windowSize | depth | cfg | stage => cases h; exact .answered _

/-- What the bus accepts of a write: a word, aligned, to a register or to an idle bank. -/
theorem accepts_write {s : State} {addr n : Nat} (h : s.accepts addr n true = true) :
    n = 4 ∧ addr % 4 = 0 ∧
      ((∃ r, Build.region s.build (addr - s.build.base) = .reg r) ∨
        (Build.region s.build (addr - s.build.base) = .bank ∧ s.status.busy = false)) := by
  simp only [State.accepts, Bool.and_eq_true, beq_iff_eq] at h
  obtain ⟨⟨hn, ha⟩, hg⟩ := h
  refine ⟨hn, ha, ?_⟩
  unfold State.regionAccepts at hg
  cases hr : Build.region s.build (addr - s.build.base) with
  | reg r => exact .inl ⟨r, rfl⟩
  | bank => exact .inr ⟨rfl, by simpa [hr] using hg⟩
  | rom => simp [hr] at hg
  | hole => simp [hr] at hg

/-- A host write: not the block's, a bus error, or an event of the region it goes to. -/
theorem event_of_hostWrite {s t : State} {addr n v : Nat} (hin : inputOf s = .write addr n v)
    (h : hostWrite addr n v (s.advanced s.later) = .next t) : Event s t := by
  rcases hostWrite_cases h with rfl | rfl | ⟨hclaims, hacc, hat⟩
  · exact .answered _
  · exact .busError (.inr rfl)
  · obtain ⟨rfl, h4, hg⟩ := accepts_write hacc
    have hbase : s.build.base ≤ addr := (of_decide_eq_true hclaims).1
    have haddr : s.build.base + (addr - s.build.base) = addr := Nat.add_sub_cancel' hbase
    have hput : writes s (addr - s.build.base) v := by rw [writes, haddr, hin]
    rw [← haddr] at h4
    rcases hg with ⟨r, hr⟩ | ⟨hr, hidle⟩
    · simp only [writeAt, advanced_build] at hat hr
      rw [hr] at hat
      exact event_of_regWrite ⟨hput, h4, hr, nofun⟩ hat
    · simp only [writeAt, advanced_build] at hat hr
      rw [hr] at hat
      cases hat
      exact .bank ⟨hput, h4, hr, fun _ => hidle⟩

/-- Every step, in every state, is one of the events. -/
theorem event_of_step {s t : State} (h : step s = .next t) : Event s t := by
  rw [step_eq] at h
  change runInput (inputOf s) _ = _ at h
  cases hin : inputOf s with
  | read addr n =>
    rw [hin] at h
    cases h
    rcases hostRead_cases addr n (s.advanced s.later) with ⟨r, hr⟩ | hr
    · rw [hr]; exact .answered r
    · rw [hr]; exact .busError (.inl rfl)
  | write addr n v => rw [hin] at h; exact event_of_hostWrite hin h
  | engine => rw [hin] at h; cases h; exact .engine hin
  | reset p => rw [hin] at h; cases h; exact .reset hin

/-! ## What an accepted write says on a legal build -/

theorem regAt_offset {off : Nat} {r : Reg} (h : regAt off = some r) : r.offset = off / 4 * 4 := by
  simpa using List.find?_some h

theorem regAt_of_region_reg {b : Build} {off : Nat} {r : Reg} (h : Build.region b off = .reg r) :
    regAt off = some r := by
  unfold Build.region at h
  cases hr : regAt off with
  | some r' => rw [hr] at h; cases h; rfl
  | none =>
    rw [hr] at h
    dsimp only at h
    repeat' split at h
    all_goals cases h

/-- With BASE aligned, an accepted write to a register is a write at the register's own offset. -/
theorem AcceptedWrite.atOffset {s : State} {off v : Nat} {r : Reg}
    (h : AcceptedWrite s off v (.reg r)) (hb : s.build.base % 0x400000 = 0) :
    writes s r.offset v := by
  have hoff := regAt_offset (regAt_of_region_reg h.region)
  have h4 := h.aligned
  rw [hoff, show off / 4 * 4 = off by omega]
  exact h.input

end Sys2Proof.Machine
end

section
/-! PROOF. Which events change which part of the state: one lemma per part, each a reading of
`Event`. -/

namespace Sys2Proof.Machine

/-! ## What the Engine and an acceptance leave alone -/

section
variable (s : State)

@[simp] theorem engineStep_arg : (engineStep s).arg = s.arg := by rw [engineStep_fields]
@[simp] theorem engineStep_n : (engineStep s).n = s.n := by rw [engineStep_fields]
@[simp] theorem engineStep_d : (engineStep s).d = s.d := by rw [engineStep_fields]
@[simp] theorem engineStep_irqEn : (engineStep s).irqEn = s.irqEn := by rw [engineStep_fields]
@[simp] theorem engineStep_status_err : (engineStep s).status.err = s.status.err := by
  rw [engineStep_fields]
@[simp] theorem engineStep_status_accerr : (engineStep s).status.accerr = s.status.accerr := by
  rw [engineStep_fields]
@[simp] theorem engineStep_status_cfgValid :
    (engineStep s).status.cfgValid = s.status.cfgValid := by rw [engineStep_fields]

variable (dir : Bool)

@[simp] theorem accept_build : (accept dir s).build = s.build := by rw [accept_fields]
@[simp] theorem accept_arg : (accept dir s).arg = s.arg := by rw [accept_fields]
@[simp] theorem accept_n : (accept dir s).n = s.n := by rw [accept_fields]
@[simp] theorem accept_d : (accept dir s).d = s.d := by rw [accept_fields]
@[simp] theorem accept_cfg : (accept dir s).cfg = s.cfg := by rw [accept_fields]
@[simp] theorem accept_irqEn : (accept dir s).irqEn = s.irqEn := by rw [accept_fields]
@[simp] theorem accept_mem : (accept dir s).mem = s.mem := by rw [accept_fields]
@[simp] theorem accept_status_err : (accept dir s).status.err = s.status.err := by
  rw [accept_fields]
@[simp] theorem accept_status_accerr : (accept dir s).status.accerr = s.status.accerr := by
  rw [accept_fields]
@[simp] theorem accept_status_cfgValid : (accept dir s).status.cfgValid = s.status.cfgValid := by
  rw [accept_fields]
@[simp] theorem accept_status_done :
    (accept dir s).status.done = decide ((firstPhase s.d dir).phase = .idle) := by
  rw [accept_fields]

end

/-- Only an Engine step that completes sets DONE. -/
theorem engineStep_sets_done {s : State} (h0 : s.status.done = false)
    (h1 : (engineStep s).status.done = true) :
    s.seq.phase ≠ .idle ∧ (engineStep s).seq = .idle := by
  rcases engineStep_cases s with ⟨-, h⟩ | ⟨hrun, -, h⟩ | ⟨-, -, h⟩
  · simp [h, h0] at h1
  · exact ⟨hrun, by rw [h]; rfl⟩
  · rw [h, runPhase_eq_withMem] at h1
    exact absurd (h0.symm.trans h1) (by decide)

/-- Nothing to do is the forward transform at depth 0 alone (42_sequencer.md R180, R193). -/
theorem firstPhase_idle {d : Nat} {dir : Bool} (h : (firstPhase d dir).phase = .idle) :
    d = 0 ∧ dir = false := by
  rw [firstPhase_eq] at h
  split at h
  case isTrue => cases h
  case isFalse =>
    split at h
    case isTrue => cases h
    case isFalse hd =>
      cases dir with
      | true => cases h
      | false => exact ⟨by omega, rfl⟩

/-! ## One part of the state at a time -/

namespace Event

variable {s t : State} (h : Event s t) (hr : ∀ p, inputOf s ≠ .reset p)
include h

/-- No event changes the build. -/
theorem build_eq : t.build = s.build := by
  cases h with
  | engine => exact build_engineStep _
  | _ => simp

include hr

theorem arg_changed (hb : s.build.base % 0x400000 = 0) (hne : t.arg ≠ s.arg) :
    ∃ v, writes s 0x008 v := by
  cases h with
  | arg hw => exact ⟨_, hw.atOffset hb⟩
  | reset hin => exact absurd hin (hr _)
  | _ => simp at hne

theorem irqEn_changed (hb : s.build.base % 0x400000 = 0) (hne : t.irqEn ≠ s.irqEn) :
    ∃ v, writes s 0x020 v := by
  cases h with
  | irqEn hw => exact ⟨_, hw.atOffset hb⟩
  | reset hin => exact absurd hin (hr _)
  | _ => simp at hne

theorem configuration_changed (hb : s.build.base % 0x400000 = 0)
    (hne : t.n ≠ s.n ∨ t.d ≠ s.d ∨ t.cfg ≠ s.cfg ∨ t.status.cfgValid ≠ s.status.cfgValid) :
    s.status.busy = false ∧ ∃ v vec fma par, writes s 0x004 v ∧
      decodeWord (BitVec.ofNat 32 v) = .ok (.config vec fma par) := by
  cases h with
  | configured hw hv hidle => exact ⟨hidle, _, _, _, _, hw.atOffset hb, hv⟩
  | unconfigured hw hv hidle => exact ⟨hidle, _, _, _, _, hw.atOffset hb, hv⟩
  | reset hin => exact absurd hin (hr _)
  | engine => simp [cfg_engineStep] at hne
  | _ => simp at hne

theorem seq_changed (hb : s.build.base % 0x400000 = 0) (hne : t.seq ≠ s.seq) :
    inputOf s = .engine ∨ (s.status.busy = false ∧ ∃ v, writes s 0x004 v ∧
      (decodeWord (BitVec.ofNat 32 v) = .ok .dft ∨ decodeWord (BitVec.ofNat 32 v) = .ok .idft)) := by
  cases h with
  | engine hin => exact .inl hin
  | @accepted _ _ dir hw hv hidle =>
    refine .inr ⟨hidle, _, hw.atOffset hb, ?_⟩
    cases dir with
    | false => exact .inl hv
    | true => exact .inr hv
  | reset hin => exact absurd hin (hr _)
  | _ => simp at hne

theorem mem_changed (hD : s.build.dmax ≤ 16) (hne : t.mem ≠ s.mem) :
    (inputOf s = .engine ∧ s.seq.phase ≠ .idle) ∨
      (s.status.busy = false ∧ ∃ off v, writes s off v ∧ inBanks s.build off) := by
  cases h with
  | engine hin =>
    refine .inl ⟨hin, fun hidle => hne ?_⟩
    rw [engineStep_idle (by exact hidle), advanced_mem]
  | bank hw =>
    exact .inr ⟨hw.bankIdle rfl, _, _, hw.input, (region_bank_iff hD).1 hw.region⟩
  | reset hin => exact absurd hin (hr _)
  | _ => simp at hne

theorem done_set (hb : s.build.base % 0x400000 = 0) (h0 : s.status.done = false)
    (h1 : t.status.done = true) :
    (inputOf s = .engine ∧ s.seq.phase ≠ .idle ∧ t.seq = ⟨.idle, 0⟩) ∨
      (s.status.busy = false ∧ s.d = 0 ∧ ∃ v, writes s 0x004 v ∧
        decodeWord (BitVec.ofNat 32 v) = .ok .dft) := by
  cases h with
  | engine hin => exact .inl ⟨hin, engineStep_sets_done (s := s.advanced s.later) h0 h1⟩
  | accepted hw hv hidle =>
    rw [accept_status_done, decide_eq_true_eq] at h1
    obtain ⟨hd, rfl⟩ := firstPhase_idle h1
    exact .inr ⟨hidle, hd, _, hw.atOffset hb, hv⟩
  | reset hin => exact absurd hin (hr _)
  | _ => simp [h0] at h1

theorem err_set (hb : s.build.base % 0x400000 = 0) (h0 : s.status.err = false)
    (h1 : t.status.err = true) : ∃ v, writes s 0x004 v := by
  cases h with
  | rejected hw => exact ⟨_, hw.atOffset hb⟩
  | unconfigured hw => exact ⟨_, hw.atOffset hb⟩
  | reset hin => exact absurd hin (hr _)
  | _ => simp [h0] at h1

theorem accerr_set (h0 : s.status.accerr = false) (h1 : t.status.accerr = true) :
    t.resp = some (.error (some 0)) ∨ t.resp = some (.error none) := by
  cases h with
  | busError hdata => exact hdata.imp (by rintro rfl; rfl) (by rintro rfl; rfl)
  | reset hin => exact absurd hin (hr _)
  | _ => simp [h0] at h1

end Event

end Sys2Proof.Machine

open Sys2Proof Sys2Proof.Machine

/-- Settles O57: each part of the state read off the event that the step is. -/
theorem onlyTheseEventsChangeEachPart : Obligations.OnlyTheseEventsChangeEachPart := by
  unfold Obligations.OnlyTheseEventsChangeEachPart
  intro s t hwf hstep hr
  have h := event_of_step hstep
  obtain ⟨-, hD, hb, -⟩ := wellFormed_bounds hwf
  exact ⟨h.arg_changed hr hb, h.irqEn_changed hr hb, h.configuration_changed hr hb,
    h.seq_changed hr hb, h.mem_changed hr hD, h.done_set hr hb, h.err_set hr hb,
    h.accerr_set hr⟩
end

section
/-! PROOF. The invariants of the state: the banks' memory, the sequencer and the rest, each kept by
every event. -/

namespace Sys2Proof.Machine

/-! ## The banks' memory -/

/-- The memory's part of the invariant, for a build: canonical form, bank cells only, whole
quarters (10_state.md R48). -/
structure Memory.Sound (b : Build) (m : Memory) : Prop where
  wf : Memory.wf m
  inBanks : ∀ c ∈ m, inBanks b c.1
  quarters : Memory.quartersWhole m

theorem State.Inv.memSound {s : State} (h : s.Inv) : s.mem.Sound s.build :=
  ⟨h.memWf, h.memInBanks, h.quarters⟩

namespace Memory

theorem Sound.nil (b : Build) : Sound b [] := ⟨List.Pairwise.nil, nofun, fun _ => rfl⟩

/-- Cells of whole quarters: each aligned group of four is all written or all unwritten. -/
def wholeQuarters (bs : List (Option Byte)) : Prop :=
  bs.length % 4 = 0 ∧ ∀ i, i < bs.length →
    (bs.getD (4 * (i / 4)) none).isSome = (bs.getD i none).isSome

theorem wholeQuarters_written {l : List Byte} (h : l.length % 4 = 0) :
    wholeQuarters (l.map some) := by
  refine ⟨by simpa using h, fun i hi => ?_⟩
  rw [List.length_map] at hi
  have hi' : 4 * (i / 4) < l.length := by omega
  simp [List.getD, hi, hi']

theorem wholeQuarters_unwritten (n : Nat) : wholeQuarters (List.replicate (16 * n) none) := by
  refine ⟨by simp; omega, fun i hi => ?_⟩
  rw [List.length_replicate] at hi
  have hi' : 4 * (i / 4) < 16 * n := by omega
  simp [List.getD, hi, hi']

/-- A block of whole entries, read where quarters are whole. -/
theorem wholeQuarters_readBlock {m : Memory} (hm : quartersWhole m) {a : Nat} (ha : a % 4 = 0)
    (n : Nat) : wholeQuarters (readBlock m a (16 * n)) := by
  refine ⟨by simp; omega, fun i hi => ?_⟩
  rw [length_readBlock] at hi
  rw [getD_readBlock hi, getD_readBlock (by omega), ← hm (a + i)]
  congr 2
  omega

/-- Writing whole quarters at an aligned offset of the banks keeps the memory sound. -/
theorem Sound.writeBlock {b : Build} {m : Memory} (hm : Sound b m) {a : Nat}
    {bs : List (Option Byte)} (ha : a % 4 = 0) (hbs : wholeQuarters bs)
    (hin : ∀ k, k < bs.length → Machine.inBanks b (a + k)) : Sound b (writeBlock m a bs) := by
  obtain ⟨hlen, hwhole⟩ := hbs
  have hwf := wf_writeBlock hm.wf a bs
  refine ⟨hwf, fun ⟨k, v⟩ hc => ?_, fun off => ?_⟩
  · by_cases hk : a ≤ k ∧ k < a + bs.length
    · simpa [Nat.add_sub_cancel' hk.1] using hin (k - a) (by omega)
    · have hget := get_of_mem hwf hc
      rw [get_writeBlock_outside (by omega)] at hget
      exact hm.inBanks _ (mem_of_get hget)
  · by_cases ho : a ≤ off ∧ off < a + bs.length
    · rw [get_writeBlock_inside ho.1 ho.2, get_writeBlock_inside (by omega) (by omega),
        ← hwhole (off - a) (by omega)]
      congr 2
      omega
    · rw [get_writeBlock_outside (by omega), get_writeBlock_outside (by omega)]
      exact hm.quarters off

end Memory

/-- Writing whole quarters over n entries, from entry i of either bank, inside the populated
window. -/
theorem Memory.Sound.writeEntries {b : Build} {m : Memory} (hm : m.Sound b) {k i n : Nat}
    (hk : k < 2) (hi : i + n ≤ 2 ^ b.dmax) {bs : List (Option Byte)} (hlen : bs.length = 16 * n)
    (hbs : Memory.wholeQuarters bs) : (m.writeBlock (bankOffset k i) bs).Sound b := by
  refine hm.writeBlock (by simp only [bankOffset]; omega) hbs fun j hj => ?_
  unfold bankOffset Machine.inBanks
  interval_cases k <;> omega

theorem writeEntry_sound {b : Build} {s : State} {k i : Nat} (hk : k < 2) (hi : i < 2 ^ b.dmax)
    (y : Sample) (hs : s.mem.Sound b) : (s.writeEntry k i y).mem.Sound b :=
  hs.writeEntries (n := 1) hk hi rfl (Memory.wholeQuarters_written (by simp))

/-- A fold of entry writes. -/
theorem foldl_sound {b : Build} {f : State → Nat → State} {l : List Nat} {s : State}
    (hf : ∀ u, u.mem.Sound b → ∀ j ∈ l, (f u j).mem.Sound b) (hs : s.mem.Sound b) :
    (l.foldl f s).mem.Sound b :=
  List.foldlRecOn (motive := fun u => u.mem.Sound b) l f hs hf

/-- Every phase keeps the memory sound. -/
theorem runPhase_sound {s : State} (hT : 1 ≤ s.build.workers) (hn : s.n ≤ 2 ^ s.build.dmax)
    (hs : s.mem.Sound s.build) : (runPhase s).mem.Sound s.build := by
  have hlt : ∀ i ∈ List.range s.n, i < 2 ^ s.build.dmax := fun i hi =>
    (List.mem_range.1 hi).trans_le hn
  unfold runPhase
  split
  case h_1 => exact hs
  case h_2 =>
    exact hs.writeEntries (by decide) (by omega) (Memory.length_readBlock _ _ _)
      (Memory.wholeQuarters_readBlock hs.quarters (by decide) s.n)
  case h_3 =>
    rw [stage_eq s _ hT]
    exact foldl_sound (fun u hu j hj =>
      writeEntry_sound (Nat.mod_lt _ (by decide)) (hlt j hj) _ hu) hs
  case h_4 =>
    exact foldl_sound (fun u hu i hi => writeEntry_sound (by decide) (hlt i hi) _ hu) hs

/-- A reset makes whole quarters unwritten. -/
theorem memAfterReset_sound {s : State} (p : Bool) (hn : s.n ≤ 2 ^ s.build.dmax)
    (hs : s.mem.Sound s.build) : (s.memAfterReset p).Sound s.build := by
  have unwrite : ∀ (m : Memory), m.Sound s.build → ∀ k, k < 2 →
      (m.writeBlock (bankOffset k 0) (List.replicate (16 * s.n) none)).Sound s.build :=
    fun _ hm _ hk => hm.writeEntries hk (by omega) List.length_replicate
      (Memory.wholeQuarters_unwritten s.n)
  unfold State.memAfterReset
  split
  · exact .nil _
  · split
    · exact unwrite _ (unwrite _ hs 0 (by decide)) 1 (by decide)
    · exact hs

/-! ## The sequencer -/

/-- The sequencer's part of the invariant, for a depth and a direction (10_state.md R45,
42_sequencer.md R180). -/
structure Seq.Sound (d : Nat) (dir : Bool) (q : Seq) : Prop where
  stageInRange : q.phase = .bfly → 1 ≤ q.p ∧ q.p ≤ d
  stageOnlyInBfly : q.phase ≠ .bfly → q.p = 0
  copyOdd : q.phase = .copy → d % 2 = 1
  scaleIdft : q.phase = .scale → dir = true

theorem State.Inv.seqSound {s : State} (h : s.Inv) : s.seq.Sound s.d s.status.dir :=
  ⟨h.stageInRange, h.stageOnlyInBfly, h.copyOdd, h.scaleIdft⟩

namespace Seq

variable {d : Nat} {dir : Bool}

theorem Sound.idle : Sound d dir .idle := ⟨nofun, fun _ => rfl, nofun, nofun⟩

theorem Sound.copy (hd : d % 2 = 1) : Sound d dir ⟨.copy, 0⟩ :=
  ⟨nofun, fun _ => rfl, fun _ => hd, nofun⟩

theorem Sound.bfly {p : Nat} (h1 : 1 ≤ p) (h2 : p ≤ d) : Sound d dir ⟨.bfly, p⟩ :=
  ⟨fun _ => ⟨h1, h2⟩, fun h => absurd rfl h, nofun, nofun⟩

theorem Sound.scale (hdir : dir = true) : Sound d dir ⟨.scale, 0⟩ :=
  ⟨nofun, fun _ => rfl, nofun, fun _ => hdir⟩

/-- An accepted transform starts in range. -/
theorem sound_firstPhase (d : Nat) (dir : Bool) : Sound d dir (firstPhase d dir) := by
  rw [firstPhase_eq]
  split
  case isTrue h => exact .copy h
  case isFalse =>
    split
    case isTrue h => exact .bfly le_rfl h
    case isFalse =>
      split
      case isTrue h => exact .scale h
      case isFalse => exact .idle

/-- The Engine stays in range: after COPY, of an odd depth, there is a stage 1. -/
theorem Sound.nextSeq {q : Seq} (h : q.Sound d dir) : (nextSeq d dir q).Sound d dir := by
  unfold Machine.nextSeq
  split
  case h_1 => exact .idle
  case h_2 hq => exact .bfly le_rfl (by have := h.copyOdd hq; omega)
  case h_3 hq =>
    split
    case isTrue hp => exact .bfly (by omega) (by omega)
    case isFalse =>
      split
      case isTrue hdir => exact .scale hdir
      case isFalse => exact .idle
  case h_4 => exact .idle

end Seq

/-! ## The configuration -/

/-- A size CONFIG accepts is the power of two of its depth (43_commands.md R213, R214). -/
theorem validSize_pow {dmax : Nat} {z : Int} (h : validSize dmax z = true) :
    z.toNat = 2 ^ Nat.log2 z.toNat ∧ Nat.log2 z.toNat ≤ dmax := by
  simp only [validSize, Bool.and_eq_true, decide_eq_true_eq] at h
  obtain ⟨⟨hpos, hle⟩, hand⟩ := h
  obtain ⟨k, hk⟩ := (Nat.and_sub_one_eq_zero_iff_isPowerOfTwo (by omega)).1 hand
  have hle' : 2 ^ k ≤ 2 ^ dmax := by
    rw [← hk]
    exact Int.toNat_le.2 (by exact_mod_cast hle)
  rw [hk, Nat.log2_two_pow]
  exact ⟨rfl, (Nat.pow_le_pow_iff_right (by decide)).1 hle'⟩

namespace State.Inv

variable {s : State} (h : s.Inv)
include h

/-- WINDOW_SIZE never exceeds the populated window. -/
theorem n_le : s.n ≤ 2 ^ s.build.dmax := by
  cases hv : s.status.cfgValid with
  | true =>
    obtain ⟨hn, hd⟩ := h.configured hv
    rw [hn]
    exact Nat.pow_le_pow_right (by decide) hd
  | false => simp [(h.unconfigured hv).1]

theorem phase_idle (hidle : s.status.busy = false) : s.seq.phase = .idle := by
  by_contra hne
  simp [h.busy.2 hne] at hidle

end State.Inv

/-! ## Power-on -/

theorem inv_powerOn {b : Build} (hb : b.wellFormed = true) : (State.powerOn b).Inv where
  build := hb
  memWf := (Memory.Sound.nil b).wf
  memInBanks := (Memory.Sound.nil b).inBanks
  quarters := (Memory.Sound.nil b).quarters
  busy := iff_of_false nofun (· rfl)
  notBusyAndDone := fun hbusy => nomatch hbusy.1
  configured := nofun
  unconfigured := fun _ => ⟨rfl, rfl⟩
  runsConfigured := nofun
  stageInRange := nofun
  stageOnlyInBfly := fun _ => rfl
  copyOdd := nofun
  scaleIdft := nofun
  errcode := iff_of_false nofun (· rfl)
  fma := nofun

/-! ## Each event keeps the invariant -/

section

variable {s : State} (h : s.Inv)
include h

theorem inv_advanced (rest : List Input) : (s.advanced rest).Inv := { h with }

theorem inv_answered (r : BusResp) : (s.answered r).Inv := { h with }

theorem inv_busError (data : Option Word) : (busError data s).Inv := { h with }

theorem inv_cmdError {e : ErrCode} (he : e ≠ .none) : (cmdError e s).Inv :=
  { h with
    errcode := iff_of_true rfl (by
      rw [cmdError_status_errcode]
      split
      case isTrue herr => exact h.errcode.1 herr
      case isFalse => exact he) }

theorem inv_acknowledge (v : Word) : (acknowledge v s).Inv :=
  { h with
    notBusyAndDone := fun ⟨hbusy, hdone⟩ => h.notBusyAndDone ⟨hbusy, by
      rw [acknowledge_status_done] at hdone
      exact (ite_eq_iff.1 hdone).elim (fun hc => nomatch hc.2) And.right⟩
    errcode := by
      have := h.errcode
      by_cases hv : v.getLsbD 2 <;> simp [hv, this] }

theorem inv_withMem {m : Memory} (hm : m.Sound s.build) : (s.withMem m).Inv :=
  { h with memWf := hm.wf, memInBanks := hm.inBanks, quarters := hm.quarters }

theorem inv_writeWord {off : Nat} (ha : off % 4 = 0)
    (hin : Build.region s.build off = .bank) (v : Word) : (s.writeWord off v).Inv := by
  obtain ⟨-, hD, -, -⟩ := wellFormed_bounds h.build
  have hoff := (region_bank_iff hD).1 hin
  refine inv_withMem h
    (h.memSound.writeBlock ha (Memory.wholeQuarters_written (by simp)) fun k hk => ?_)
  simp only [List.length_map, length_bytesOfWord] at hk
  unfold inBanks
  omega

theorem inv_configured (hidle : s.status.busy = false) (hv : validSize s.build.dmax s.argInt = true)
    (vec fma par : Bool) : (s.configured (cfgOf s.build vec fma par)).Inv :=
  { h with
    configured := fun _ => validSize_pow hv
    unconfigured := nofun
    runsConfigured := fun _ => rfl
    stageInRange := by simp [h.phase_idle hidle]
    copyOdd := by simp [h.phase_idle hidle]
    fma := fun hf => (Bool.and_eq_true_iff.1 hf).2 }

theorem inv_unconfigured (hidle : s.status.busy = false) : s.unconfigured.Inv :=
  { h with
    configured := nofun
    unconfigured := fun _ => ⟨rfl, rfl⟩
    runsConfigured := by simp [hidle]
    stageInRange := by simp [h.phase_idle hidle]
    copyOdd := by simp [h.phase_idle hidle] }

theorem inv_accept (dir : Bool) (hidle : s.status.busy = false) (hcfg : s.status.cfgValid = true) :
    (accept dir s).Inv := by
  have hq := Seq.sound_firstPhase s.d dir
  rw [accept_fields]
  exact { h with
    busy := by simp [hidle]
    notBusyAndDone := by simp [hidle]
    runsConfigured := fun _ => hcfg
    stageInRange := hq.stageInRange
    stageOnlyInBfly := hq.stageOnlyInBfly
    copyOdd := hq.copyOdd
    scaleIdft := hq.scaleIdft }

theorem inv_complete : (complete s).Inv :=
  { h with
    busy := by simp [Seq.idle]
    notBusyAndDone := by simp
    runsConfigured := nofun
    stageInRange := nofun
    stageOnlyInBfly := fun _ => rfl
    copyOdd := nofun
    scaleIdft := nofun }

theorem inv_withSeq {q : Seq} (hrun : s.seq.phase ≠ .idle) (hq : q.phase ≠ .idle)
    (hs : q.Sound s.d s.status.dir) : State.Inv { s with seq := q } :=
  { h with
    busy := iff_of_true (h.busy.2 hrun) hq
    stageInRange := hs.stageInRange
    stageOnlyInBfly := hs.stageOnlyInBfly
    copyOdd := hs.copyOdd
    scaleIdft := hs.scaleIdft }

theorem inv_engineStep : (engineStep s).Inv := by
  obtain ⟨-, -, -, hT⟩ := wellFormed_bounds h.build
  have hrun : (runPhase s).Inv := by
    rw [runPhase_eq_withMem]
    exact inv_withMem h (runPhase_sound hT h.n_le h.memSound)
  rcases engineStep_cases s with ⟨-, heq⟩ | ⟨-, -, heq⟩ | ⟨hp, hnext, heq⟩
  · rw [heq]; exact h
  · rw [heq]; exact inv_complete hrun
  · have hfix := runPhase_eq_withMem s
    rw [heq]
    refine inv_withSeq hrun ?_ hnext ?_
    · rw [hfix]; exact hp
    · rw [hfix]; exact h.seqSound.nextSeq

/-- A reset gives power-on's registers, and banks with quarters made unwritten whole. -/
theorem inv_resetEvent (p : Bool) : (resetEvent p s).Inv :=
  have hm := memAfterReset_sound p h.n_le h.memSound
  { inv_powerOn h.build with
    memWf := hm.wf, memInBanks := hm.inBanks, quarters := hm.quarters }

/-- Every event keeps the invariant. -/
theorem Event.inv {t : State} (hev : Event s t) : t.Inv := by
  have hans := inv_answered h
  cases hev with
  | engine => exact inv_engineStep (inv_advanced h _)
  | reset => exact inv_resetEvent (inv_advanced h _) _
  | answered r => exact hans r
  | busError => exact inv_busError (inv_advanced h _) _
  | arg => exact { hans (.okay none) with }
  | irqEn => exact { hans (.okay none) with }
  | acknowledged => exact inv_acknowledge (hans _) _
  | bank hw =>
    obtain ⟨-, -, hbase, -⟩ := wellFormed_bounds h.build
    have haligned := hw.aligned
    exact inv_writeWord (hans _) (by omega) hw.region _
  | rejected hw he => exact inv_cmdError (hans _) he
  | configured _ _ hidle hv => exact inv_configured (hans _) hidle hv _ _ _
  | unconfigured _ _ hidle =>
    exact inv_cmdError (inv_unconfigured (hans _) hidle) (by decide)
  | accepted _ _ hidle hcfg => exact inv_accept (hans _) _ hidle hcfg

end

end Sys2Proof.Machine

open Sys2Proof Sys2Proof.Machine

/-- Settles O58: nothing is configured, nothing runs, nothing is written. -/
theorem resetMeetsInvariant : Obligations.ResetMeetsInvariant := fun _ => inv_powerOn

/-- Settles O56: a step is one of the events, and each keeps the invariant. -/
theorem everyStepKeepsInvariant : Obligations.EveryStepKeepsInvariant :=
  fun _ _ h hstep => (event_of_step hstep).inv h
end

section
/-! PROOF. The frame of an Engine step: entries 0 to N-1 of the two banks, BUSY, DONE and the
sequencer. -/

namespace Sys2Proof.Machine

/-- Outside entries 0 to N-1 of both banks. -/
def outsideEntries (n a : Nat) : Prop :=
  (a < 0x100000 ∨ 0x100000 + 16 * n ≤ a) ∧ (a < 0x200000 ∨ 0x200000 + 16 * n ≤ a)

variable {s : State} {a : Nat} (ha : outsideEntries s.n a)
include ha

theorem get_copyPhase_outside : Memory.get (copyPhase s).mem a = Memory.get s.mem a := by
  rw [get_copyPhase, if_neg (by unfold outsideEntries at ha; omega)]

theorem get_scalePhase_outside : Memory.get (scalePhase s).mem a = Memory.get s.mem a := by
  rw [get_scalePhase, if_neg (by unfold outsideEntries at ha; omega)]

/-- A stage's outputs are the entries below N of its destination bank. -/
theorem get_stage_outside {p : Nat} (h1 : 1 ≤ p) (h2 : p ≤ s.d) (hd : s.d ≤ 16)
    (hn : s.n = 2 ^ s.d) (hT : 1 ≤ s.build.workers) :
    Memory.get (stage p s).mem a = Memory.get s.mem a := by
  have hout : ¬ (bankOffset (dstBank s.d p) 0 ≤ a ∧
      (a - bankOffset (dstBank s.d p) 0) / 16 ∈ List.range s.n) := by
    have hbank : dstBank s.d p < 2 := Nat.mod_lt _ (by decide)
    unfold outsideEntries at ha
    simp only [bankOffset, List.mem_range]
    omega
  rw [stage_eq s p hT, get_stageInOrder h1 h2 hd _ (by simp [hn]), if_neg hout]

theorem get_engineStep_outside (hd : s.d ≤ 16) (hn : s.n = 2 ^ s.d) (hT : 1 ≤ s.build.workers)
    (hp : s.seq.phase = .bfly → 1 ≤ s.seq.p ∧ s.seq.p ≤ s.d) :
    Memory.get (engineStep s).mem a = Memory.get s.mem a := by
  by_cases hidle : s.seq.phase = .idle
  · rw [engineStep_idle hidle]
  · rw [mem_engineStep hidle]
    unfold runPhase
    split
    case h_1 => rfl
    case h_2 => exact get_copyPhase_outside ha
    case h_3 hphase =>
      obtain ⟨h1, h2⟩ := hp hphase
      exact get_stage_outside ha h1 h2 hd hn hT
    case h_4 => exact get_scalePhase_outside ha

end Sys2Proof.Machine

open Sys2Proof Sys2Proof.Machine

/-- Settles O50: the bytes by the phase that runs, the registers by what any Engine step keeps. -/
theorem engineStepFrame : Obligations.EngineStepFrame :=
  fun s hd hn hT hp =>
    ⟨fun _ h1 h2 => get_engineStep_outside ⟨h1, h2⟩ hd hn hT hp, engineStep_fields s⟩
end

section
/-! PROOF. The registers: their words field by field, what reads return, what writes store, and the
interrupt level. -/

namespace Sys2Proof.Machine

/-! ## Words of fields -/

theorem toNat_fieldAt {v k : Nat} (h : v * 2 ^ k < 2 ^ 32) : (fieldAt v k).toNat = v * 2 ^ k := by
  have hv : v < 2 ^ 32 := (Nat.le_mul_of_pos_right v (Nat.two_pow_pos k)).trans_lt h
  rw [fieldAt, BitVec.toNat_shiftLeft, BitVec.toNat_ofNat, Nat.mod_eq_of_lt hv, Nat.shiftLeft_eq,
    Nat.mod_eq_of_lt h]

theorem flagBit_eq_fieldAt (on : Bool) (k : Nat) : flagBit on k = fieldAt on.toNat k := by
  cases on
  · simp [flagBit, fieldAt]
  · rfl

theorem toNat_mul_two_pow_lt (on : Bool) {k n : Nat} (h : k < n) : on.toNat * 2 ^ k < 2 ^ n :=
  calc on.toNat * 2 ^ k ≤ 1 * 2 ^ k := Nat.mul_le_mul_right _ on.toNat_le
    _ = 2 ^ k := one_mul _
    _ < 2 ^ n := Nat.pow_lt_pow_right (by decide) h

theorem toNat_flagBit (on : Bool) {k : Nat} (h : k < 32) :
    (flagBit on k).toNat = on.toNat * 2 ^ k := by
  rw [flagBit_eq_fieldAt, toNat_fieldAt (toNat_mul_two_pow_lt on h)]

theorem toNat_flagBit_lt (on : Bool) {k n : Nat} (h : k < n) (hn : n ≤ 32) :
    (flagBit on k).toNat < 2 ^ n := by
  rw [toNat_flagBit on (by omega)]
  exact toNat_mul_two_pow_lt on h

/-- A word above k bits joined to one of k bits: the two do not meet, so their values add. -/
theorem toNat_or_low {x y : Word} (k : Nat) (hx : 2 ^ k ∣ x.toNat) (hy : y.toNat < 2 ^ k) :
    (x ||| y).toNat = x.toNat + y.toNat := by
  obtain ⟨q, hq⟩ := hx
  rw [BitVec.toNat_or, hq, ← Nat.two_pow_add_eq_or_of_lt hy]

theorem toNat_or_high {x y : Word} (k : Nat) (hx : x.toNat < 2 ^ k) (hy : 2 ^ k ∣ y.toNat) :
    (x ||| y).toNat = x.toNat + y.toNat := by
  rw [BitVec.or_comm, toNat_or_low k hy hx, Nat.add_comm]

theorem getLsbD_flagBit (on : Bool) {k : Nat} (i : Nat) (h : k < 32) :
    (flagBit on k).getLsbD i = (on && decide (i = k)) := by
  rw [← BitVec.testBit_toNat, toNat_flagBit on h]
  cases on <;> simp [Nat.testBit_two_pow, eq_comm]

theorem getLsbD_fieldAt_below (v : Nat) {k i : Nat} (h : i < k) :
    (fieldAt v k).getLsbD i = false := by
  simp [fieldAt, h]

/-- Three flags in the low bits. -/
theorem toNat_threeFlags (a b c : Bool) : (flagBit a 0 ||| flagBit b 1 ||| flagBit c 2).toNat =
    a.toNat + 2 * b.toNat + 4 * c.toNat := by
  have ha := a.toNat_le
  have hb := b.toNat_le
  have h0 := toNat_flagBit a (k := 0) (by decide)
  have h1 := toNat_flagBit b (k := 1) (by decide)
  have h2 := toNat_flagBit c (k := 2) (by decide)
  have h01 := toNat_or_high 1 (x := flagBit a 0) (y := flagBit b 1) (by omega) (by omega)
  rw [toNat_or_high 2 (by omega) (by omega)]
  omega

theorem toNat_cfgWord (c : Cfg) :
    c.word.toNat = c.vecEn.toNat + 2 * c.fmaEn.toNat + 4 * c.parEn.toNat :=
  toNat_threeFlags c.vecEn c.fmaEn c.parEn

theorem toNat_irqEnWord (e : IrqEn) :
    e.word.toNat = e.doneIe.toNat + 2 * e.errIe.toNat + 4 * e.accerrIe.toNat :=
  toNat_threeFlags e.doneIe e.errIe e.accerrIe

theorem ErrCode.code_lt (e : ErrCode) : e.code < 6 := by cases e <;> decide

/-- ERRCODE lies above the six flags. -/
theorem toNat_statusWord_div (t : Status) : t.word.toNat / 2 ^ 8 = t.errcode.code := by
  have hcode := t.errcode.code_lt
  have hfield := toNat_fieldAt (v := t.errcode.code) (k := 8) (by omega)
  have hflags : (flagBit t.busy 0 ||| flagBit t.done 1 ||| flagBit t.err 2 ||| flagBit t.accerr 3
      ||| flagBit t.cfgValid 4 ||| flagBit t.dir 5).toNat < 2 ^ 8 := by
    simp only [BitVec.toNat_or]
    repeat' apply Nat.or_lt_two_pow
    all_goals exact toNat_flagBit_lt _ (by decide) (by decide)
  rw [Status.word, toNat_or_high 8 hflags (by omega)]
  omega

/-- The flags of STATUS below ERRCODE, and nothing between. -/
theorem getLsbD_statusWord (t : Status) {i : Nat} (h : i < 8) : t.word.getLsbD i =
    ((t.busy && decide (i = 0)) || (t.done && decide (i = 1)) || (t.err && decide (i = 2)) ||
      (t.accerr && decide (i = 3)) || (t.cfgValid && decide (i = 4)) ||
      (t.dir && decide (i = 5))) := by
  simp only [Status.word, BitVec.getLsbD_or, getLsbD_fieldAt_below _ h, Bool.or_false]
  repeat rw [getLsbD_flagBit _ _ (by decide)]

/-- The parameter fields of CAP on a legal build. -/
theorem wellFormed_fields {b : Build} (h : b.wellFormed = true) :
    b.dmax ≤ 16 ∧ b.log2Lanes ≤ 7 ∧ b.workers ≤ 255 ∧ b.log2FmaThreshold ≤ 16 := by
  simp only [Build.wellFormed, Bool.and_eq_true, decide_eq_true_eq] at h
  obtain ⟨⟨⟨⟨⟨⟨-, hdmax⟩, hlanes⟩, -, hworkers⟩, -, hthr⟩, -⟩, -⟩ := h
  exact ⟨hdmax, hlanes, hworkers, hthr⟩

/-- CAP's fields do not meet. -/
theorem toNat_capWord {b : Build} (h : b.wellFormed = true) : (Build.capWord b).toNat =
    b.log2FmaThreshold * 2 ^ 20 + b.hasFma.toNat * 2 ^ 16 + b.workers * 2 ^ 8
      + b.log2Lanes * 2 ^ 5 + b.dmax := by
  obtain ⟨hdmax, hlanes, hworkers, hthr⟩ := wellFormed_fields h
  have hfma := b.hasFma.toNat_le
  have h20 := toNat_fieldAt (v := b.log2FmaThreshold) (k := 20) (by omega)
  have h16 := toNat_flagBit b.hasFma (k := 16) (by decide)
  have h8 := toNat_fieldAt (v := b.workers) (k := 8) (by omega)
  have h5 := toNat_fieldAt (v := b.log2Lanes) (k := 5) (by omega)
  have h0 := toNat_fieldAt (v := b.dmax) (k := 0) (by omega)
  have hA := toNat_or_low 20 (x := fieldAt b.log2FmaThreshold 20) (y := flagBit b.hasFma 16)
    (by omega) (by omega)
  have hB := toNat_or_low 16 (x := fieldAt b.log2FmaThreshold 20 ||| flagBit b.hasFma 16)
    (y := fieldAt b.workers 8) (by omega) (by omega)
  have hC := toNat_or_low 8 (x := fieldAt b.log2FmaThreshold 20 ||| flagBit b.hasFma 16 |||
    fieldAt b.workers 8) (y := fieldAt b.log2Lanes 5) (by omega) (by omega)
  rw [Build.capWord, toNat_or_low 5 (by omega) (by omega)]
  omega

theorem Phase.code_lt (p : Phase) : p.code < 4 := by cases p <;> decide

/-- STAGE (42_sequencer.md R196). -/
theorem toNat_seqWord {q : Seq} (h : q.p < 2 ^ 5) :
    q.word.toNat = q.p * 2 ^ 8 + q.phase.code := by
  have hcode := q.phase.code_lt
  have h8 := toNat_fieldAt (v := q.p) (k := 8) (by omega)
  have h0 := toNat_fieldAt (v := q.phase.code) (k := 0) (by omega)
  rw [Seq.word, toNat_or_low 8 (by omega) (by omega)]
  omega

/-! ## Written words -/

theorem getLsbD_ofNat_word (v : Nat) {i : Nat} (h : i < 32) :
    (BitVec.ofNat 32 v).getLsbD i = v.testBit i := by
  rw [BitVec.getLsbD_ofNat, decide_eq_true h, Bool.true_and]

theorem IrqEn.ofWord_ofNat (v : Nat) :
    IrqEn.ofWord (BitVec.ofNat 32 v) = ⟨v.testBit 0, v.testBit 1, v.testBit 2⟩ := by
  simp only [IrqEn.ofWord, getLsbD_ofNat_word v (show 0 < 32 by decide),
    getLsbD_ofNat_word v (show 1 < 32 by decide), getLsbD_ofNat_word v (show 2 < 32 by decide)]

/-- An acknowledgement of the bits of a value. -/
theorem acknowledge_ofNat (v : Nat) (s : State) : acknowledge (BitVec.ofNat 32 v) s =
    { s with status := { s.status with
        done := s.status.done && !v.testBit 1
        err := s.status.err && !v.testBit 2
        errcode := if v.testBit 2 then .none else s.status.errcode
        accerr := s.status.accerr && !v.testBit 3 } } := by
  have clear (c x : Bool) : (if c then false else x) = (x && !c) := by
    cases c <;> simp
  simp only [acknowledge, getLsbD_ofNat_word v (show 1 < 32 by decide),
    getLsbD_ofNat_word v (show 2 < 32 by decide), getLsbD_ofNat_word v (show 3 < 32 by decide),
    clear]

theorem irq_eq_true_iff (s : State) : s.irq = true ↔
    (s.status.done = true ∧ s.irqEn.doneIe = true) ∨ (s.status.err = true ∧ s.irqEn.errIe = true) ∨
      (s.status.accerr = true ∧ s.irqEn.accerrIe = true) := by
  simp only [State.irq, Bool.or_eq_true, Bool.and_eq_true, or_assoc]

/-- With all three flags clear nothing is raised. -/
theorem irq_of_flags_clear {s : State} (hdone : s.status.done = false) (herr : s.status.err = false)
    (haccerr : s.status.accerr = false) : s.irq = false := by
  simp [State.irq, hdone, herr, haccerr]

end Sys2Proof.Machine

open Sys2Proof Sys2Proof.Machine

/-- Settles O14: the write is the acknowledgement of its bits. -/
theorem statusWriteClearsFlags : Obligations.StatusWriteClearsFlags := by
  unfold Obligations.StatusWriteClearsFlags
  intro s v rest hb hin
  rw [step_write_reg (r := .status) hb rfl (by decide) rfl hin, regWrite, acknowledge_ofNat]

/-- Settles O15: the flags bit by bit, and ERRCODE as the word above bit 8. -/
theorem statusReadShowsFlags : Obligations.StatusReadShowsFlags := by
  unfold Obligations.StatusReadShowsFlags
  refine ⟨rfl, rfl, rfl, rfl, rfl, rfl, fun s rest hb hin => ?_⟩
  refine ⟨s.status.word, step_read_reg (r := .status) hb rfl (by decide) rfl hin,
    ?_, ?_, ?_, ?_, ?_, ?_, ?_, ?_, toNat_statusWord_div _⟩
  all_goals
    rw [getLsbD_statusWord _ (by decide)]
    simp

/-- Settles O16: the fields of CAP do not meet, and no event changes the build. -/
theorem capReportsBuild : Obligations.CapReportsBuild := by
  unfold Obligations.CapReportsBuild
  refine ⟨by decide, by decide, fun s t hstep => ?_, fun s rest hwf hin => ?_⟩
  · exact congrArg Build.capWord (event_of_step hstep).build_eq
  · obtain ⟨-, -, hb, -⟩ := wellFormed_bounds hwf
    exact ⟨_, step_read_reg (r := .cap) hb rfl (by decide) rfl hin, toNat_capWord hwf⟩

/-- Settles O17: one register after the other. -/
theorem registerReadsReturnRegisters : Obligations.RegisterReadsReturnRegisters := by
  unfold Obligations.RegisterReadsReturnRegisters
  intro s off rest hb hn hd hp hin hoff
  have read (r : Reg) (hr : off = r.offset) : step s = .next { s with
      inputs := rest, draws := s.draws + 1, resp := some (.okay (some (s.regRead r))) } := by
    subst hr
    exact step_read_reg hb (by cases r <;> rfl) (by cases r <;> decide) (by cases r <;> rfl) hin
  rcases hoff with h | h | h | h | h | h | h
  · exact ⟨_, read .cmd h, by simp [h, State.regRead]⟩
  · exact ⟨_, read .arg h, by simp [h, State.regRead]⟩
  · exact ⟨_, read .windowSize h, by simpa [h, State.regRead] using hn⟩
  · exact ⟨_, read .depth h, by simp [h, State.regRead]; omega⟩
  · exact ⟨_, read .cfg h, by simp [h, State.regRead, toNat_cfgWord]⟩
  · refine ⟨_, read .stage h, ?_⟩
    cases hphase : s.seq.phase <;>
      simp [h, State.regRead, toNat_seqWord hp, hphase, Phase.code]
  · exact ⟨_, read .irqEn h, by simp [h, State.regRead, toNat_irqEnWord]⟩

/-- Settles O18: the write rule of the register at each offset. -/
theorem registerWritesStoreOrAreIgnored : Obligations.RegisterWritesStoreOrAreIgnored := by
  unfold Obligations.RegisterWritesStoreOrAreIgnored
  intro s off v rest hb hin t
  have write (r : Reg) (hr : off = r.offset) : step s = regWrite r (BitVec.ofNat 32 v) t := by
    subst hr
    exact step_write_reg hb (by cases r <;> rfl) (by cases r <;> decide) (by cases r <;> rfl) hin
  refine ⟨write .arg, fun h => ?_, ?_⟩
  · rw [write .irqEn h, regWrite, IrqEn.ofWord_ofNat]
  · rintro (h | h | h | h | h)
    · exact write .cap h
    · exact write .windowSize h
    · exact write .depth h
    · exact write .cfg h
    · exact write .stage h

/-- Settles O19: the level by its definition, and no flag is left after a reset or a full
acknowledgement. -/
theorem interruptLevelFollowsFlags : Obligations.InterruptLevelFollowsFlags := by
  unfold Obligations.InterruptLevelFollowsFlags
  refine ⟨irq_eq_true_iff, fun b => irq_of_flags_clear rfl rfl rfl, ?_, ?_⟩
  · intro s p rest t hin hstep
    rw [step_cons hin] at hstep
    cases hstep
    exact irq_of_flags_clear rfl rfl rfl
  · intro s rest t hb hin hstep
    rw [statusWriteClearsFlags s 0xE rest hb hin] at hstep
    cases hstep
    exact irq_of_flags_clear (Bool.and_false _) (Bool.and_false _) (Bool.and_false _)

/-- Settles O53: every register but CAP is 0 for every build, and CAP is evaluated for the two. -/
theorem resetValues : Obligations.ResetValues := by
  unfold Obligations.ResetValues
  refine ⟨fun b => ⟨fun r hr => ?_, rfl, rfl, fun _ => rfl, rfl⟩, rfl, by decide, rfl, by decide⟩
  cases r with
  | cap => exact absurd rfl hr
  | cmd | arg | windowSize | depth => rfl
  | status => exact (by decide : Status.reset.word = 0)
  | cfg => exact (by decide : Cfg.reset.word = 0)
  | stage => exact (by decide : Seq.idle.word = 0)
  | irqEn => exact (by decide : IrqEn.reset.word = 0)
end

section
/-! PROOF. The host port: what a read leaves, the banks as the quarters of their entries, and the
ROM window. -/

namespace Sys2Proof.Machine

/-! ## Accesses to the block -/

/-- A host read changes the response, and ACCERR exactly when that response is the read's ERROR
(20_memory.md R82, 60_exceptions.md R245). -/
theorem hostRead_eq_answer (addr n : Nat) (s : State) :
    ∃ r, hostRead addr n s = { s with
        resp := some r
        status := { s.status with accerr := s.status.accerr || decide (r = .error (some 0)) } } ∧
      r ≠ .error none := by
  unfold hostRead
  split
  · exact ⟨.unclaimed, by simp, nofun⟩
  · split
    · exact ⟨.okay (some (s.dataAt (addr - s.build.base))), by simp, nofun⟩
    · exact ⟨.error (some 0), by simp [busError], nofun⟩

theorem claims_base_add (b : Build) {off : Nat} (h : off < 0x400000) :
    Build.claims b (b.base + off) = true := by
  simpa [Build.claims] using h

theorem step_read_accepted {s : State} {off n : Nat} {rest : List Input} (ho : off < 0x400000)
    (hacc : s.accepts (s.build.base + off) n false = true)
    (h : s.inputs = .read (s.build.base + off) n :: rest) :
    step s = .next { s with
      inputs := rest, draws := s.draws + 1
      resp := some (.okay (some ((s.advanced rest).dataAt off))) } := by
  have hclaims := claims_base_add s.build ho
  rw [step_cons h]
  change Host.Outcome.next (hostRead _ _ _) = _
  rw [hostRead, if_neg (by simp [hclaims]), if_pos (by exact hacc), advanced_build,
    Nat.add_sub_cancel_left]
  rfl

theorem step_write_rejected {s : State} {off n v : Nat} {rest : List Input} (ho : off < 0x400000)
    (hacc : s.accepts (s.build.base + off) n true = false)
    (h : s.inputs = .write (s.build.base + off) n v :: rest) :
    step s = .next { s with
      inputs := rest, draws := s.draws + 1, resp := some (.error none)
      status := { s.status with accerr := true } } := by
  have hclaims := claims_base_add s.build ho
  have hrej : ¬ (s.advanced rest).accepts (s.build.base + off) n true = true :=
    Bool.eq_false_iff.1 hacc
  rw [step_cons h]
  change hostWrite _ _ _ _ = _
  rw [hostWrite, if_neg (by simp [hclaims]), if_neg hrej]
  rfl

/-! ## Quarters of an entry -/

/-- Quarter q of an entry is a half of one of its components (20_memory.md R73). -/
theorem toNat_getD_quartersOf (e : Sample) {q : Nat} (hq : q < 4) :
    ((quartersOf e).getD q 0).toNat =
      (if q < 2 then e.re else e.im).toNat / 2 ^ (32 * (q % 2)) % 2 ^ 32 := by
  interval_cases q <;> simp [quartersOf, Nat.shiftRight_eq_div_pow]

theorem toNat_componentOf (lo hi : Word) :
    (componentOf lo hi).toNat = 2 ^ 32 * hi.toNat + lo.toNat := by
  rw [componentOf, BitVec.toNat_append, Nat.shiftLeft_eq, Nat.mul_comm,
    Nat.two_pow_add_eq_or_of_lt lo.isLt]

theorem extractLsb'_low_componentOf (lo hi : Word) :
    (componentOf lo hi).extractLsb' 0 32 = lo := by
  apply BitVec.eq_of_toNat_eq
  have hlo := lo.isLt
  rw [BitVec.extractLsb'_toNat, toNat_componentOf, Nat.shiftRight_eq_div_pow]
  omega

theorem extractLsb'_high_componentOf (lo hi : Word) :
    (componentOf lo hi).extractLsb' 32 32 = hi := by
  apply BitVec.eq_of_toNat_eq
  have hlo := lo.isLt
  have hhi := hi.isLt
  rw [BitVec.extractLsb'_toNat, toNat_componentOf, Nat.shiftRight_eq_div_pow]
  omega

/-- The word k bytes into a block read is the word at the block's offset + k. -/
theorem wordOrDraw_drop_readBlock (draw : Word) (m : Memory) (a : Nat) {k n : Nat}
    (h : k + 4 ≤ n) : wordOrDraw draw ((Memory.readBlock m a n).drop k) =
      wordOrDraw draw (Memory.readBlock m (a + k) 4) := by
  have hget : ∀ i, i < 4 → ((Memory.readBlock m a n).drop k).getD i none =
      (Memory.readBlock m (a + k) 4).getD i none := by
    intro i hi
    rw [Memory.getD_readBlock hi, List.getD_eq_getElem?_getD, List.getElem?_drop,
      ← List.getD_eq_getElem?_getD, Memory.getD_readBlock (by omega), Nat.add_assoc]
  simp only [wordOrDraw, hget 0 (by decide), hget 1 (by decide), hget 2 (by decide),
    hget 3 (by decide)]

/-- Quarter q of a bank entry is the bank word at the entry's offset + 4q. -/
theorem getD_quartersOf_readEntry (s : State) (b i slot : Nat) {q : Nat} (hq : q < 4) :
    (quartersOf (s.readEntry b i slot)).getD q 0 =
      s.readWord (bankOffset b i + 4 * q) (4 * slot + q) := by
  unfold State.readWord
  rw [← wordOrDraw_drop_readBlock _ _ _ (n := 16) (by omega)]
  interval_cases q <;>
    simp [State.readEntry, sampleOrDraw, quartersOf, extractLsb'_low_componentOf,
      extractLsb'_high_componentOf]

/-! ## Written words of a bank -/

theorem byteLane_eq_ofNat (w : Word) (k : Nat) :
    byteLane w k = BitVec.ofNat 8 (w.toNat / 2 ^ (8 * k)) := by
  apply BitVec.eq_of_toNat_eq
  simp [byteLane, Nat.shiftRight_eq_div_pow]

theorem getD_bytesOfWord (w : Word) {k : Nat} (hk : k < 4) :
    ((bytesOfWord w).map some).getD k none = some (byteLane w k) := by
  interval_cases k <;> rfl

/-- Four written bytes are the bytes of one word, byte lane k at offset + k (20_memory.md R77). -/
theorem exists_word_of_written {m : Memory} {off : Nat}
    (h : ∀ k, k < 4 → (Memory.get m (off + k)).isSome = true) :
    ∃ w, Memory.readBlock m off 4 = (bytesOfWord w).map some := by
  obtain ⟨b0, h0⟩ := Option.isSome_iff_exists.1 (h 0 (by decide))
  obtain ⟨b1, h1⟩ := Option.isSome_iff_exists.1 (h 1 (by decide))
  obtain ⟨b2, h2⟩ := Option.isSome_iff_exists.1 (h 2 (by decide))
  obtain ⟨b3, h3⟩ := Option.isSome_iff_exists.1 (h 3 (by decide))
  refine ⟨wordOfBytes b0 b1 b2 b3, ?_⟩
  rw [bytesOfWord_wordOfBytes, Memory.readBlock_eq]
  simp only [List.range_succ, List.range_zero, List.nil_append, List.cons_append, List.map_cons,
    List.map_nil, h0, h1, h2, h3]

theorem get_of_readBlock_word {m : Memory} {off k : Nat} {w : Word}
    (h : Memory.readBlock m off 4 = (bytesOfWord w).map some) (hk : k < 4) :
    Memory.get m (off + k) = some (BitVec.ofNat 8 (w.toNat / 2 ^ (8 * k))) := by
  rw [← Memory.getD_readBlock hk, h, getD_bytesOfWord w hk, byteLane_eq_ofNat]

theorem get_writeBlock_word (m : Memory) (off a : Nat) (w : Word) :
    Memory.get (m.writeBlock off ((bytesOfWord w).map some)) a = if off ≤ a ∧ a < off + 4
      then some (BitVec.ofNat 8 (w.toNat / 2 ^ (8 * (a - off)))) else Memory.get m a := by
  rw [Memory.get_writeBlock, List.length_map, length_bytesOfWord]
  split
  case isTrue ha => rw [getD_bytesOfWord w (by omega), byteLane_eq_ofNat]
  case isFalse => rfl

/-- An idle, aligned host read of a written bank word returns it and changes nothing. -/
theorem step_read_bank_written {s : State} {off : Nat} {rest : List Input} {w : Word}
    (hr : Build.region s.build off = .bank) (hidle : s.status.busy = false) (ho : off < 0x400000)
    (h4 : (s.build.base + off) % 4 = 0) (h : s.inputs = .read (s.build.base + off) 4 :: rest)
    (hw : Memory.readBlock s.mem off 4 = (bytesOfWord w).map some) :
    step s = .next { s with
      inputs := rest, draws := s.draws + 1, resp := some (.okay (some w)) } := by
  rw [step_read_bank hr hidle ho h4 h, readWord_written (s := s.advanced rest) 0 hw]

/-- The component of an entry holds, in the half that quarter q names, the word of its bytes. -/
theorem component_of_readBlock {s : State} {b i q : Nat} {w : Word} (hq : q < 4)
    (h : Memory.readBlock s.mem (bankOffset b i + 4 * q) 4 = (bytesOfWord w).map some)
    (slot : Nat) :
    (if q < 2 then (s.readEntry b i slot).re else (s.readEntry b i slot).im).toNat
      / 2 ^ (32 * (q % 2)) % 2 ^ 32 = w.toNat := by
  rw [← toNat_getD_quartersOf _ hq, getD_quartersOf_readEntry s b i slot hq,
    readWord_written _ h]

/-! ## The windows of a legal build -/

/-- A bank quarter is an aligned offset of the bank region (20_memory.md R71, R73). -/
theorem region_bankQuarter {bd : Build} (hwf : bd.wellFormed = true) {b i q : Nat} (hb : b < 2)
    (hi : i < 2 ^ bd.dmax) (hq : q < 4) :
    Build.region bd (bankOffset b i + 4 * q) = .bank ∧ bankOffset b i + 4 * q < 0x400000 ∧
      (bd.base + (bankOffset b i + 4 * q)) % 4 = 0 := by
  obtain ⟨-, hD, hbase, -⟩ := wellFormed_bounds hwf
  have hN : 2 ^ bd.dmax ≤ 2 ^ 16 := Nat.pow_le_pow_right (by decide) hD
  rw [region_bank_iff hD, bankOffset]
  omega

/-- A ROM quarter is an aligned offset of the ROM region (20_memory.md R71, R74). -/
theorem region_romQuarter {bd : Build} (hwf : bd.wellFormed = true) {k q : Nat}
    (hk : k < 2 ^ (bd.dmax - 1)) (hq : q < 4) :
    Build.region bd (0x300000 + 16 * k + 4 * q) = .rom ∧ 0x300000 + 16 * k + 4 * q < 0x400000 ∧
      (bd.base + (0x300000 + 16 * k + 4 * q)) % 4 = 0 := by
  obtain ⟨hd, hD, hbase, -⟩ := wellFormed_bounds hwf
  have hN : 2 ^ bd.dmax ≤ 2 ^ 16 := Nat.pow_le_pow_right (by decide) hD
  have hhalf : 2 ^ (bd.dmax - 1) * 2 = 2 ^ bd.dmax := Nat.two_pow_pred_mul_two hd
  exact ⟨region_rom hD (by omega) (by omega), by omega, by omega⟩

theorem romWord_romQuarter (bd : Build) (k : Nat) {q : Nat} (hq : q < 4) :
    Build.romWord bd (0x300000 + 16 * k + 4 * q) = (quartersOf (bd.romEntry k)).getD q 0 := by
  rw [Build.romWord, show (0x300000 + 16 * k + 4 * q - 0x300000) / 16 = k by omega,
    show (0x300000 + 16 * k + 4 * q - 0x300000) / 4 % 4 = q by omega]

end Sys2Proof.Machine

open Sys2Proof Sys2Proof.Machine

/-- Settles O20: the step is the host read, and its answer says whether ACCERR is set. -/
theorem readsHaveNoSideEffects : Obligations.ReadsHaveNoSideEffects := by
  unfold Obligations.ReadsHaveNoSideEffects
  intro s addr n rest hin
  obtain ⟨r, hread, hr⟩ := hostRead_eq_answer addr n (s.advanced rest)
  exact ⟨r, (step_cons hin).trans (congrArg _ hread), hr⟩

/-- Settles O22: the bank access rules, and the quarter's four bytes as one word. -/
theorem bankQuarterWriteThenRead : Obligations.BankQuarterWriteThenRead := by
  unfold Obligations.BankQuarterWriteThenRead
  rintro s b i q off rest hwf hidle hb hi hq rfl
  obtain ⟨hreg, hlt, h4⟩ := region_bankQuarter hwf hb hi hq
  rw [bankOffset] at hreg hlt h4
  refine ⟨fun v hv hin => ?_, fun hin hwritten => ?_⟩
  · have hv' : (BitVec.ofNat 32 v).toNat = v := by simpa using hv
    have hblock := Memory.readBlock_writeBlock_same s.mem (bankOffset b i + 4 * q)
      ((bytesOfWord (BitVec.ofNat 32 v)).map some)
    refine ⟨_, _, rfl, step_write_bank hreg hidle hlt h4 hin, fun a => ?_, fun slot => ?_,
      fun rest' hrest => ?_⟩
    · rw [get_writeBlock_word, hv']
    · exact (component_of_readBlock hq hblock slot).trans hv'
    · exact step_read_bank_written hreg hidle hlt h4 hrest hblock
  · obtain ⟨w, hw⟩ := exists_word_of_written hwritten
    exact ⟨w, step_read_bank_written hreg hidle hlt h4 hin hw,
      fun _ hk => get_of_readBlock_word hw hk, component_of_readBlock hq hw⟩

/-- Settles O24: an accepted read of the ROM region gives the image's quarter, and no write to that
region is accepted. -/
theorem romWindowReadsImageAndRejectsWrites : Obligations.RomWindowReadsImageAndRejectsWrites := by
  unfold Obligations.RomWindowReadsImageAndRejectsWrites
  intro s k q rest hwf hidle hk hq
  obtain ⟨hreg, hlt, h4⟩ := region_romQuarter hwf hk hq
  refine ⟨fun hin => ?_, fun v hin => step_write_rejected hlt ?_ hin⟩
  · refine ⟨_, step_read_accepted hlt ?_ hin, ?_⟩
    · simp [State.accepts, State.regionAccepts, h4, hreg, hidle]
    · rw [State.dataAt, advanced_build, hreg, ← toNat_getD_quartersOf _ hq,
        ← romWord_romQuarter _ k hq]
  · simp [State.accepts, State.regionAccepts, hreg]
end

section
/-! PROOF. The encoding: each legal word is the word of one command, and the illegal words are the
others (30_encoding.md R101 to R107). -/

namespace Sys2Proof

/-! ## Words that match a row -/

/-- A mask of all ones leaves the row a single word (R104). -/
theorem hits_iff_of_full_mask {r : OpcodeRow} (hmask : r.mask = BitVec.allOnes 32) (w : Word) :
    r.hits w = true ↔ r.matchBits = w := by
  rw [OpcodeRow.hits, hmask, BitVec.and_allOnes, beq_iff_eq, eq_comm]

/-- An enable read from its place and put back is that bit of the word (R101). -/
theorem enableBit_getLsbD (w : Word) (k : Nat) :
    enableBit (w.getLsbD k) k = w &&& BitVec.twoPow 32 k := by
  rw [BitVec.and_twoPow, enableBit, BitVec.twoPow]
  rfl

/-- CONFIG's mask and its three enables cover the word (R101, R104). -/
theorem encode_config_of_hits {w : Word} (h : rowConfig.hits w = true) :
    encode (.config (w.getLsbD 4) (w.getLsbD 5) (w.getLsbD 6)) = w := by
  have hmatch : (1 : Word) = w &&& rowConfig.mask := (beq_iff_eq.1 h).symm
  have hcover : rowConfig.mask ||| BitVec.twoPow 32 4 ||| BitVec.twoPow 32 5 ||| BitVec.twoPow 32 6
      = BitVec.allOnes 32 := by decide
  calc encode (.config (w.getLsbD 4) (w.getLsbD 5) (w.getLsbD 6))
    _ = w &&& rowConfig.mask ||| w &&& BitVec.twoPow 32 4 ||| w &&& BitVec.twoPow 32 5
          ||| w &&& BitVec.twoPow 32 6 := by
      simp only [encode, enableBit_getLsbD, ← hmatch]
    _ = w := by
      rw [← BitVec.and_or_distrib_left, ← BitVec.and_or_distrib_left,
        ← BitVec.and_or_distrib_left, hcover, BitVec.and_allOnes]

theorem exists_encode_of_hits {r : OpcodeRow} {w : Word} (hr : r ∈ opcodeMap)
    (h : r.hits w = true) : ∃ i, encode i = w := by
  simp only [opcodeMap, List.mem_cons, List.not_mem_nil, or_false] at hr
  rcases hr with rfl | rfl | rfl | rfl
  · exact ⟨.nop, (hits_iff_of_full_mask rfl w).1 h⟩
  · exact ⟨_, encode_config_of_hits h⟩
  · exact ⟨.dft, (hits_iff_of_full_mask rfl w).1 h⟩
  · exact ⟨.idft, (hits_iff_of_full_mask rfl w).1 h⟩

/-- The command of every row of the map has that row, and its word matches it (R104). -/
theorem row_mem_and_hits_encode (i : Instr) : i.row ∈ opcodeMap ∧ i.row.hits (encode i) = true :=
  match i with
  | .nop => Laws.RowMatches.nop
  | .config vec fma par => Laws.RowMatches.config vec fma par
  | .dft => Laws.RowMatches.dft
  | .idft => Laws.RowMatches.idft

/-- Every row's mask keeps OP, so a match fixes OP (R101, R104). -/
theorem opField_of_hits {r : OpcodeRow} {w : Word} (hr : r ∈ opcodeMap) (h : r.hits w = true) :
    opField w = opField r.matchBits := by
  have hop : ∀ r ∈ opcodeMap, opField r.mask = BitVec.allOnes 4 := by decide
  calc opField w
    _ = opField w &&& opField r.mask := by rw [hop r hr, BitVec.and_allOnes]
    _ = opField (w &&& r.mask) := BitVec.extractLsb'_and.symm
    _ = opField r.matchBits := by rw [beq_iff_eq.1 h]

/-- The four rows have four OPs (R104). -/
theorem eq_of_opField_matchBits :
    ∀ r ∈ opcodeMap, ∀ r' ∈ opcodeMap, opField r.matchBits = opField r'.matchBits → r = r' := by
  decide

/-! ## Decoding a word -/

theorem decodeWord_encode (i : Instr) : decodeWord (encode i) = .ok i := by
  cases i with
  | nop => rfl
  | config vec fma par => revert vec fma par; decide
  | dft => rfl
  | idft => rfl

theorem encode_of_decodeWord {w : Word} {i : Instr} (h : decodeWord w = .ok i) :
    encode i = w := by
  unfold decodeWord at h
  split at h
  · cases h; exact (hits_iff_of_full_mask rfl w).1 ‹_›
  split at h
  · cases h; exact encode_config_of_hits ‹_›
  split at h
  · cases h; exact (hits_iff_of_full_mask rfl w).1 ‹_›
  split at h
  · cases h; exact (hits_iff_of_full_mask rfl w).1 ‹_›
  split at h <;> cases h

theorem decodeWord_eq_ok_iff {w : Word} {i : Instr} : decodeWord w = .ok i ↔ encode i = w :=
  ⟨encode_of_decodeWord, fun h => h ▸ decodeWord_encode i⟩

/-- A word is illegal exactly when it is the word of no command. -/
theorem exists_decodeWord_error_iff {w : Word} :
    (∃ e, decodeWord w = .error e) ↔ ¬ ∃ i, encode i = w := by
  simp only [← decodeWord_eq_ok_iff]
  cases decodeWord w <;> simp

/-! ## Decoding bytes -/

theorem decodeBytes_bytesOfWord_append (w : Word) (rest : List Byte) :
    decodeBytes (bytesOfWord w ++ rest) = (decodeWord w).map (·, rest) := by
  simp only [bytesOfWord, List.cons_append, List.nil_append, decodeBytes,
    Machine.wordOfBytes_byteLane]
  cases decodeWord w <;> rfl

/-- Bytes that decode begin with the bytes of a word (20_memory.md R77). -/
theorem decodeBytes_eq_ok_iff {bs : List Byte} {i : Instr} {rest : List Byte} :
    decodeBytes bs = .ok (i, rest) ↔ ∃ w, decodeWord w = .ok i ∧ bs = bytesOfWord w ++ rest := by
  constructor
  · intro h
    unfold decodeBytes at h
    split at h
    · split at h
      · cases h
        exact ⟨_, ‹_›, by rw [Machine.bytesOfWord_wordOfBytes]; rfl⟩
      · cases h
    · cases h
  · rintro ⟨w, hw, rfl⟩
    rw [decodeBytes_bytesOfWord_append, hw]
    rfl

/-! ## The legal words as numbers -/

theorem toNat_encode_config (vec fma par : Bool) :
    (encode (.config vec fma par)).toNat =
      1 + 16 * vec.toNat + 32 * fma.toNat + 64 * par.toNat := by
  revert vec fma par
  decide

/-- The legal words: OP with no bit above it, or CONFIG's OP with its three enables (R105). -/
theorem exists_encode_iff (w : Word) : (∃ i, encode i = w) ↔
    w.toNat = 0 ∨ (w.toNat % 16 = 1 ∧ w.toNat < 128) ∨ w.toNat = 2 ∨ w.toNat = 3 := by
  constructor
  · rintro ⟨i, rfl⟩
    cases i with
    | nop => exact .inl rfl
    | config vec fma par =>
      have hvec := vec.toNat_le
      have hfma := fma.toNat_le
      have hpar := par.toNat_le
      rw [toNat_encode_config]
      omega
    | dft => exact .inr (.inr (.inl rfl))
    | idft => exact .inr (.inr (.inr rfl))
  · rintro (h | ⟨hop, hlt⟩ | h | h)
    · exact ⟨.nop, BitVec.eq_of_toNat_eq h.symm⟩
    · refine ⟨.config (w.getLsbD 4) (w.getLsbD 5) (w.getLsbD 6), BitVec.eq_of_toNat_eq ?_⟩
      simp only [toNat_encode_config, BitVec.getLsbD, Nat.toNat_testBit]
      omega
    · exact ⟨.dft, BitVec.eq_of_toNat_eq h.symm⟩
    · exact ⟨.idft, BitVec.eq_of_toNat_eq h.symm⟩

/-! ## Executing a word -/

theorem Machine.execute_of_decodeWord_error {w : Word} {e : DecodeError}
    (h : decodeWord w = .error e) (s : Machine.State) :
    Machine.execute w s = .next (Machine.cmdError .illegalCmd s) := by
  rw [Machine.execute, h]

end Sys2Proof

open Sys2Proof Sys2Proof.Machine

/-- Settles O2: a decoded word is its command's word, and bytes decode as the word at their head. -/
theorem decodeAndEncodeAgree : Obligations.DecodeAndEncodeAgree := by
  unfold Obligations.DecodeAndEncodeAgree
  refine ⟨fun _ _ => decodeWord_eq_ok_iff, fun bs i rest => ?_⟩
  simp [decodeBytes_eq_ok_iff, decodeWord_eq_ok_iff]

/-- Settles O3: a match fixes OP, which no two rows share, and a matching word is a command's. -/
theorem exactlyOneRowMatchesOrNone : Obligations.ExactlyOneRowMatchesOrNone := by
  unfold Obligations.ExactlyOneRowMatchesOrNone
  refine ⟨fun w r r' hr hr' h h' => ?_, fun w i h => ?_, ?_⟩
  · exact eq_of_opField_matchBits r hr r' hr'
      ((opField_of_hits hr h).symm.trans (opField_of_hits hr' h'))
  · rw [← encode_of_decodeWord h]
    exact row_mem_and_hits_encode i
  · rintro w ⟨r, hr, h⟩
    obtain ⟨i, rfl⟩ := exists_encode_of_hits hr h
    exact ⟨i, decodeWord_encode i⟩

/-- Settles O4: the illegal words are those of no command, and their effect is the recorded code. -/
theorem illegalWordsRejectedInEveryState : Obligations.IllegalWordsRejectedInEveryState := by
  unfold Obligations.IllegalWordsRejectedInEveryState
  refine ⟨fun w => ?_, fun w s ⟨e, he⟩ => execute_of_decodeWord_error he s, rfl⟩
  rw [exists_decodeWord_error_iff, exists_encode_iff]
  omega

/-- Settles O1: the listed words are the encodings of their commands. -/
theorem listedCommandWordsDecode : Obligations.ListedCommandWordsDecode :=
  ⟨decodeWord_encode .nop, decodeWord_encode (.config false false false),
    decodeWord_encode (.config true false false), decodeWord_encode (.config false true false),
    decodeWord_encode (.config false false true), decodeWord_encode (.config true true true),
    decodeWord_encode .dft, decodeWord_encode .idft⟩
end

section
/-! PROOF. The ROM never changes: no event of a step touches the build. -/

open Sys2Proof Sys2Proof.Machine

/-- Settles O25: a step is one of the events, and each keeps the build, the ROM in it. -/
theorem noStepWritesTheRom : Obligations.NoStepWritesTheRom := by
  unfold Obligations.NoStepWritesTheRom
  intro s t hstep
  have hbuild := (event_of_step hstep).build_eq
  exact ⟨hbuild, fun k => by rw [hbuild]⟩
end

section
/-! PROOF. The coefficient read: its index, its stride, and the conjugate (40_twiddle_rom.md R134
to R136). -/

namespace Sys2Proof

theorem mul_two_pow_lt {x a k n : Nat} (hx : x < 2 ^ a) (hn : a + k = n) : x * 2 ^ k < 2 ^ n := by
  rw [← hn, pow_add]
  exact Nat.mul_lt_mul_of_pos_right hx (Nat.two_pow_pos k)

theorem romIndex_eq (b : Build) (d c : Nat) : b.romIndex d c = c * 2 ^ (b.dmax - d) :=
  Nat.shiftLeft_eq c _

theorem coef_forward (b : Build) (d c : Nat) :
    b.coef d c false = b.romEntry (c * 2 ^ (b.dmax - d)) := by
  rw [← romIndex_eq]
  rfl

theorem coef_inverse (b : Build) (d c : Nat) :
    b.coef d c true = conj (b.romEntry (c * 2 ^ (b.dmax - d))) := by
  rw [← romIndex_eq]
  rfl

theorem romEntry_of_defaultImage {b : Build} (h : b.rom = .defaultImage) (k : Nat) :
    b.romEntry k = defaultRom b.dmax k := by
  rw [Build.romEntry, h]

/-- The mask of `fneg` is bit 63 alone. -/
theorem getLsbD_fneg (x : B64) (k : Nat) :
    (fneg x).getLsbD k = (x.getLsbD k ^^ decide (k = 63)) := by
  have hmask : (0x8000000000000000 : B64) = BitVec.twoPow 64 63 := rfl
  rw [fneg, BitVec.getLsbD_xor, hmask, BitVec.getLsbD_twoPow]
  simp [eq_comm]

end Sys2Proof

open Sys2Proof Sys2Proof.Machine

/-- Settles O28: reducedTop is below half of the stage's groups, and each scaling by a power of two
moves the bound with the index. -/
theorem coefficientIndexInsideRom : Obligations.CoefficientIndexInsideRom := by
  unfold Obligations.CoefficientIndexInsideRom
  refine ⟨by decide, fun b d p j h1 h2 hd hj => ?_⟩
  have hc : (indexGen d p j).c = reducedTop d p j * 2 ^ (d - p) := coefIndex_eq d p j
  have hrt := reducedTop_lt h1 h2 hj
  have hlt : (indexGen d p j).c < 2 ^ (d - 1) := hc ▸ mul_two_pow_lt hrt (by omega)
  refine ⟨hc, hrt, hlt, romIndex_eq b d _, ?_⟩
  rw [romIndex_eq]
  exact mul_two_pow_lt hlt (by omega)
end

section
/-! PROOF. The default image at one angle is the same in every table that holds it: so each
coefficient is that of its own size, and each closed form that of the smallest table
(40_twiddle_rom.md R132, R137). -/

namespace Sys2Proof

/-- The stride cancels in the angle, whatever its rounding. -/
theorem fixAngle_mul_two_pow (d c e : Nat) : fixAngle (d + e) (c * 2 ^ e) = fixAngle d c := by
  rw [fixAngle, fixAngle, ← mul_assoc, pow_add, Nat.mul_div_mul_right _ _ (Nat.two_pow_pos e)]

/-- Stride equivalence: a table 2^e times as large holds the same entry at 2^e times the index. -/
theorem defaultRom_mul_two_pow {d : Nat} (hd : 1 ≤ d) (c e : Nat) :
    defaultRom (d + e) (c * 2 ^ e) = defaultRom d c := by
  have he := Nat.two_pow_pos e
  have hlt : 4 * (c * 2 ^ e) < 2 ^ (d + e) ↔ 4 * c < 2 ^ d := by
    rw [← mul_assoc, pow_add, Nat.mul_lt_mul_right he]
  have heq : 4 * (c * 2 ^ e) = 2 ^ (d + e) ↔ 4 * c = 2 ^ d := by
    rw [← mul_assoc, pow_add, Nat.mul_left_inj he.ne']
  have hmirror : 2 ^ (d + e) / 2 - c * 2 ^ e = (2 ^ d / 2 - c) * 2 ^ e := by
    have hhalf : 2 ^ d = 2 * 2 ^ (d - 1) := (mul_pow_sub_one (by omega) 2).symm
    rw [pow_add, hhalf, mul_assoc, Nat.mul_div_cancel_left _ two_pos,
      Nat.mul_div_cancel_left _ two_pos, Nat.sub_mul]
  simp only [defaultRom, hlt, heq, hmirror, fixAngle_mul_two_pow]

/-- Entries of two tables at the same fraction of a turn, k / 2^D = c / 2^d. -/
theorem defaultRom_of_sameAngle {d D k c : Nat} (hd : 1 ≤ d) (hD : d ≤ D)
    (h : k * 2 ^ d = c * 2 ^ D) : defaultRom D k = defaultRom d c := by
  obtain ⟨e, rfl⟩ := Nat.exists_eq_add_of_le hD
  rw [pow_add, mul_left_comm, mul_comm, Nat.mul_right_inj (Nat.two_pow_pos d).ne'] at h
  rw [h, defaultRom_mul_two_pow hd]

theorem defaultRom_zero {D : Nat} (hD : 1 ≤ D) :
    defaultRom D 0 = ⟨0x3FF0000000000000, 0x0000000000000000⟩ :=
  calc defaultRom D 0
      = defaultRom 1 0 := defaultRom_of_sameAngle le_rfl hD (by simp)
    _ = _ := by decide +kernel

theorem defaultRom_eighth {D : Nat} (hD : 3 ≤ D) :
    defaultRom D (2 ^ D / 8) = ⟨0x3FE6A09E667F3BCD, 0xBFE6A09E667F3BCD⟩ :=
  calc defaultRom D (2 ^ D / 8)
      = defaultRom 3 1 := defaultRom_of_sameAngle (by decide) hD
        ((Nat.div_mul_cancel (pow_dvd_pow 2 hD)).trans (one_mul _).symm)
    _ = _ := by decide +kernel

theorem defaultRom_quarter {D : Nat} (hD : 2 ≤ D) :
    defaultRom D (2 ^ D / 4) = ⟨0x0000000000000000, 0xBFF0000000000000⟩ :=
  calc defaultRom D (2 ^ D / 4)
      = defaultRom 2 1 := defaultRom_of_sameAngle (by decide) hD
        ((Nat.div_mul_cancel (pow_dvd_pow 2 hD)).trans (one_mul _).symm)
    _ = _ := by decide

theorem defaultRom_threeEighths {D : Nat} (hD : 3 ≤ D) :
    defaultRom D (3 * 2 ^ D / 8) = ⟨0xBFE6A09E667F3BCD, 0xBFE6A09E667F3BCD⟩ :=
  calc defaultRom D (3 * 2 ^ D / 8)
      = defaultRom 3 3 := defaultRom_of_sameAngle (by decide) hD
        (Nat.div_mul_cancel (dvd_mul_of_dvd_right (pow_dvd_pow 2 hD) 3))
    _ = _ := by decide +kernel

end Sys2Proof

open Sys2Proof Sys2Proof.Machine

/-- Settles O31: the read's stride is the ratio of the two table sizes. -/
theorem coefficientsDoNotDependOnDmax : Obligations.CoefficientsDoNotDependOnDmax := by
  unfold Obligations.CoefficientsDoNotDependOnDmax
  intro b d c hrom hd hD _
  rw [coef_forward, romEntry_of_defaultImage hrom]
  exact defaultRom_of_sameAngle hd hD (by rw [mul_assoc, pow_sub_mul_pow 2 hD])

/-- Settles O30: each closed form is an entry of the table of 2, 4 or 8 points. -/
theorem defaultRomClosedForms : Obligations.DefaultRomClosedForms :=
  fun _ hD _ => ⟨defaultRom_zero hD, defaultRom_eighth, defaultRom_quarter, defaultRom_threeEighths⟩

/-- Settles O29: an inverse coefficient is a conjugate, and `fneg` flips bit 63 alone. -/
theorem inverseCoefficientIsConjugate : Obligations.InverseCoefficientIsConjugate := by
  unfold Obligations.InverseCoefficientIsConjugate
  refine ⟨fun b d hrom hD _ => ?_, fun b d c => ⟨coef_forward b d c, ?_, fun k hk => ?_, ?_⟩⟩
  · rw [coef_inverse, zero_mul, romEntry_of_defaultImage hrom, defaultRom_zero hD]
    decide
  · rw [coef_inverse, conj]
  · rw [coef_inverse, conj, getLsbD_fneg, decide_eq_false hk.ne, Bool.xor_false]
  · rw [coef_inverse, conj, getLsbD_fneg, decide_eq_true rfl, Bool.xor_true]
end

section
/-! PROOF. The error of the default image: the fixed-point evaluation is within 93 units of 2^-200
of the exact value, and one rounding adds half an ulp (40_twiddle_rom.md R132, log 12). -/

namespace Sys2Proof

open Real

/-- A finite component within half an ulp of its own, and 2^-180 (log 12), of an exact value. -/
def Approximates (x : B64) (y : ℝ) : Prop :=
  isFinite x = true ∧ |componentReal x - y| ≤ halfUlp x + 1 / 2 ^ 180

theorem halfUlp_nonneg (x : B64) : 0 ≤ halfUlp x := by
  unfold halfUlp
  positivity

theorem componentReal_zero : componentReal 0x0000000000000000 = 0 := by
  have hunits : units 0x0000000000000000 = 0 := by decide
  rw [componentReal, hunits, Int.cast_zero, zero_div]

theorem componentReal_neg_one : componentReal 0xBFF0000000000000 = -1 := by
  have hunits : units 0xBFF0000000000000 = -2 ^ 1074 := by decide +kernel
  rw [componentReal, hunits, Int.cast_neg, Int.cast_pow, Int.cast_ofNat, neg_div,
    div_self (by positivity)]

/-- A component that is the exact value itself. -/
theorem approximates_exact {x : B64} {y : ℝ} (hx : isFinite x = true) (hy : componentReal x = y) :
    Approximates x y := by
  refine ⟨hx, ?_⟩
  rw [hy, sub_self, abs_zero]
  exact add_nonneg (halfUlp_nonneg x) (by positivity)

/-- One rounding of a fixed-point value close to an exact value of magnitude at most 1. -/
theorem approximates_fixRound {v : ℤ} {y : ℝ} (hv : |(v : ℝ) / 2 ^ 200 - y| ≤ 93 / 2 ^ 200)
    (hy : |y| ≤ 1) : Approximates (fixRound v) y := by
  have hmag : |v| ≤ 2 * 2 ^ 200 := by
    have hle : |(v : ℝ) / 2 ^ 200| ≤ 2 := by
      have := abs_sub_abs_le_abs_sub ((v : ℝ) / 2 ^ 200) y
      have : (93 : ℝ) / 2 ^ 200 ≤ 1 := by norm_num
      linarith
    rw [abs_div, abs_of_pos (show (0 : ℝ) < 2 ^ 200 by positivity),
      div_le_iff₀ (by positivity)] at hle
    exact_mod_cast hle
  obtain ⟨hfin, hround⟩ := fixRound_error hmag
  refine ⟨hfin, ?_⟩
  calc |componentReal (fixRound v) - y|
      ≤ |componentReal (fixRound v) - v / 2 ^ 200| + |(v : ℝ) / 2 ^ 200 - y| := abs_sub_le _ _ _
    _ ≤ halfUlp (fixRound v) + 1 / 2 ^ 180 := add_le_add hround (hv.trans (by norm_num))

/-- The same evaluation with its sign changed approximates the opposite value. -/
theorem approximates_fixRound_neg {v : ℤ} {y : ℝ}
    (hv : |(v : ℝ) / 2 ^ 200 - y| ≤ 93 / 2 ^ 200) (hy : |y| ≤ 1) :
    Approximates (fixRound (-v)) (-y) :=
  approximates_fixRound (by rwa [Int.cast_neg, neg_div, neg_sub_neg, abs_sub_comm])
    (by rwa [abs_neg])

/-- Up to a quarter turn the evaluation is within 93 units of the exact cosine and sine: 91 at the
fixed-point angle, and the angle's own two. -/
theorem fixCos_fixSin_fixAngle_error {D k : ℕ} (hk : 4 * k ≤ 2 ^ D) :
    |(fixCos (fixAngle D k) : ℝ) / 2 ^ 200 - cos (2 * π * k / 2 ^ D)| ≤ 93 / 2 ^ 200 ∧
      |(fixSin (fixAngle D k) : ℝ) / 2 ^ 200 - sin (2 * π * k / 2 ^ D)| ≤ 93 / 2 ^ 200 := by
  obtain ⟨hangle, hA⟩ := fixAngle_error hk
  obtain ⟨hcos, hsin⟩ := fixCos_fixSin_error hA
  have hsum : (93 : ℝ) / 2 ^ 200 = 91 / 2 ^ 200 + 2 / 2 ^ 200 := by ring
  rw [hsum]
  exact ⟨(abs_sub_le _ _ _).trans (add_le_add hcos ((abs_cos_sub_cos_le _ _).trans hangle)),
    (abs_sub_le _ _ _).trans (add_le_add hsin ((abs_sin_sub_sin_le _ _).trans hangle))⟩

/-- The mirror image in the second quarter turn: k and 2^D / 2 - k make half a turn. -/
theorem angle_mirror {D k : ℕ} (hD : 1 ≤ D) (hk : k < 2 ^ (D - 1)) :
    2 * π * k / 2 ^ D = π - 2 * π * (2 ^ D / 2 - k : ℕ) / 2 ^ D := by
  have hhalf : 2 ^ D / 2 = 2 ^ (D - 1) := Nat.pow_div hD two_pos
  have hpow : (2 : ℝ) ^ D = 2 * 2 ^ (D - 1) := (mul_pow_sub_one (by omega) 2).symm
  rw [hhalf, Nat.cast_sub hk.le, hpow]
  push_cast
  field_simp
  ring

/-- Every entry of the default image: below the quarter turn by evaluation, at it exactly, above it
by the mirror image. -/
theorem approximates_defaultRom {D k : ℕ} (hD : 1 ≤ D) (hk : k < 2 ^ (D - 1)) :
    Approximates (defaultRom D k).re (cos (2 * π * k / 2 ^ D)) ∧
      Approximates (defaultRom D k).im (-sin (2 * π * k / 2 ^ D)) := by
  unfold defaultRom
  split
  case isTrue hlt =>
    obtain ⟨hcos, hsin⟩ := fixCos_fixSin_fixAngle_error hlt.le
    exact ⟨approximates_fixRound hcos (abs_cos_le_one _),
      approximates_fixRound_neg hsin (abs_sin_le_one _)⟩
  case isFalse hge =>
    split
    case isTrue heq =>
      have hk4 : (k : ℝ) = 2 ^ D / 4 := by
        rw [eq_div_iff (by norm_num), mul_comm]
        exact_mod_cast heq
      have hangle : 2 * π * k / 2 ^ D = π / 2 := by
        rw [hk4]
        field_simp
        norm_num
      rw [hangle, cos_pi_div_two, sin_pi_div_two]
      exact ⟨approximates_exact (by decide) componentReal_zero,
        approximates_exact (by decide) componentReal_neg_one⟩
    case isFalse hne =>
      have hpow : 2 ^ (D - 1) * 2 = 2 ^ D := Nat.two_pow_pred_mul_two hD
      have hmirror : 4 * (2 ^ D / 2 - k) ≤ 2 ^ D := by omega
      obtain ⟨hcos, hsin⟩ := fixCos_fixSin_fixAngle_error hmirror
      rw [angle_mirror hD hk, cos_pi_sub, sin_pi_sub]
      exact ⟨approximates_fixRound_neg hcos (abs_cos_le_one _),
        approximates_fixRound_neg hsin (abs_sin_le_one _)⟩

end Sys2Proof

open Sys2Proof Sys2Proof.Machine

/-- Settles O32: each component of an entry by the quarter of the turn its index is in. -/
theorem defaultRomApproximatesRootsOfUnity : Obligations.DefaultRomApproximatesRootsOfUnity := by
  unfold Obligations.DefaultRomApproximatesRootsOfUnity
  intro D k hD _ hk
  obtain ⟨⟨hre, hcos⟩, ⟨him, hsin⟩⟩ := approximates_defaultRom hD hk
  rw [sub_neg_eq_add] at hsin
  exact ⟨hre, him, hcos, hsin⟩
end

section
/-! PROOF. The index generator: its ranges, and the two outputs of each butterfly (41_butterfly.md
R151 to R154). -/

namespace Sys2Proof

variable {d p : Nat}

theorem topIndex_lt {j : Nat} (h : p ≤ d) (hj : j < 2 ^ d) : topIndex d p j < 2 ^ p := by
  rw [topIndex_eq]
  apply Nat.div_lt_of_lt_mul
  rwa [← pow_add, Nat.sub_add_cancel h]

theorem bottomIndex_lt (d p j : Nat) : bottomIndex d p j < 2 ^ (d - p) := by
  rw [bottomIndex_eq]
  exact Nat.mod_lt j (Nat.two_pow_pos _)

theorem topIndex_mul_add_bottomIndex (d p j : Nat) :
    topIndex d p j * 2 ^ (d - p) + bottomIndex d p j = j := by
  rw [topIndex_eq, bottomIndex_eq, Nat.div_add_mod']

/-- The index generator's answer, from the two parts of the output's index. -/
theorem indexGen_eq (d p j : Nat) : indexGen d p j =
    ⟨!decide (topIndex d p j < 2 ^ (p - 1)), reducedTop d p j * 2 ^ (d - p),
      bottomIndex d p j + 2 * reducedTop d p j * 2 ^ (d - p),
      bottomIndex d p j + 2 * reducedTop d p j * 2 ^ (d - p) + 2 ^ (d - p)⟩ := by
  have hshift : coefIndex d p j <<< 1 = 2 * reducedTop d p j * 2 ^ (d - p) := by
    rw [coefIndex_eq, Nat.shiftLeft_eq]
    ring
  rw [indexGen, hshift, halfTop_eq, bottomExtent_eq, coefIndex_eq]

/-- The groups of 2E entries that the butterflies of one stage work in fill the transform. -/
theorem group_le_two_pow {rt : Nat} (h1 : 1 ≤ p) (h2 : p ≤ d) (hrt : rt < 2 ^ (p - 1)) :
    rt * (2 * 2 ^ (d - p)) + 2 * 2 ^ (d - p) ≤ 2 ^ d :=
  calc rt * (2 * 2 ^ (d - p)) + 2 * 2 ^ (d - p) = (rt + 1) * (2 * 2 ^ (d - p)) := by ring
    _ ≤ 2 ^ (p - 1) * (2 * 2 ^ (d - p)) := Nat.mul_le_mul_right _ hrt
    _ = 2 ^ d := by rw [two_pow_split h1 h2]; ring

/-! ## The two outputs of a butterfly -/

section
variable {t bottom : Nat} (hb : bottom < 2 ^ (d - p))
include hb

theorem topIndex_mul_add : topIndex d p (t * 2 ^ (d - p) + bottom) = t := by
  rw [topIndex_eq, Nat.mul_comm, Nat.mul_add_div (Nat.two_pow_pos _), Nat.div_eq_of_lt hb,
    Nat.add_zero]

theorem bottomIndex_mul_add : bottomIndex d p (t * 2 ^ (d - p) + bottom) = bottom := by
  rw [bottomIndex_eq, Nat.mul_comm, Nat.mul_add_mod, Nat.mod_eq_of_lt hb]

theorem reducedTop_even (ht : t < 2 ^ (p - 1)) :
    reducedTop d p (t * 2 ^ (d - p) + bottom) = t := by
  rw [reducedTop, topIndex_mul_add hb, halfTop_eq, if_pos ht]

theorem reducedTop_odd : reducedTop d p ((t + 2 ^ (p - 1)) * 2 ^ (d - p) + bottom) = t := by
  rw [reducedTop, topIndex_mul_add hb, halfTop_eq, if_neg (by omega), Nat.add_sub_cancel]

end

/-- Every output is the even or the odd half of the butterfly of its reduced top and bottom. -/
theorem even_or_odd_half (d p j : Nat) :
    j = reducedTop d p j * 2 ^ (d - p) + bottomIndex d p j ∨
      j = (reducedTop d p j + 2 ^ (p - 1)) * 2 ^ (d - p) + bottomIndex d p j := by
  have hj := topIndex_mul_add_bottomIndex d p j
  unfold reducedTop
  rw [halfTop_eq]
  split
  case isTrue => exact .inl hj.symm
  case isFalse hodd => exact .inr (by rw [Nat.sub_add_cancel (by omega), hj])

end Sys2Proof

open Sys2Proof

/-- Settles O26: the operands of an output lie in the group of 2E entries that its reduced top
numbers, and the groups fill the transform. -/
theorem indexGeneratorRanges : Obligations.IndexGeneratorRanges := by
  unfold Obligations.IndexGeneratorRanges
  intro d p j h1 h2 hj
  have hrt := reducedTop_lt h1 h2 hj
  have hb := bottomIndex_lt d p j
  have hgroup := group_le_two_pow h1 h2 hrt
  have hc : reducedTop d p j * 2 ^ (d - p) < 2 ^ (d - 1) := mul_two_pow_lt hrt (by omega)
  have hie : bottomIndex d p j + 2 * reducedTop d p j * 2 ^ (d - p) =
      reducedTop d p j * (2 * 2 ^ (d - p)) + bottomIndex d p j := by ring
  rw [indexGen_eq, hie]
  refine ⟨topIndex_lt h2 hj, hb, hrt, hc, rfl, ?_⟩
  dsimp only
  omega

/-- Settles O27: top and bottom of an output are the quotient and the remainder by E, so they
determine the butterfly and its half, and are determined by them. -/
theorem outputsPairIntoButterflies : Obligations.OutputsPairIntoButterflies := by
  unfold Obligations.OutputsPairIntoButterflies
  refine ⟨fun d p rt bottom _ _ hrt hb => ⟨?_, ?_⟩, fun d p j h1 h2 hj => ?_⟩
  · rw [indexGen_eq, reducedTop_even hb hrt, bottomIndex_mul_add hb, topIndex_mul_add hb,
      decide_eq_true hrt, Bool.not_true]
  · rw [indexGen_eq, reducedTop_odd hb, bottomIndex_mul_add hb, topIndex_mul_add hb,
      decide_eq_false (by omega), Bool.not_false]
  · refine ⟨(reducedTop d p j, bottomIndex d p j),
      ⟨reducedTop_lt h1 h2 hj, bottomIndex_lt d p j, even_or_odd_half d p j⟩, ?_⟩
    rintro ⟨rt, bottom⟩ ⟨hrt, hb, rfl | rfl⟩
    · rw [reducedTop_even hb hrt, bottomIndex_mul_add hb]
    · rw [reducedTop_odd hb, bottomIndex_mul_add hb]
end

section
/-! PROOF. The special cases of the four operations: NaNs, infinities and zeros (41_butterfly.md
R162, R163). -/

namespace Sys2Proof

open Machine

/-! ## Commuted operands -/

theorem eq_infinity_of_isInf {x : B64} (h : isInf x = true) : x = infinity (fsign x) := by
  obtain ⟨he, hf⟩ := isInf_iff.1 h
  conv_lhs => rw [eq_withSign x, he, hf]
  rfl

/-- Infinities of one sign are one value, so it does not matter which of them a sum returns. -/
theorem fadd_comm (nan : BitVec 52) (a b : B64) : fadd nan a b = fadd nan b a := by
  have hsame : isInf a = true → isInf b = true → fsign a = fsign b → a = b := fun ha hb hs => by
    rw [eq_infinity_of_isInf ha, eq_infinity_of_isInf hb, hs]
  unfold fadd
  rw [Bool.or_comm (isNaN b), Bool.and_comm (fsign b), add_comm (units b)]
  cases ha : isInf a
  · simp
  · cases hb : isInf b
    · simp
    · by_cases hs : fsign a = fsign b
      · simp [hsame ha hb hs]
      · simp [hs, Ne.symm hs]

theorem fmul_comm (nan : BitVec 52) (a b : B64) : fmul nan a b = fmul nan b a := by
  unfold fmul
  rw [Bool.or_comm (isNaN b), Bool.or_comm (isInf b), Bool.or_comm (isZero b),
    Bool.xor_comm (fsign b), mul_comm (units b)]

theorem ffma_comm (nan : BitVec 52) (a b c : B64) : ffma nan a b c = ffma nan b a c := by
  unfold ffma
  rw [Bool.or_comm (isNaN b), Bool.or_comm (isInf b), Bool.or_comm (isZero b),
    Bool.xor_comm (fsign b), mul_comm (units b)]

/-! ## Invalid operations -/

/-- The result is the quiet NaN of the draw if the operation is invalid, and no NaN otherwise. -/
structure NaNExactlyIf (invalid : Prop) (nan : BitVec 52) (x : B64) : Prop where
  quiet : invalid → x = quietNaN nan
  valid : ¬ invalid → isNaN x = false

section
variable {P Q : Prop} {nan : BitVec 52} {x : B64} (h : NaNExactlyIf P nan x)
include h

theorem NaNExactlyIf.isNaN_iff : isNaN x = true ↔ P := by
  by_cases hP : P
  · simp [hP, h.quiet hP, isNaN_quietNaN]
  · simp [hP, h.valid hP]

theorem NaNExactlyIf.eq_quietNaN (hx : isNaN x = true) : x = quietNaN nan :=
  h.quiet (h.isNaN_iff.1 hx)

theorem NaNExactlyIf.congr (hPQ : P ↔ Q) : NaNExactlyIf Q nan x :=
  ⟨fun hQ => h.quiet (hPQ.2 hQ), fun hQ => h.valid fun hP => hQ (hPQ.1 hP)⟩

end

theorem isNaN_infinity (neg : Bool) : isNaN (infinity neg) = false :=
  not_isNaN_of_isInf (infinity_class neg).1

theorem not_isZero_of_isInf {x : B64} (h : isInf x = true) : isZero x = false := by
  simp_all [isZero, isInf]

theorem fadd_nanExactlyIf (nan : BitVec 52) (a b : B64) : NaNExactlyIf
    (isNaN a = true ∨ isNaN b = true ∨ (isInf a = true ∧ isInf b = true ∧ fsign a ≠ fsign b))
    nan (fadd nan a b) := by
  unfold fadd
  constructor
  · rintro (h | h | ⟨ha, hb, hs⟩)
    · simp [h]
    · simp [h]
    · simp [ha, hb, hs]
  · intro h
    simp only [not_or, not_and] at h
    obtain ⟨ha, hb, hinf⟩ := h
    rw [if_neg (by simp [ha, hb])]
    split
    case isTrue hia =>
      rw [if_neg (by simpa using hinf hia)]
      exact not_isNaN_of_isInf hia
    case isFalse =>
      split
      case isTrue hib => exact not_isNaN_of_isInf hib
      case isFalse => exact isNaN_rn _ _

theorem fsub_nanExactlyIf (nan : BitVec 52) (a b : B64) : NaNExactlyIf
    (isNaN a = true ∨ isNaN b = true ∨ (isInf a = true ∧ isInf b = true ∧ fsign a = fsign b))
    nan (fsub nan a b) :=
  (fadd_nanExactlyIf nan a (fneg b)).congr (by simp)

/-- A zero factor of an infinity is the other factor. -/
theorem isZero_or_isZero_iff {a b : B64} (h : (isInf a || isInf b) = true) :
    (isZero a || isZero b) = true ↔
      (isInf a = true ∧ isZero b = true) ∨ (isZero a = true ∧ isInf b = true) := by
  rcases Bool.or_eq_true_iff.1 h with ha | hb
  · simp [ha, not_isZero_of_isInf ha]
  · simp [hb, not_isZero_of_isInf hb]

theorem fmul_nanExactlyIf (nan : BitVec 52) (a b : B64) : NaNExactlyIf
    (isNaN a = true ∨ isNaN b = true ∨ (isInf a = true ∧ isZero b = true) ∨
      (isZero a = true ∧ isInf b = true)) nan (fmul nan a b) := by
  unfold fmul
  constructor
  · rintro (h | h | ⟨ha, hb⟩ | ⟨ha, hb⟩)
    · simp [h]
    · simp [h]
    · simp [ha, hb]
    · simp [ha, hb]
  · rw [not_or, not_or]
    rintro ⟨ha, hb, hzero⟩
    rw [if_neg (by simp [ha, hb])]
    split
    case isTrue hinf =>
      rw [if_neg (by rwa [isZero_or_isZero_iff hinf])]
      exact isNaN_infinity _
    case isFalse => exact isNaN_rn _ _

theorem ffma_nanExactlyIf (nan : BitVec 52) (a b c : B64) : NaNExactlyIf
    (isNaN a = true ∨ isNaN b = true ∨ isNaN c = true ∨ (isInf a = true ∧ isZero b = true) ∨
      (isZero a = true ∧ isInf b = true) ∨
      ((isInf a = true ∨ isInf b = true) ∧ isInf c = true ∧ fsign c ≠ (fsign a ^^ fsign b)))
    nan (ffma nan a b c) := by
  unfold ffma
  constructor
  · rintro (h | h | h | ⟨ha, hb⟩ | ⟨ha, hb⟩ | ⟨hab, hc, hs⟩)
    · simp [h]
    · simp [h]
    · simp [h]
    · simp [ha, hb]
    · simp [ha, hb]
    · simp [hab, hc, hs]
  · rw [not_or, not_or, not_or, ← or_assoc (a := _ ∧ _), not_or]
    rintro ⟨ha, hb, hc, hzero, hsum⟩
    rw [if_neg (by simp [ha, hb, hc])]
    split
    case isTrue hinf =>
      rw [if_neg (by rwa [isZero_or_isZero_iff hinf]),
        if_neg fun h => hsum ⟨by simpa using hinf, by simpa using h⟩]
      exact isNaN_infinity _
    case isFalse =>
      split
      case isTrue hic => exact not_isNaN_of_isInf hic
      case isFalse => exact isNaN_rn _ _

theorem getLsbD_quietNaN_low (draw : BitVec 52) {i : Nat} (h : i < 51) :
    (quietNaN draw).getLsbD i = draw.getLsbD i := by
  unfold quietNaN
  rw [BitVec.getLsbD_append, if_pos h]
  simp [h]

theorem getLsbD_quietNaN_sign (draw : BitVec 52) :
    (quietNaN draw).getLsbD 63 = draw.getLsbD 51 := by
  unfold quietNaN
  rw [BitVec.getLsbD_append, if_neg (by decide), BitVec.getLsbD_append, if_neg (by decide)]
  simp

/-- The bits a quiet NaN leaves open are its sign and the 51 below the quiet bit. -/
theorem exists_quietNaN_eq {x : B64} (hx : isNaN x = true) (hq : x.getLsbD 51 = true) :
    ∃ draw, quietNaN draw = x := by
  refine ⟨x.extractLsb' 63 1 ++ x.extractLsb' 0 51, BitVec.eq_of_getLsbD_eq fun i hi => ?_⟩
  rcases (by omega : i < 51 ∨ i = 51 ∨ (52 ≤ i ∧ i < 63) ∨ i = 63) with h | rfl | ⟨h1, h2⟩ | rfl
  · rw [getLsbD_quietNaN_low _ h, BitVec.getLsbD_append, if_pos h]
    simp [h]
  · rw [hq, getLsbD_quietNaN_high _ (by decide) (by decide)]
  · have hexp : x.extractLsb' 52 11 = BitVec.allOnes 11 :=
      BitVec.eq_of_toNat_eq (isNaN_iff.1 hx).1
    have hbit := congrArg (BitVec.getLsbD · (i - 52)) hexp
    simp only [BitVec.getLsbD_extractLsb', BitVec.getLsbD_allOnes, Nat.add_sub_cancel' h1] at hbit
    rw [getLsbD_quietNaN_high _ (by omega) h2]
    simpa [show i - 52 < 11 by omega] using hbit.symm
  · rw [getLsbD_quietNaN_sign, BitVec.getLsbD_append, if_neg (by decide)]
    simp
/-! ## Infinities -/

section
variable {a b c : B64} (nan : BitVec 52) (ha : isInf a = true) (hb : isNaN b = false)
include ha hb

theorem fadd_of_isInf (hs : isInf b = true → fsign a = fsign b) : fadd nan a b = a := by
  have hvalid : ¬ (isInf b && (fsign a != fsign b)) = true := by simpa using hs
  rw [fadd, not_isNaN_of_isInf ha, hb, if_neg (by decide), if_pos ha, if_neg hvalid]

theorem fmul_of_isInf (hz : isZero b = false) :
    fmul nan a b = infinity (fsign a ^^ fsign b) := by
  simp [fmul, not_isNaN_of_isInf ha, hb, ha, not_isZero_of_isInf ha, hz]

theorem ffma_of_isInf (hz : isZero b = false) (hc : isNaN c = false)
    (hs : isInf c = true → fsign c = (fsign a ^^ fsign b)) :
    ffma nan a b c = infinity (fsign a ^^ fsign b) := by
  have hvalid : ¬ (isInf c && (fsign c != (fsign a ^^ fsign b))) = true := by simpa using hs
  simp [ffma, not_isNaN_of_isInf ha, hb, ha, not_isZero_of_isInf ha, hz, hc, hvalid]

end

theorem fadd_of_isInf_of_isFinite {a b : B64} (nan : BitVec 52) (ha : isInf a = true)
    (hb : isFinite b = true) : fadd nan a b = a :=
  fadd_of_isInf nan ha (not_isNaN_of_isFinite hb) (by simp [not_isInf_of_isFinite hb])

theorem ffma_of_isInf_addend {a b c : B64} (nan : BitVec 52) (ha : isFinite a = true)
    (hb : isFinite b = true) (hc : isInf c = true) : ffma nan a b c = c := by
  simp [ffma, not_isNaN_of_isFinite, not_isInf_of_isFinite, not_isNaN_of_isInf, ha, hb, hc]

/-! ## Zeros -/

theorem isFinite_of_isZero {x : B64} (h : isZero x = true) : isFinite x = true := by
  simp_all [isZero, isFinite]

@[simp] theorem isZero_signedZero (z : Bool) : isZero (signedZero z) = true :=
  (signedZero_class z).1

@[simp] theorem fsign_signedZero (z : Bool) : fsign (signedZero z) = z := (signedZero_class z).2

@[simp] theorem isFinite_signedZero (z : Bool) : isFinite (signedZero z) = true :=
  isFinite_of_isZero (isZero_signedZero z)

@[simp] theorem fneg_signedZero (z : Bool) : fneg (signedZero z) = signedZero (!z) := by
  cases z <;> rfl

/-! ### Signs of exact values

A nonzero exact value carries its sign, so terms that cancel have opposite signs. -/

theorem unitQuanta_pos : 0 < unitQuanta := by
  unfold unitQuanta
  positivity

theorem quanta_eq_zero {x : B64} : quanta x = 0 ↔ isZero x = true := by
  rw [quanta, mul_eq_zero, units_eq_zero, or_iff_left unitQuanta_pos.ne']

theorem fsign_eq_decide_units {x : B64} (h : units x ≠ 0) : fsign x = decide (units x < 0) := by
  rw [Ne, units_eq_zero, ← magUnits_eq_zero] at h
  unfold units
  cases fsign x
  · simp
  · simp; omega

theorem fsign_eq_decide_quanta {x : B64} (h : quanta x ≠ 0) :
    fsign x = decide (quanta x < 0) := by
  have hu : units x ≠ 0 := left_ne_zero_of_mul h
  simp [fsign_eq_decide_units hu, quanta, mul_neg_iff, unitQuanta_pos, unitQuanta_pos.not_gt]

theorem fsign_xor_eq_decide_mul {a b : B64} (h : units a * units b ≠ 0) :
    (fsign a ^^ fsign b) = decide (units a * units b < 0) := by
  have ha := left_ne_zero_of_mul h
  have hb := right_ne_zero_of_mul h
  rw [fsign_eq_decide_units ha, fsign_eq_decide_units hb, Bool.eq_iff_iff, Bool.xor_iff_ne,
    Ne, decide_eq_decide, decide_eq_true_iff, mul_neg_iff]
  omega

theorem not_both_neg_of_add_eq_zero {x y : Int} (h : x + y = 0) :
    (decide (x < 0) && decide (y < 0)) = false := by
  rw [Bool.and_eq_false_iff, decide_eq_false_iff_not, decide_eq_false_iff_not]
  omega

theorem units_mul_eq_zero {a b : B64} (hz : isZero a = true ∨ isZero b = true) :
    units a * units b = 0 :=
  mul_eq_zero.2 (hz.imp units_eq_zero.2 units_eq_zero.2)

section
variable {a b c : B64} (nan : BitVec 52)

theorem fadd_zeros (ha : isZero a = true) (hb : isZero b = true) :
    fadd nan a b = signedZero (fsign a && fsign b) := by
  rw [fadd_of_isFinite nan (isFinite_of_isZero ha) (isFinite_of_isZero hb), quanta_eq_zero.2 ha,
    quanta_eq_zero.2 hb, add_zero, rn_zero]

theorem fsub_zeros (ha : isZero a = true) (hb : isZero b = true) :
    fsub nan a b = signedZero (fsign a && !fsign b) := by
  rw [fsub, fadd_zeros nan ha (by rwa [isZero_fneg]), fsign_fneg]

variable (ha : isFinite a = true) (hb : isFinite b = true)
include ha hb

theorem fadd_cancel (hz : isZero a = false) (h : units a + units b = 0) :
    fadd nan a b = signedZero false := by
  have hsum : quanta a + quanta b = 0 := by rw [quanta, quanta, ← add_mul, h, zero_mul]
  have hqa : quanta a ≠ 0 := by rw [Ne, quanta_eq_zero, hz]; decide
  have hqb : quanta b ≠ 0 := by omega
  rw [fadd_of_isFinite nan ha hb, fsign_eq_decide_quanta hqa, fsign_eq_decide_quanta hqb,
    not_both_neg_of_add_eq_zero hsum, hsum, rn_zero]

theorem fmul_zero (hz : isZero a = true ∨ isZero b = true) :
    fmul nan a b = signedZero (fsign a ^^ fsign b) := by
  rw [fmul_of_isFinite nan ha hb, units_mul_eq_zero hz, rn_zero]

theorem ffma_zeros (hz : isZero a = true ∨ isZero b = true) (hc : isZero c = true) :
    ffma nan a b c = signedZero ((fsign a ^^ fsign b) && fsign c) := by
  rw [ffma_of_isFinite nan ha hb (isFinite_of_isZero hc), units_mul_eq_zero hz,
    quanta_eq_zero.2 hc, add_zero, rn_zero]

theorem ffma_cancel (hc : isFinite c = true) (hz : isZero c = false)
    (h : units a * units b + quanta c = 0) : ffma nan a b c = signedZero false := by
  have hqc : quanta c ≠ 0 := by rw [Ne, quanta_eq_zero, hz]; decide
  have hab : units a * units b ≠ 0 := by omega
  rw [ffma_of_isFinite nan ha hb hc, fsign_xor_eq_decide_mul hab, fsign_eq_decide_quanta hqc,
    not_both_neg_of_add_eq_zero h, h, rn_zero]

end

/-! ## The two forms on zeros

Operands -0 and +0 in the odd half, under a positive real coefficient: the unfused form subtracts a
sum of two zeros of opposite sign, which is +0; the fused form negates the coefficient first, and
adds two zeros of opposite sign at the end. -/

section
variable (nan : Nat → BitVec 52) {x : B64} (hx : isFinite x = true) (hs : fsign x = false)
include hx hs

theorem cmacU_zeros : cmacU nan ⟨signedZero true, signedZero true⟩
    ⟨signedZero false, signedZero false⟩ ⟨x, signedZero false⟩ true =
      ⟨signedZero true, signedZero true⟩ := by
  simp [cmacU, fmul_zero, fadd_zeros, fsub_zeros, hx, hs]

theorem cmacF_zeros : cmacF nan ⟨signedZero true, signedZero true⟩
    ⟨signedZero false, signedZero false⟩ ⟨x, signedZero false⟩ true =
      ⟨signedZero false, signedZero true⟩ := by
  simp [cmacF, ffma_zeros, hx, hs]

end

end Sys2Proof

open Sys2Proof Sys2Proof.Machine

/-- Settles O36: each operation by its own rule for invalid operands and for infinities. -/
theorem naNExactlyOnInvalidOperations : Obligations.NaNExactlyOnInvalidOperations := by
  unfold Obligations.NaNExactlyOnInvalidOperations
  refine ⟨fun nan a b => (fadd_nanExactlyIf nan a b).isNaN_iff,
    fun nan a b => (fsub_nanExactlyIf nan a b).isNaN_iff,
    fun nan a b => (fmul_nanExactlyIf nan a b).isNaN_iff,
    fun nan a b c => (ffma_nanExactlyIf nan a b c).isNaN_iff,
    fun nan a b => (fadd_nanExactlyIf nan a b).eq_quietNaN,
    fun nan a b => (fsub_nanExactlyIf nan a b).eq_quietNaN,
    fun nan a b => (fmul_nanExactlyIf nan a b).eq_quietNaN,
    fun nan a b c => (ffma_nanExactlyIf nan a b c).eq_quietNaN,
    fun draw => ⟨isNaN_quietNaN draw, getLsbD_quietNaN_high draw (by decide) (by decide)⟩,
    fun _ => exists_quietNaN_eq, fun nan a b ha hb => ?finite, fun nan a b ha hb => ?both,
    fun nan a b ha hb hz => ?product, fun nan a b c ha hb hz hc hs => ?fused,
    fun nan a b c => ffma_of_isInf_addend nan⟩
  case finite =>
    have hsum := fadd_of_isInf_of_isFinite nan ha hb
    have hneg : isInf (fneg a) = true := by rwa [isInf_fneg]
    refine ⟨hsum, by rw [fadd_comm, hsum], ?_, ?_⟩
    · exact fadd_of_isInf_of_isFinite nan ha (by rwa [isFinite_fneg])
    · rw [fsub, fadd_comm, fadd_of_isInf_of_isFinite nan hneg hb]
  case both =>
    have hnan : isNaN b = false := not_isNaN_of_isInf hb
    exact ⟨fun hs => fadd_of_isInf nan ha hnan fun _ => hs,
      fun hs => fadd_of_isInf nan ha (by simpa using hnan) fun _ => by
        rw [fsign_fneg]; exact Bool.eq_not.2 hs⟩
  case product =>
    have h := fmul_of_isInf nan ha hb hz
    exact ⟨h, by rw [fmul_comm, h]⟩
  case fused =>
    have h := ffma_of_isInf nan ha hb hz hc hs
    exact ⟨h, by rw [ffma_comm, h]⟩

/-- Settles O37: each clause is one operation's rule for zeros, and vector V4 the two forms on
zeros. -/
theorem signedZeroRules : Obligations.SignedZeroRules := by
  unfold Obligations.SignedZeroRules
  exact ⟨fun nan _ _ => fadd_zeros nan, fun nan _ _ => fadd_cancel nan,
    fun nan _ _ => fmul_zero nan, fun nan _ _ _ => ffma_zeros nan,
    fun nan _ _ _ => ffma_cancel nan,
    fun nan => ⟨cmacU_zeros nan (by decide) (by decide), cmacF_zeros nan (by decide) (by decide)⟩⟩
end

section
/-! PROOF. The two forms of the CMAC (41_butterfly.md R160, R161, R165): apart by one unit in the
last place on vector V10, and both exact on small integers. -/

namespace Sys2Proof

open Machine

/-! ## Vector V10: 3·RN(√2/2) - RN(√2/2)

The unfused form rounds 3·RN(√2/2) before the subtraction, the fused form does not. -/

section
variable (nan : Nat → BitVec 52)

theorem cmacU_im_vectorV10 :
    (cmacU nan ⟨0x3FF0000000000000, 0⟩ ⟨0x3FF0000000000000, 0x4008000000000000⟩
      ⟨0x3FE6A09E667F3BCD, 0xBFE6A09E667F3BCD⟩ false).im = 0x3FF6A09E667F3BCE := by
  have hri : fmul (nan 3) 0x3FE6A09E667F3BCD 0x4008000000000000 = 0x4000F876CCDF6CDA :=
    (fmul_draw (by decide) (by decide) _ 0).trans (by decide +kernel)
  have hir : fmul (nan 4) 0xBFE6A09E667F3BCD 0x3FF0000000000000 = 0xBFE6A09E667F3BCD :=
    (fmul_draw (by decide) (by decide) _ 0).trans (by decide +kernel)
  have hti : fadd (nan 5) 0x4000F876CCDF6CDA 0xBFE6A09E667F3BCD = 0x3FF6A09E667F3BCE :=
    (fadd_draw (by decide) (by decide) _ 0).trans (by decide +kernel)
  have him : fadd (nan 7) 0 0x3FF6A09E667F3BCE = 0x3FF6A09E667F3BCE :=
    (fadd_draw (by decide) (by decide) _ 0).trans (by decide +kernel)
  simp only [cmacU, Bool.false_eq_true, if_false, hri, hir, hti, him]

theorem cmacF_im_vectorV10 :
    (cmacF nan ⟨0x3FF0000000000000, 0⟩ ⟨0x3FF0000000000000, 0x4008000000000000⟩
      ⟨0x3FE6A09E667F3BCD, 0xBFE6A09E667F3BCD⟩ false).im = 0x3FF6A09E667F3BCD := by
  have hinner : ffma (nan 2) 0xBFE6A09E667F3BCD 0x3FF0000000000000 0 = 0xBFE6A09E667F3BCD :=
    (ffma_draw (by decide) (by decide) (by decide) _ 0).trans (by decide +kernel)
  have houter : ffma (nan 3) 0x3FE6A09E667F3BCD 0x4008000000000000 0xBFE6A09E667F3BCD =
      0x3FF6A09E667F3BCD :=
    (ffma_draw (by decide) (by decide) (by decide) _ 0).trans (by decide +kernel)
  simp only [cmacF, Bool.false_eq_true, if_false, hinner, houter]

end

/-! ## Integers -/

theorem unitQuanta_eq : unitQuanta = 2 ^ 1074 := by
  rw [unitQuanta, Nat.cast_pow]
  rfl

theorem holdsInteger_iff {x : B64} {k : Int} :
    holdsInteger x k ↔ isFinite x = true ∧ units x = k * unitQuanta := by
  rw [unitQuanta_eq]
  rfl

/-- The integer k in quanta of 2^-2148. -/
def integerQuanta (k : Int) : Int := k * unitQuanta * unitQuanta

theorem natAbs_integerQuanta (k : Int) :
    (integerQuanta k).natAbs = k.natAbs * 2 ^ (1074 + 1074) := by
  have hunit : unitQuanta.natAbs = 2 ^ 1074 := rfl
  rw [integerQuanta, Int.natAbs_mul, Int.natAbs_mul, hunit, pow_add, Nat.mul_assoc]

theorem integerQuanta_add (i j : Int) :
    integerQuanta (i + j) = integerQuanta i + integerQuanta j := by
  simp only [integerQuanta, add_mul]

/-- An integer of at most 53 bits is not changed by the rounding. -/
theorem holdsInteger_rn (z : Bool) {k : Int} (hk : |k| < 2 ^ 53) :
    holdsInteger (rn z (integerQuanta k)) k := by
  have hbits : k.natAbs < 2 ^ 53 := by rw [Int.abs_eq_natAbs] at hk; omega
  obtain ⟨hfinite, hvalue⟩ := rn_exact z (natAbs_integerQuanta k) hbits (by decide) (by decide)
  exact holdsInteger_iff.2 ⟨hfinite, mul_right_cancel₀ unitQuanta_pos.ne' hvalue⟩

theorem quanta_of_holdsInteger {x : B64} {k : Int} (h : holdsInteger x k) :
    quanta x = integerQuanta k := by rw [quanta, (holdsInteger_iff.1 h).2, integerQuanta]

theorem units_mul_of_holdsInteger {x y : B64} {i j : Int} (hx : holdsInteger x i)
    (hy : holdsInteger y j) : units x * units y = integerQuanta (i * j) := by
  rw [(holdsInteger_iff.1 hx).2, (holdsInteger_iff.1 hy).2, integerQuanta]
  ring

section
variable {x y v : B64} {i j k : Int} (nan : BitVec 52) (hx : holdsInteger x i)
  (hy : holdsInteger y j)
include hx

theorem holdsInteger_fneg : holdsInteger (fneg x) (-i) :=
  ⟨by rw [isFinite_fneg, hx.1], by rw [units_fneg, hx.2, neg_mul]⟩

include hy

theorem holdsInteger_fadd (h : |i + j| < 2 ^ 53) : holdsInteger (fadd nan x y) (i + j) := by
  rw [fadd_of_isFinite nan hx.1 hy.1, quanta_of_holdsInteger hx, quanta_of_holdsInteger hy,
    ← integerQuanta_add]
  exact holdsInteger_rn _ h

theorem holdsInteger_fsub (h : |i - j| < 2 ^ 53) : holdsInteger (fsub nan x y) (i - j) :=
  holdsInteger_fadd nan hx (holdsInteger_fneg hy) h

theorem holdsInteger_fmul (h : |i * j| < 2 ^ 53) : holdsInteger (fmul nan x y) (i * j) := by
  rw [fmul_of_isFinite nan hx.1 hy.1, units_mul_of_holdsInteger hx hy]
  exact holdsInteger_rn _ h

theorem holdsInteger_ffma (hv : holdsInteger v k) (h : |i * j + k| < 2 ^ 53) :
    holdsInteger (ffma nan x y v) (i * j + k) := by
  rw [ffma_of_isFinite nan hx.1 hy.1 hv.1, units_mul_of_holdsInteger hx hy,
    quanta_of_holdsInteger hv, ← integerQuanta_add]
  exact holdsInteger_rn _ h

end

/-! ## The CMAC of small integers -/

/-- A component that is an integer of magnitude at most 2^20. -/
structure SmallInteger (x : B64) (k : Int) : Prop where
  holds : holdsInteger x k
  bound : |k| ≤ 2 ^ 20

/-- Products are at most 2^40, so that no sum of two of them and a component comes near 2^53. -/
theorem SmallInteger.mul_bound {x y : B64} {i j : Int} (hx : SmallInteger x i)
    (hy : SmallInteger y j) : -2 ^ 40 ≤ i * j ∧ i * j ≤ 2 ^ 40 := by
  rw [← abs_le, abs_mul]
  exact mul_le_mul hx.bound hy.bound (abs_nonneg j) (by decide)

theorem SmallInteger.fneg {x : B64} {k : Int} (h : SmallInteger x k) :
    SmallInteger (fneg x) (-k) := ⟨holdsInteger_fneg h.holds, by rw [abs_neg]; exact h.bound⟩

/-- A sample whose components are such integers. -/
structure SmallSample (x : Sample) (re im : Int) : Prop where
  re : SmallInteger x.re re
  im : SmallInteger x.im im

theorem fneg_fneg (x : B64) : fneg (fneg x) = x := by simp [fneg]

/-- The fused odd half is the even half under the negated coefficient. -/
theorem cmacF_odd (nan : Nat → BitVec 52) (e o w : Sample) :
    cmacF nan e o w true = cmacF nan e o ⟨fneg w.re, fneg w.im⟩ false := by
  simp [cmacF, fneg_fneg]

section
variable (nan : Nat → BitVec 52) {e o w : Sample} {er ei or oi wr wi : Int}
  (he : SmallSample e er ei) (ho : SmallSample o or oi) (hw : SmallSample w wr wi)
include he ho hw

theorem cmacU_integers (odd : Bool) :
    holdsInteger (cmacU nan e o w odd).re
        (if odd then er - (wr * or - wi * oi) else er + (wr * or - wi * oi)) ∧
      holdsInteger (cmacU nan e o w odd).im
        (if odd then ei - (wr * oi + wi * or) else ei + (wr * oi + wi * or)) := by
  have her := abs_le.1 he.re.bound
  have hei := abs_le.1 he.im.bound
  have hrr := hw.re.mul_bound ho.re
  have hii := hw.im.mul_bound ho.im
  have hri := hw.re.mul_bound ho.im
  have hir := hw.im.mul_bound ho.re
  have htr := holdsInteger_fsub (nan 2)
    (holdsInteger_fmul (nan 0) hw.re.holds ho.re.holds (abs_lt.2 (by omega)))
    (holdsInteger_fmul (nan 1) hw.im.holds ho.im.holds (abs_lt.2 (by omega)))
    (abs_lt.2 (by omega))
  have hti := holdsInteger_fadd (nan 5)
    (holdsInteger_fmul (nan 3) hw.re.holds ho.im.holds (abs_lt.2 (by omega)))
    (holdsInteger_fmul (nan 4) hw.im.holds ho.re.holds (abs_lt.2 (by omega)))
    (abs_lt.2 (by omega))
  cases odd with
  | false =>
    exact ⟨holdsInteger_fadd (nan 6) he.re.holds htr (abs_lt.2 (by omega)),
      holdsInteger_fadd (nan 7) he.im.holds hti (abs_lt.2 (by omega))⟩
  | true =>
    exact ⟨holdsInteger_fsub (nan 6) he.re.holds htr (abs_lt.2 (by omega)),
      holdsInteger_fsub (nan 7) he.im.holds hti (abs_lt.2 (by omega))⟩

theorem cmacF_even_integers :
    holdsInteger (cmacF nan e o w false).re (er + (wr * or - wi * oi)) ∧
      holdsInteger (cmacF nan e o w false).im (ei + (wr * oi + wi * or)) := by
  have her := abs_le.1 he.re.bound
  have hei := abs_le.1 he.im.bound
  have hrr := hw.re.mul_bound ho.re
  have hii := hw.im.fneg.mul_bound ho.im
  have hri := hw.re.mul_bound ho.im
  have hir := hw.im.mul_bound ho.re
  constructor
  · have hinner := holdsInteger_ffma (nan 0) hw.im.fneg.holds ho.im.holds he.re.holds
      (abs_lt.2 (by omega))
    rw [show er + (wr * or - wi * oi) = wr * or + (-wi * oi + er) by ring]
    exact holdsInteger_ffma (nan 1) hw.re.holds ho.re.holds hinner (abs_lt.2 (by omega))
  · have hinner := holdsInteger_ffma (nan 2) hw.im.holds ho.re.holds he.im.holds
      (abs_lt.2 (by omega))
    rw [show ei + (wr * oi + wi * or) = wr * oi + (wi * or + ei) by ring]
    exact holdsInteger_ffma (nan 3) hw.re.holds ho.im.holds hinner (abs_lt.2 (by omega))

theorem cmacF_odd_integers :
    holdsInteger (cmacF nan e o w true).re (er - (wr * or - wi * oi)) ∧
      holdsInteger (cmacF nan e o w true).im (ei - (wr * oi + wi * or)) := by
  rw [cmacF_odd, show er - (wr * or - wi * oi) = er + (-wr * or - -wi * oi) by ring,
    show ei - (wr * oi + wi * or) = ei + (-wr * oi + -wi * or) by ring]
  exact cmacF_even_integers nan he ho ⟨hw.re.fneg, hw.im.fneg⟩

end

end Sys2Proof

open Sys2Proof Sys2Proof.Machine

/-- Settles O39: vector V10 operation by operation; on small integers every product and every sum
stays below 2^53, so that no operation of either form rounds. -/
theorem fusedAndUnfusedCmacDiffer : Obligations.FusedAndUnfusedCmacDiffer := by
  unfold Obligations.FusedAndUnfusedCmacDiffer
  refine ⟨fun nan => ⟨cmacU_im_vectorV10 nan, cmacF_im_vectorV10 nan⟩, ?_⟩
  intro nan e o w er ei or oi wr wi her hei hor hoi hwr hwi hk
  have he : SmallSample e er ei := ⟨⟨her, hk _ (by simp)⟩, ⟨hei, hk _ (by simp)⟩⟩
  have ho : SmallSample o or oi := ⟨⟨hor, hk _ (by simp)⟩, ⟨hoi, hk _ (by simp)⟩⟩
  have hw : SmallSample w wr wi := ⟨⟨hwr, hk _ (by simp)⟩, ⟨hwi, hk _ (by simp)⟩⟩
  constructor
  · rintro y (rfl | rfl)
    · exact cmacU_integers nan he ho hw false
    · exact cmacF_even_integers nan he ho hw
  · rintro y (rfl | rfl)
    · exact cmacU_integers nan he ho hw true
    · exact cmacF_odd_integers nan he ho hw
end

section
/-! PROOF. What a stage leaves: the value of every output in the destination bank, and every other
byte as it was (41_butterfly.md R157, 42_sequencer.md R184). -/

namespace Sys2Proof.Machine

variable {s : State} {p : Nat}

/-- R160 and R161 chosen by R157, written out. -/
theorem bflyValue_eq (s : State) (p j : Nat) : s.bflyValue p j =
    let x := indexGen s.d p j
    let e := s.readEntry ((s.d - p + 1) % 2) x.ie (2 * j)
    let o := s.readEntry ((s.d - p + 1) % 2) x.io (2 * j + 1)
    let w := s.build.coef s.d x.c s.status.dir
    let nan := Config.nanDraw s.draws j
    if s.cfg.fmaEn = true ∧ s.build.log2FmaThreshold < s.d - p then cmacF nan e o w x.odd
    else cmacU nan e o w x.odd := by
  simp only [State.bflyValue, State.fused, Bool.and_eq_true, decide_eq_true_eq]
  rfl

section
variable (hseq : s.seq = ⟨.bfly, p⟩) (h1 : 1 ≤ p) (h2 : p ≤ s.d) (hd : s.d ≤ 16)
  (hn : s.n = 2 ^ s.d) (hT : 1 ≤ s.build.workers)
include hseq

theorem phase_ne_idle_of_bfly : s.seq.phase ≠ .idle := by simp [hseq]

theorem engineStep_before_last_stage (hp : p < s.d) :
    engineStep s = { s with mem := (engineStep s).mem, seq := ⟨.bfly, p + 1⟩ } := by
  have hnext : nextSeq s.d s.status.dir s.seq = ⟨.bfly, p + 1⟩ := by
    rw [hseq, nextSeq, if_pos hp]
  rw [engineStep_eq s (phase_ne_idle_of_bfly hseq), hnext, if_neg (by simp)]
  rfl

include h1 h2 hd hn hT

/-- What the Engine step of a stage leaves at an offset. -/
theorem get_engineStep_bfly (c : Nat) : Memory.get (engineStep s).mem c =
    if bankOffset (dstBank s.d p) 0 ≤ c ∧ c < bankOffset (dstBank s.d p) s.n then
      sampleByte (s.bflyValue p ((c - bankOffset (dstBank s.d p) 0) / 16))
        ((c - bankOffset (dstBank s.d p) 0) % 16)
    else Memory.get s.mem c := by
  have hmem : (engineStep s).mem = (stage p s).mem := by
    rw [mem_engineStep (phase_ne_idle_of_bfly hseq), runPhase, hseq]
  rw [hmem, stage_eq s p hT, get_stageInOrder h1 h2 hd _ (by simp [hn]), bankOffset_add _ s.n]
  simp only [List.mem_range]
  generalize bankOffset (dstBank s.d p) 0 = B
  congr 1
  rw [eq_iff_iff]
  omega

theorem readEntry_engineStep_bfly {j : Nat} (slot : Nat) (hj : j < s.n) :
    (engineStep s).readEntry (dstBank s.d p) j slot = s.bflyValue p j := by
  refine readEntry_of_bytes fun k hk => ?_
  rw [get_engineStep_bfly hseq h1 h2 hd hn hT, bankOffset_add _ s.n, bankOffset_add _ j,
    Nat.add_assoc, Nat.add_sub_cancel_left]
  generalize bankOffset (dstBank s.d p) 0 = B
  rw [if_pos (by omega), show (16 * j + k) / 16 = j by omega, show (16 * j + k) % 16 = k by omega]

end

end Sys2Proof.Machine

open Sys2Proof Sys2Proof.Machine

/-- Settles O41: no output of the stage overwrites a source entry, so each is computed from the
banks as they stood, and the outputs fill the destination bank's first N entries. -/
theorem stageComputesEveryOutput : Obligations.StageComputesEveryOutput := by
  unfold Obligations.StageComputesEveryOutput
  refine ⟨fadd_comm, fun s p hseq h1 h2 hd hn hT =>
    ⟨fun j slot hj => ?_, fun a ha => ?_, engineStep_before_last_stage hseq⟩⟩
  · exact (readEntry_engineStep_bfly hseq h1 h2 hd hn hT slot hj).trans (bflyValue_eq s p j)
  · rw [get_engineStep_bfly hseq h1 h2 hd hn hT, dstBank, if_neg (by omega)]
end

section
/-! PROOF. What the network computes with exact arithmetic (42_sequencer.md R199): after p stages an
entry is the Fourier sum of 2^p samples, a stride apart, and the inverse transform undoes the
forward one. -/

namespace Sys2Proof

open Machine Finset

/-! ## Rotations -/

section
variable (d : Nat) (dir : Bool)

@[simp] theorem turn_zero : turn d dir 0 = 1 := by simp [turn]

theorem turn_add (a b : Nat) : turn d dir (a + b) = turn d dir a * turn d dir b := by
  rw [turn, turn, turn, ← Complex.exp_add]
  congr 1
  push_cast
  ring

theorem turn_mul (a b : Nat) : turn d dir (a * b) = turn d dir a ^ b := by
  rw [turn, turn, ← Complex.exp_nat_mul]
  congr 1
  push_cast
  ring

/-- Half a turn is the negation of the odd half, in either direction. -/
theorem turn_half {d : Nat} (hd : 1 ≤ d) : turn d dir (2 ^ (d - 1)) = -1 := by
  obtain ⟨e, rfl⟩ := Nat.exists_eq_add_of_le' hd
  have hangle : ∀ z : ℂ, z * 2 * Real.pi * Complex.I * ((2 ^ (e + 1 - 1) : Nat) : ℂ) / 2 ^ (e + 1) =
      z * (Real.pi * Complex.I) := fun z => by
    push_cast [Nat.add_sub_cancel, pow_succ]
    field_simp
  rw [turn, hangle]
  cases dir <;> simp [Complex.exp_neg]

/-- A whole turn. -/
theorem turn_two_pow : turn d dir (2 ^ d) = 1 := by
  cases dir <;> simp [turn, neg_div, Complex.exp_neg]

/-- The two directions are inverse to each other. -/
theorem turn_forward (k : Nat) : turn d false k = (turn d true k)⁻¹ := by
  rw [turn, turn, ← Complex.exp_neg]
  congr 1
  simp only [Bool.false_eq_true, if_false, if_true]
  ring

theorem isPrimitiveRoot_turn : IsPrimitiveRoot (turn d true 1) (2 ^ d) := by
  simpa [turn] using Complex.isPrimitiveRoot_exp (2 ^ d) (Nat.two_pow_pos d).ne'

end

/-! ## Stages -/

/-- A sum over twice as many terms, taken in pairs. -/
theorem sum_range_mul_two (f : Nat → ℂ) (n : Nat) :
    ∑ m ∈ range (n * 2), f m = ∑ m ∈ range n, (f (2 * m) + f (2 * m + 1)) := by
  induction n with
  | zero => rfl
  | succ n ih => rw [Nat.succ_mul, sum_range_succ, sum_range_succ, sum_range_succ, ih, mul_comm n 2,
      add_assoc]

/-- Bin t of the Fourier sum over the 2^p samples that lie 2^(d-p) apart, from sample b on. -/
noncomputable def decimatedSum (d : Nat) (dir : Bool) (x : Nat → ℂ) (p t b : Nat) : ℂ :=
  ∑ m ∈ range (2 ^ p), x (m * 2 ^ (d - p) + b) * turn d dir (2 ^ (d - p) * (m * t))

/-- What entry j holds after p stages: the bin of its top bits, over the samples of its bottom
bits. -/
noncomputable def entryAfter (d : Nat) (dir : Bool) (x : Nat → ℂ) (p j : Nat) : ℂ :=
  decimatedSum d dir x p (topIndex d p j) (bottomIndex d p j)

section
variable {d p : Nat} (dir : Bool) (x : Nat → ℂ)

/-- The sum of twice as many samples: the even ones and, rotated, the odd ones. -/
theorem decimatedSum_succ (hp : p < d) (t b : Nat) :
    decimatedSum d dir x (p + 1) t b = decimatedSum d dir x p t b +
      turn d dir (t * 2 ^ (d - (p + 1))) * decimatedSum d dir x p t (b + 2 ^ (d - (p + 1))) := by
  have hE : 2 ^ (d - p) = 2 ^ (d - (p + 1)) * 2 := by rw [← pow_succ]; congr 1; omega
  unfold decimatedSum
  rw [hE]
  generalize 2 ^ (d - (p + 1)) = E
  rw [pow_succ, sum_range_mul_two, sum_add_distrib, mul_sum]
  refine congrArg₂ _ (sum_congr rfl fun m _ => ?_) (sum_congr rfl fun m _ => ?_)
  · congr 2 <;> ring
  · rw [mul_left_comm (turn d dir (t * E)), ← turn_add]
    congr 2 <;> ring

/-- The sum of 2^p samples has 2^p bins. -/
theorem decimatedSum_add_two_pow (hp : p ≤ d) (t b : Nat) :
    decimatedSum d dir x p (t + 2 ^ p) b = decimatedSum d dir x p t b := by
  refine sum_congr rfl fun m _ => ?_
  have hturn : 2 ^ (d - p) * (m * (t + 2 ^ p)) = 2 ^ (d - p) * (m * t) + 2 ^ d * m := by
    rw [← pow_sub_mul_pow 2 hp]; ring
  rw [hturn, turn_add, turn_mul d dir (2 ^ d), turn_two_pow, one_pow, mul_one]

/-- One stage: the even and the odd operand are the bins of the even and the odd samples, and half a
turn more of the coefficient is the minus sign of the odd half. -/
theorem exactStage_entryAfter (hp : p < d) {y : Nat → ℂ}
    (hy : ∀ i < 2 ^ d, y i = entryAfter d dir x p i) {j : Nat} (hj : j < 2 ^ d) :
    exactStage d dir (p + 1) y j = entryAfter d dir x (p + 1) j := by
  have hb := bottomIndex_lt d (p + 1) j
  have hE : 2 ^ (d - p) = 2 * 2 ^ (d - (p + 1)) := by rw [← pow_succ']; congr 1; omega
  have hread : ∀ b < 2 ^ (d - p), ∀ i, i = reducedTop d (p + 1) j * 2 ^ (d - p) + b → i < 2 ^ d →
      y i = decimatedSum d dir x p (reducedTop d (p + 1) j) b := fun b hb i hi hlt => by
    rw [hy i hlt, hi, entryAfter, topIndex_mul_add hb, bottomIndex_mul_add hb]
  have hie := hread (bottomIndex d (p + 1) j) (by omega) (indexGen d (p + 1) j).ie
    (by rw [indexGen_eq, hE]; ring) (indexGen_ie_lt (by omega) hp hj)
  have hio := hread (bottomIndex d (p + 1) j + 2 ^ (d - (p + 1))) (by omega)
    (indexGen d (p + 1) j).io (by rw [indexGen_eq, hE]; ring) (indexGen_io_lt (by omega) hp hj)
  rw [exactStage, entryAfter, decimatedSum_succ dir x hp, hie, hio, indexGen_eq]
  unfold reducedTop
  rw [halfTop_eq, Nat.add_sub_cancel]
  generalize topIndex d (p + 1) j = t
  by_cases ht : t < 2 ^ p
  · simp [ht]
  · obtain ⟨rt, rfl⟩ := Nat.exists_eq_add_of_le' (not_lt.1 ht)
    have hhalf : 2 ^ p * 2 ^ (d - (p + 1)) = 2 ^ (d - 1) := by rw [← pow_add]; congr 1; omega
    simp [decimatedSum_add_two_pow dir x hp.le, add_mul, turn_add, hhalf,
      turn_half dir (show 1 ≤ d by omega), sub_eq_add_neg]

end

/-! ## The phase list -/

/-- The BFLY phases of the list are the stages 1 to d, whatever stands before and after them. -/
theorem exactStages_eq (d : Nat) (dir : Bool) (x : Nat → ℂ) :
    exactStages d dir x = (List.range' 1 d).foldl (fun y p => exactStage d dir p y) x := by
  have hfilter : (phaseList d dir).filter (fun q => q.phase == .bfly) =
      (List.range' 1 d).map fun p => ⟨.bfly, p⟩ := by
    rw [phaseList_eq, List.filter_append, List.filter_append,
      List.filter_eq_self.2 (List.forall_mem_map.2 fun _ _ => rfl)]
    cases dir <;> split <;> simp
  rw [exactStages, hfilter, List.foldl_map]

/-- The first p stages. -/
theorem foldl_exactStage (d : Nat) (dir : Bool) (x : Nat → ℂ) {p : Nat} (hp : p ≤ d) :
    ∀ j < 2 ^ d, (List.range' 1 p).foldl (fun y p => exactStage d dir p y) x j =
      entryAfter d dir x p j := by
  induction p with
  | zero =>
    intro j hj
    simp [entryAfter, decimatedSum, bottomIndex_eq, Nat.mod_eq_of_lt hj]
  | succ p ih =>
    intro j hj
    rw [List.range'_1_concat, List.foldl_append, Nat.add_comm 1 p]
    exact exactStage_entryAfter dir x hp (ih (by omega)) hj

/-- After the last stage the one sample stride is left, and an entry's bin is its index. -/
theorem exactStages_eq_dft (d : Nat) (dir : Bool) (x : Nat → ℂ) {k : Nat} (hk : k < 2 ^ d) :
    exactStages d dir x k = ∑ n ∈ range (2 ^ d), x n * turn d dir (k * n) := by
  rw [exactStages_eq, foldl_exactStage d dir x le_rfl k hk, entryAfter, topIndex_eq,
    bottomIndex_eq, decimatedSum]
  simp [Nat.mod_one, mul_comm k]

/-! ## The round trip -/

/-- The rotations of one bin against those of another: N in the same bin, and else the sum over all
powers of a root of unity that is not 1. -/
theorem sum_turn_forward_mul_inverse {d k m : Nat} (hk : k < 2 ^ d) (hm : m < 2 ^ d) :
    ∑ n ∈ range (2 ^ d), turn d false (n * m) * turn d true (k * n) =
      if m = k then 2 ^ d else 0 := by
  have hroot := isPrimitiveRoot_turn d
  have hterm : ∀ n, turn d false (n * m) * turn d true (k * n) =
      (turn d true k / turn d true m) ^ n := fun n => by
    rw [mul_comm n, turn_mul, turn_mul, turn_forward, ← mul_pow, mul_comm, div_eq_mul_inv]
  have hpow : ∀ i, turn d true i = turn d true 1 ^ i := fun i => by rw [← turn_mul, one_mul]
  have hone : ∀ i, turn d true i ^ 2 ^ d = 1 := fun i => by
    rw [← turn_mul, mul_comm, turn_mul, turn_two_pow, one_pow]
  have hne : turn d true m ≠ 0 := Complex.exp_ne_zero _
  simp only [hterm]
  split
  case isTrue h => simp [h, div_self (h ▸ hne)]
  case isFalse h =>
    have hz : turn d true k / turn d true m ≠ 1 := fun hz => h <| by
      rw [div_eq_one_iff_eq hne, hpow k, hpow m] at hz
      exact (hroot.pow_inj hk hm hz).symm
    rw [geom_sum_eq hz, div_pow, hone, hone, div_one, sub_self, zero_div]

theorem exactStages_roundTrip (d : Nat) (x : Nat → ℂ) {k : Nat} (hk : k < 2 ^ d) :
    exactStages d true (exactStages d false x) k = x k * 2 ^ d := by
  calc exactStages d true (exactStages d false x) k
      = ∑ n ∈ range (2 ^ d), (∑ m ∈ range (2 ^ d), x m * turn d false (n * m)) *
          turn d true (k * n) := by
        rw [exactStages_eq_dft d true _ hk]
        exact sum_congr rfl fun n hn => by rw [exactStages_eq_dft d false x (mem_range.1 hn)]
    _ = ∑ m ∈ range (2 ^ d), x m *
          ∑ n ∈ range (2 ^ d), turn d false (n * m) * turn d true (k * n) := by
        simp only [sum_mul, mul_sum, mul_assoc]
        exact sum_comm
    _ = ∑ m ∈ range (2 ^ d), x m * if m = k then 2 ^ d else 0 :=
        sum_congr rfl fun m hm => by rw [sum_turn_forward_mul_inverse hk (mem_range.1 hm)]
    _ = x k * 2 ^ d := by simp [hk]

end Sys2Proof

/-- Settles O51: the p-stage sums at p = d. -/
theorem exactNetworkComputesTheDft : Obligations.ExactNetworkComputesTheDft :=
  fun d dir x _ hk => Sys2Proof.exactStages_eq_dft d dir x hk

/-- Settles O52: the two Fourier sums by the orthogonality of the rotations. -/
theorem exactRoundTripIsIdentity : Obligations.ExactRoundTripIsIdentity := fun d x k hk => by
  rw [Sys2Proof.exactStages_roundTrip d x hk, mul_div_cancel_right₀]
  exact pow_ne_zero d two_ne_zero
end

section
/-! PROOF. Scaling by a power of two (42_sequencer.md R190, R191, R193): one rounding, and none at
all of a finite value by 1.0. -/

namespace Sys2Proof

open Machine

/-! ## 2^-d -/

section
variable {d : Nat} (hd : d ≤ 16)
include hd

theorem twoToMinus_encoding_lt : (1023 - d) * 2 ^ 52 < 2 ^ 63 := by omega

theorem isFinite_twoToMinus : isFinite (twoToMinus d) = true := by
  rw [isFinite_iff, twoToMinus, fexp_withSign _ (twoToMinus_encoding_lt hd)]
  omega

theorem fsign_twoToMinus : fsign (twoToMinus d) = false :=
  fsign_withSign _ (twoToMinus_encoding_lt hd)

theorem units_twoToMinus : units (twoToMinus d) = 2 ^ (1074 - d) := by
  have hcode : (1023 - d) * 2 ^ 52 = (1022 - d) * 2 ^ 52 + 2 ^ 52 := by omega
  have hmag : magUnits (twoToMinus d) = 2 ^ (1074 - d) := by
    rw [twoToMinus, hcode, magUnits_withSign false (by decide) (.inr le_rfl) (by omega), ← pow_add]
    congr 1
    omega
  rw [units, fsign_twoToMinus hd, hmag, Nat.cast_pow]
  rfl

theorem not_isZero_twoToMinus : isZero (twoToMinus d) = false := by
  rw [← Bool.not_eq_true, ← units_eq_zero, units_twoToMinus hd]
  exact pow_ne_zero _ two_ne_zero

end

/-! ## A representable value is its own rounding -/

/-- The grain of a magnitude of 53 bits, or of fewer at the smallest grain. -/
theorem grainExp_eq {m e : Nat} (hm : m ≠ 0) (h1 : 1074 ≤ e) (h2 : m < 2 ^ 53 * 2 ^ e)
    (h3 : e = 1074 ∨ 2 ^ 52 * 2 ^ e ≤ m) : grainExp m = e := by
  obtain ⟨hmin, hhigh, -⟩ := grainExp_spec hm
  refine le_antisymm ((grainExp_le_of_lt hm h2).trans (max_le h1 le_rfl)) ?_
  rcases h3 with rfl | h3
  · exact hmin
  · have hpow : 2 ^ (52 + e) < 2 ^ (53 + grainExp m) := by
      rw [pow_add, pow_add]; exact h3.trans_lt hhigh
    have := (Nat.pow_lt_pow_iff_right (by decide)).1 hpow
    omega

theorem roundDiv_mul_two_pow (q g : Nat) : roundDiv (q * 2 ^ g) g = q := by
  have hg := Nat.two_pow_pos g
  rw [roundDiv, Nat.mul_mod_left, Nat.mul_div_cancel _ hg, if_neg (by omega)]

/-- The significand and the exponent a magnitude is made of, and the lower 63 bits they encode. -/
theorem magUnits_encoding (x : B64) : ∃ k, k < 2 ^ 53 ∧ (fexp x - 1 = 0 ∨ 2 ^ 52 ≤ k) ∧
    magUnits x = k * 2 ^ (fexp x - 1) ∧ (fexp x - 1) * 2 ^ 52 + k = fexp x * 2 ^ 52 + ffrac x := by
  have hf := ffrac_lt x
  unfold magUnits
  split
  case isTrue h => exact ⟨ffrac x, by omega, by omega, by simp [h], by omega⟩
  case isFalse => exact ⟨2 ^ 52 + ffrac x, by omega, by omega, rfl, by omega⟩

/-- The lower 63 bits of a nonzero finite value are those its magnitude rounds to. -/
theorem roundMag_magUnits {x : B64} (hx : isFinite x = true) (hz : magUnits x ≠ 0) :
    roundMag (magUnits x * 2 ^ 1074) = fexp x * 2 ^ 52 + ffrac x := by
  obtain ⟨k, hk, hnormal, hmag, hcode⟩ := magUnits_encoding x
  have hquanta : magUnits x * 2 ^ 1074 = k * 2 ^ (fexp x - 1 + 1074) := by
    rw [hmag, pow_add, mul_assoc]
  have hpos := Nat.two_pow_pos (fexp x - 1 + 1074)
  have hgrain : grainExp (k * 2 ^ (fexp x - 1 + 1074)) = fexp x - 1 + 1074 :=
    grainExp_eq (by rw [← hquanta]; exact mul_ne_zero hz (pow_ne_zero _ two_ne_zero))
      (Nat.le_add_left ..) (Nat.mul_lt_mul_of_pos_right hk hpos)
      (hnormal.imp (by omega) (Nat.mul_le_mul_right _))
  have hlt := fexp_lt x
  have hf := ffrac_lt x
  rw [isFinite_iff] at hx
  rw [hquanta, roundMag, hgrain, roundDiv_mul_two_pow, Nat.add_sub_cancel, hcode,
    min_eq_left (by omega)]

theorem eq_signedZero_of_isZero {x : B64} (h : isZero x = true) : x = signedZero (fsign x) := by
  obtain ⟨he, hf⟩ := isZero_iff.1 h
  conv_lhs => rw [eq_withSign x, he, hf]
  rfl

/-- A finite value is its own rounding, the zeros with their sign. -/
theorem rn_quanta {x : B64} (hx : isFinite x = true) : rn (fsign x) (quanta x) = x := by
  by_cases hq : quanta x = 0
  · rw [hq, rn_zero, ← eq_signedZero_of_isZero (quanta_eq_zero.1 hq)]
  · have hz : magUnits x ≠ 0 := by rwa [Ne, magUnits_eq_zero, ← quanta_eq_zero]
    rw [rn_of_ne_zero _ hq, ← fsign_eq_decide_quanta hq, natAbs_quanta, roundMag_magUnits hx hz,
      ← eq_withSign]

/-! ## Scaling -/

section
variable {x : B64} {d : Nat} (nan : BitVec 52) (hd : d ≤ 16)
include hd

theorem fmul_twoToMinus_of_isFinite (hx : isFinite x = true) :
    fmul nan x (twoToMinus d) = rn (fsign x) (units x * 2 ^ (1074 - d)) := by
  rw [fmul_of_isFinite nan hx (isFinite_twoToMinus hd), fsign_twoToMinus hd, units_twoToMinus hd,
    Bool.xor_false]

theorem fmul_twoToMinus_of_isInf (hx : isInf x = true) : fmul nan x (twoToMinus d) = x := by
  rw [fmul_of_isInf nan hx (not_isNaN_of_isFinite (isFinite_twoToMinus hd))
    (not_isZero_twoToMinus hd), fsign_twoToMinus hd, Bool.xor_false, ← eq_infinity_of_isInf hx]

theorem fmul_twoToMinus_of_isZero (hx : isZero x = true) : fmul nan x (twoToMinus d) = x := by
  rw [fmul_zero nan (isFinite_of_isZero hx) (isFinite_twoToMinus hd) (.inl hx),
    fsign_twoToMinus hd, Bool.xor_false, ← eq_signedZero_of_isZero hx]

end

/-- Scaling by 1.0 (42_sequencer.md R193). -/
theorem fmul_one_of_isFinite {x : B64} (nan : BitVec 52) (hx : isFinite x = true) :
    fmul nan x (twoToMinus 0) = x := by
  have hunit : units x * 2 ^ (1074 - 0) = quanta x := by rw [quanta, unitQuanta_eq]
  rw [fmul_twoToMinus_of_isFinite nan (Nat.zero_le _) hx, hunit, rn_quanta hx]

theorem isFinite_or_isInf {x : B64} (h : isNaN x = false) : isFinite x = true ∨ isInf x = true := by
  by_cases he : fexp x = 2047
  · exact .inr (isInf_iff.2 ⟨he, by_contra fun hf => by simp [isNaN_iff.2 ⟨he, hf⟩] at h⟩)
  · exact .inl (isFinite_iff.2 he)

end Sys2Proof

open Sys2Proof

/-- Settles O38: 2^-d is a positive finite value of 2^(1074-d) units, and 1.0 rescales units to
quanta, which a finite value's own rounding gives back. -/
theorem scalingIsOneRoundingOfDivision : Obligations.ScalingIsOneRoundingOfDivision :=
  ⟨fun nan _ _ hd hx => fmul_twoToMinus_of_isFinite nan hd hx,
    fun nan _ hx => (isFinite_or_isInf hx).elim (fmul_one_of_isFinite nan)
      (fmul_twoToMinus_of_isInf nan (Nat.zero_le _)),
    fun nan _ _ hd hx => hx.elim (fmul_twoToMinus_of_isInf nan hd)
      (fmul_twoToMinus_of_isZero nan hd)⟩
end

section
/-! PROOF. The order of a stage's outputs (42_sequencer.md R187) and the workers' partitions of them
(R188). -/

namespace Sys2Proof.Machine

/-- What a stage leaves depends on which outputs are computed, and not on their order: each offset
holds the byte of its output, or the old byte. -/
theorem stageInOrder_eq_of_same_outputs {s : State} {p : Nat} {l l' : List Nat} (h1 : 1 ≤ p)
    (h2 : p ≤ s.d) (hd : s.d ≤ 16) (hm : Memory.wf s.mem) (hl : ∀ j ∈ l', j < 2 ^ s.d)
    (hsame : ∀ j, j ∈ l ↔ j ∈ l') : stageInOrder p l s = stageInOrder p l' s := by
  have hmem : (stageInOrder p l s).mem = (stageInOrder p l' s).mem := by
    refine Memory.ext (wf_stageInOrder hm p l) (wf_stageInOrder hm p l') fun a => ?_
    rw [get_stageInOrder h1 h2 hd l (fun j hj => hl j ((hsame j).1 hj)),
      get_stageInOrder h1 h2 hd l' hl]
    simp only [hsame]
  rw [stageInOrder_eq_withMem, hmem, ← stageInOrder_eq_withMem]

/-- The last worker's partition ends at N. -/
theorem jTo_last (n T : Nat) : jTo n T (T - 1) = n := if_neg (by omega)

/-- With more workers than outputs the other partitions are empty. -/
theorem workerRange_last_of_lt {n T : Nat} (h : n < T) :
    workerRange n T (T - 1) = List.range n := by
  rw [workerRange, jTo_last, jFrom, Nat.div_eq_of_lt h, Nat.zero_mul, Nat.sub_zero,
    List.range_eq_range']

end Sys2Proof.Machine

open Sys2Proof Sys2Proof.Machine

/-- Settles O42: a permutation of the sweep has the same outputs. -/
theorem anyOutputOrderGivesSameStage : Obligations.AnyOutputOrderGivesSameStage :=
  fun _ _ _ h1 h2 hd hm hperm => stageInOrder_eq_of_same_outputs h1 h2 hd hm
    (fun _ => List.mem_range.1) fun _ => hperm.mem_iff

/-- Settles O43: the partitions are consecutive from 0 to N. -/
theorem workerPartitionsCoverEveryOutputOnce :
    Obligations.WorkerPartitionsCoverEveryOutputOnce :=
  fun n T hT => ⟨flatMap_workerRange n T hT, fun _ _ => rfl, fun _ ht => if_pos ht,
    jTo_last n T, workerRange_last_of_lt⟩

/-- Settles O40: consecutive stages differ by one in d - p, whose parity names the banks. -/
theorem bankRolesAlternate : Obligations.BankRolesAlternate := by
  unfold Obligations.BankRolesAlternate
  intro d p h1 h2
  refine ⟨srcBank_ne_dstBank d p, Nat.mod_lt _ two_pos, Nat.mod_lt _ two_pos, fun hp => ?_, ?_, ?_⟩
  · unfold srcBank dstBank; congr 1; omega
  · simp [dstBank]
  · unfold srcBank; congr 1; omega
end

section
/-! PROOF. The Engine's steps (42_sequencer.md R181, R182, R190, R192, R195): the transition of
`seq`, completion, and what COPY and SCALE leave in the banks. -/

namespace Sys2Proof.Machine

/-! ## The transition of the sequencer -/

/-- The IDLE that follows a last phase is (IDLE, 0). -/
theorem nextSeq_eq_idle {d : Nat} {dir : Bool} {q : Seq} (h : (nextSeq d dir q).phase = .idle) :
    nextSeq d dir q = .idle := by
  obtain ⟨phase, p⟩ := q
  cases phase with
  | idle => rfl
  | copy => cases h
  | scale => rfl
  | bfly =>
    by_cases hp : p < d
    · simp [nextSeq, hp] at h
    · cases dir with
      | false => simp [nextSeq, hp]
      | true => simp [nextSeq, hp] at h

@[simp] theorem engineStep_status_dir (s : State) :
    (engineStep s).status.dir = s.status.dir := by rw [engineStep_fields]

section
variable {s : State} (hrun : s.seq.phase ≠ .idle)
include hrun

/-- An enabled Engine step moves the sequencer to the next phase. -/
theorem seq_engineStep : (engineStep s).seq = nextSeq s.d s.status.dir s.seq := by
  rw [engineStep_eq s hrun]
  split
  case isTrue hnext => exact (nextSeq_eq_idle hnext).symm
  case isFalse => rfl

/-- BUSY and DONE change with completion only. -/
theorem status_engineStep : (engineStep s).status =
    if (nextSeq s.d s.status.dir s.seq).phase = .idle then
      { s.status with busy := false, done := true }
    else s.status := by
  rw [engineStep_eq s hrun]
  split <;> rfl

/-- The step of a phase that is not the last. -/
theorem engineStep_of_next (hnext : (nextSeq s.d s.status.dir s.seq).phase ≠ .idle) :
    engineStep s = { s with
      mem := (engineStep s).mem, seq := nextSeq s.d s.status.dir s.seq } := by
  rw [engineStep_eq s hrun, if_neg hnext]
  rfl

/-- The step of the last phase. -/
theorem engineStep_of_last (hnext : (nextSeq s.d s.status.dir s.seq).phase = .idle) :
    engineStep s = { s with
      mem := (engineStep s).mem, seq := ⟨.idle, 0⟩
      status := { s.status with busy := false, done := true } } := by
  rw [engineStep_eq s hrun, if_pos hnext]
  rfl

end

/-- What ends a list of phases: SCALE, and the last stage when there is no SCALE. -/
theorem nextSeq_of_lastPhase {d : Nat} {dir : Bool} {q : Seq}
    (h : q.phase = .scale ∨ (q.phase = .bfly ∧ q.p = d ∧ dir = false)) :
    q.phase ≠ .idle ∧ (nextSeq d dir q).phase = .idle := by
  rcases h with h | ⟨h, hp, hdir⟩
  · simp [nextSeq, h, Seq.idle]
  · simp [nextSeq, h, hp, hdir, Seq.idle]

/-! ## COPY and SCALE -/

theorem exists_copy_in_phaseList (d : Nat) (dir : Bool) :
    (∃ q ∈ phaseList d dir, q.phase = .copy) ↔ d % 2 = 1 := by
  rw [phaseList_eq]
  split
  case isTrue h => simp [h]
  case isFalse h => cases dir <;> simp [h]

theorem mem_engineStep_copy {s : State} (h : s.seq.phase = .copy) :
    (engineStep s).mem = (copyPhase s).mem := by
  rw [mem_engineStep (by simp [h]), runPhase, h]

theorem mem_engineStep_scale {s : State} (h : s.seq.phase = .scale) :
    (engineStep s).mem = (scalePhase s).mem := by
  rw [mem_engineStep (by simp [h]), runPhase, h]

theorem engineStep_copy {s : State} (h : s.seq.phase = .copy) :
    engineStep s = { s with mem := (engineStep s).mem, seq := ⟨.bfly, 1⟩ } := by
  have hnext : nextSeq s.d s.status.dir s.seq = ⟨.bfly, 1⟩ := by rw [nextSeq, h]
  have hstep := engineStep_of_next (s := s) (by simp [h]) (by simp [hnext])
  rwa [hnext] at hstep

/-- Every byte of an entry of B0 after SCALE is the scaled entry's. -/
theorem readEntry_engineStep_scale {s : State} (h : s.seq.phase = .scale) {i : Nat} (slot : Nat)
    (hi : i < s.n) : (engineStep s).readEntry 0 i slot = s.scaledEntry i := by
  refine readEntry_of_bytes fun k hk => ?_
  have hoff : bankOffset 0 i + k = 0x100000 + (16 * i + k) := by rw [bankOffset]; omega
  rw [mem_engineStep_scale h, get_scalePhase, hoff, Nat.add_sub_cancel_left, if_pos (by omega)]
  congr 2 <;> omega

/-! ## The phases of a transform -/

theorem length_phaseList (d : Nat) (dir : Bool) :
    (phaseList d dir).length = d + d % 2 + dir.toNat := by
  rw [phaseList_eq]
  split
  case isTrue h => cases dir <;> simp [h, Nat.add_comm]
  case isFalse h => cases dir <;> simp [show d % 2 = 0 by omega]

/-- The Engine is about to run phase k of L(d, dir), or has run them all. -/
structure AtPhase (d : Nat) (dir : Bool) (k : Nat) (s : State) : Prop where
  depth : s.d = d
  direction : s.status.dir = dir
  seq : s.seq = (phaseList d dir).getD k .idle
  busy : s.status.busy = decide (k < (phaseList d dir).length)
  done : s.status.done = !s.status.busy

theorem atPhase_accept {s : State} {dir : Bool} (h : (accept dir s).seq.phase ≠ .idle) :
    AtPhase s.d dir 0 (accept dir s) := by
  rw [accept_fields] at h ⊢
  have hfirst : (firstPhase s.d dir).phase ≠ .idle := h
  have hlen : 0 < (phaseList s.d dir).length := by
    rw [List.length_pos_iff]
    intro hnil
    simp [firstPhase, hnil, Seq.idle] at hfirst
  exact ⟨rfl, rfl, List.headD_eq_getD .., by simp [hlen, hfirst], by simp [hfirst]⟩

/-- Beyond its end the list reads as IDLE, and nowhere before. -/
theorem getD_phaseList_idle_iff (d : Nat) (dir : Bool) (k : Nat) :
    ((phaseList d dir).getD k .idle).phase = .idle ↔ ¬ k < (phaseList d dir).length := by
  by_cases hk : k < (phaseList d dir).length
  · obtain ⟨hphase, -⟩ := phaseList_next d dir k hk
    simp [hphase, hk]
  · simp [hk, Seq.idle]

/-- The next phase of the list runs, and the last one completes. -/
theorem AtPhase.engineStep {d k : Nat} {dir : Bool} {s : State} (h : AtPhase d dir k s)
    (hk : k < (phaseList d dir).length) : AtPhase d dir (k + 1) (engineStep s) := by
  obtain ⟨rfl, rfl, hseq, hbusy, hdone⟩ := h
  obtain ⟨hrun, hnext⟩ := phaseList_next s.d s.status.dir k hk
  rw [← List.getD_eq_getElem _ .idle hk, ← hseq] at hrun hnext
  have hstatus := status_engineStep hrun
  simp only [hnext, getD_phaseList_idle_iff] at hstatus
  refine ⟨engineStep_d s, engineStep_status_dir s, (seq_engineStep hrun).trans hnext, ?_, ?_⟩
  · by_cases hk' : k + 1 < (phaseList s.d s.status.dir).length
    · simp [hstatus, hk', hbusy, hk]
    · simp [hstatus, hk']
  · rw [hstatus]
    split
    case isTrue => rfl
    case isFalse => exact hdone

/-- The phases of the list are run one by one. -/
theorem atPhase_iterate {s : State} {dir : Bool} (h : (accept dir s).seq.phase ≠ .idle) {k : Nat}
    (hk : k ≤ (phaseList s.d dir).length) :
    AtPhase s.d dir k (Machine.engineStep^[k] (accept dir s)) := by
  induction k with
  | zero => exact atPhase_accept h
  | succ k ih =>
    rw [Function.iterate_succ_apply']
    exact (ih (by omega)).engineStep hk

end Sys2Proof.Machine

open Sys2Proof Sys2Proof.Machine

/-- Settles O48: each transition is `nextSeq`'s. -/
theorem sequencerTransitions : Obligations.SequencerTransitions := by
  unfold Obligations.SequencerTransitions
  have hmove : ∀ {s : State} {q : Machine.Seq}, s.seq = q → q.phase ≠ .idle →
      (engineStep s).seq = nextSeq s.d s.status.dir q := fun hs hq => by
    rw [seq_engineStep (hs ▸ hq), hs]
  refine ⟨fun s h => hmove h (by decide), fun s p h hp => ?_, fun s h hdir => ?_,
    fun s h hdir => ?_, fun s h => hmove h (by decide), fun s h => engineStep_idle (by rw [h])⟩
  · rw [hmove h (by simp), nextSeq, if_pos hp]
  · simp [hmove h, nextSeq, hdir]
  · simp [hmove h, nextSeq, hdir, Seq.idle]

/-- Settles O47: the next phase is IDLE, so the step completes; DONE and DONE_IE raise irq. -/
theorem lastPhaseCompletes : Obligations.LastPhaseCompletes := by
  unfold Obligations.LastPhaseCompletes
  intro s hlast
  obtain ⟨hrun, hnext⟩ := nextSeq_of_lastPhase hlast
  have hstep := engineStep_of_last hrun hnext
  refine ⟨hstep, fun hie => ?_⟩
  rw [hstep]
  simp [State.irq, hie]

/-- Settles O49: after k steps the Engine is at phase k of the list. -/
theorem transformTakesExactlyItsPhases : Obligations.TransformTakesExactlyItsPhases := by
  unfold Obligations.TransformTakesExactlyItsPhases
  intro s dir haccept
  refine ⟨length_phaseList s.d dir, fun k hk => ?_, ?_⟩
  · obtain ⟨-, -, hseq, hbusy, hdone⟩ := atPhase_iterate haccept hk.le
    simp [hseq, hbusy, hdone, hk]
  · obtain ⟨-, -, hseq, hbusy, hdone⟩ := atPhase_iterate haccept le_rfl
    simp [hseq, hbusy, hdone, Seq.idle]

/-- Settles O45: COPY's memory byte by byte, and the COPY of the phase list. -/
theorem copyMovesBytesAndMarkers : Obligations.CopyMovesBytesAndMarkers := by
  unfold Obligations.CopyMovesBytesAndMarkers
  refine ⟨exists_copy_in_phaseList, fun s h _ =>
    ⟨engineStep_copy h, fun k hk => ?_, fun a ha => ?_⟩⟩
  · rw [mem_engineStep_copy h, get_copyPhase, if_pos (by omega),
      show 0x200000 + k - 0x100000 = 0x100000 + k by omega]
  · rw [mem_engineStep_copy h, get_copyPhase, if_neg (by omega)]

/-- Settles O46: SCALE's entries and bytes, and completion as of any last phase. -/
theorem scaleMultipliesBankZero : Obligations.ScaleMultipliesBankZero := by
  unfold Obligations.ScaleMultipliesBankZero
  intro s h _
  obtain ⟨hrun, hnext⟩ := nextSeq_of_lastPhase (d := s.d) (dir := s.status.dir) (.inl h)
  refine ⟨fun i slot hi => readEntry_engineStep_scale h slot hi, fun a ha => ?_,
    engineStep_of_last hrun hnext⟩
  rw [mem_engineStep_scale h, get_scalePhase, if_neg (by omega)]
end

section
/-! PROOF. The commands (43_commands.md R210 to R223): what each command does in each case of its
checks, what a step does with a command word, and what a command leaves alone. -/

namespace Sys2Proof.Machine

/-! ## A command word -/

theorem execute_of_decodeWord_ok {w : Word} {i : Instr} (h : decodeWord w = .ok i) (s : State) :
    execute w s = exec i s := by
  rw [execute, h]

/-- A word with OP = 0 is NOP's or the word of no command (30_encoding.md R105). -/
theorem exists_decodeWord_error_of_op_zero {w : Word} (hop : w.toNat % 16 = 0)
    (hw : w ≠ 0x00000000) : ∃ e, decodeWord w = .error e := by
  have hne : w.toNat ≠ 0 := fun h => hw (BitVec.eq_of_toNat_eq h)
  rw [exists_decodeWord_error_iff, exists_encode_iff]
  omega

theorem exists_decodeWord_error_of_forall_ne_ok {w : Word} (h : ∀ i, decodeWord w ≠ .ok i) :
    ∃ e, decodeWord w = .error e :=
  exists_decodeWord_error_iff.2 fun ⟨i, hi⟩ => h i (decodeWord_eq_ok_iff.2 hi)

/-- A CMD write answers OKAY and executes its word (R210). -/
theorem step_write_cmd {s : State} {v : Nat} {rest : List Input}
    (hb : s.build.base % 0x400000 = 0)
    (h : s.inputs = .write (s.build.base + 0x004) 4 v :: rest) :
    step s = execute (BitVec.ofNat 32 v) { s with
      inputs := rest, draws := s.draws + 1, resp := some (.okay none) } :=
  step_write_reg (r := .cmd) hb rfl (by decide) rfl h

theorem decodeWord_of_decodeTableWord {nbits w : Nat} {i : Instr}
    (h : decodeTableWord nbits w = some i) : decodeWord (tableWord nbits w) = .ok i := by
  rw [decodeTableWord_eq] at h
  cases hw : decodeWord (tableWord nbits w) with
  | ok j => simpa [hw, Except.toOption] using h
  | error e => simp [hw, Except.toOption] at h

theorem step_withFetchWord {s : State} {w : Nat} {i : Instr}
    (hb : s.build.base % 0x400000 = 0) (h : decodeTableWord 32 w = some i) :
    step (s.withFetchWord 32 w) =
      exec i { s with draws := s.draws + 1, resp := some (.okay none) } := by
  rw [step_write_cmd (s := s.withFetchWord 32 w) hb rfl, BitVec.ofNat_toNat, BitVec.setWidth_eq,
    execute_of_decodeWord_ok (decodeWord_of_decodeTableWord h)]
  rfl

/-! ## CONFIG -/

theorem validSize_two_pow {dmax k : Nat} (hk : k ≤ dmax) : validSize dmax (2 ^ k) = true := by
  have hnat : ((2 : Int) ^ k).toNat = 2 ^ k := Int.toNat_natCast (2 ^ k)
  have hpos : (1 : Int) ≤ 2 ^ k := one_le_pow₀ (by decide)
  have hle : (2 : Int) ^ k ≤ 2 ^ dmax := pow_le_pow_right₀ (by decide) hk
  simp [validSize, hpos, hle, hnat, Nat.and_two_pow_sub_one_eq_mod]

/-- CONFIG's size check accepts the powers of two up to 2^DMAX and no other number (R213). -/
theorem validSize_iff {dmax : Nat} {z : Int} :
    validSize dmax z = true ↔ ∃ k, k ≤ dmax ∧ z = 2 ^ k := by
  constructor
  · intro h
    obtain ⟨hz, hle⟩ := validSize_pow h
    refine ⟨_, hle, ?_⟩
    have hpos : 0 ≤ z := by
      simp only [validSize, Bool.and_eq_true, decide_eq_true_eq] at h
      omega
    rw [← Int.toNat_of_nonneg hpos]
    exact_mod_cast hz
  · rintro ⟨k, hk, rfl⟩
    exact validSize_two_pow hk

section

variable {s : State} (vec fma par : Bool)

theorem exec_config_of_busy (hbusy : s.status.busy = true) :
    exec (.config vec fma par) s = .next (cmdError .busy s) := if_pos hbusy

theorem exec_config_of_size {k : Nat} (hidle : s.status.busy = false) (hk : k ≤ s.build.dmax)
    (harg : s.arg.toInt = 2 ^ k) : exec (.config vec fma par) s = .next { s with
      n := 2 ^ k, d := k, cfg := cfgOf s.build vec fma par
      status := { s.status with cfgValid := true } } := by
  have hnat : s.argInt.toNat = 2 ^ k := by
    rw [State.argInt, harg]
    exact Int.toNat_natCast (2 ^ k)
  have hvalid : validSize s.build.dmax s.argInt = true := validSize_iff.2 ⟨k, hk, harg⟩
  calc exec (.config vec fma par) s
    _ = .next (s.configured (cfgOf s.build vec fma par)) := by
      simp [exec, execConfig, hidle, hvalid]
    _ = _ := by simp [State.configured, hnat]

theorem exec_config_of_no_size (hidle : s.status.busy = false)
    (harg : ∀ k, k ≤ s.build.dmax → s.arg.toInt ≠ 2 ^ k) :
    exec (.config vec fma par) s = .next (cmdError .invalidSize s.unconfigured) := by
  have hvalid : ¬ validSize s.build.dmax s.argInt = true := fun h =>
    let ⟨k, hk, hz⟩ := validSize_iff.1 h
    harg k hk hz
  simp [exec, execConfig, hidle, hvalid]

end

/-! ## DFT and IDFT -/

theorem exists_execute_eq_transform {w : Word}
    (h : decodeWord w = .ok .dft ∨ decodeWord w = .ok .idft) (s : State) :
    ∃ dir, execute w s = .next (transform dir s) :=
  h.elim (fun h => ⟨false, execute_of_decodeWord_ok h s⟩)
    (fun h => ⟨true, execute_of_decodeWord_ok h s⟩)

section

variable {s : State} (dir : Bool)

theorem transform_of_busy (hbusy : s.status.busy = true) :
    transform dir s = cmdError .busy s := if_pos hbusy

variable (hidle : s.status.busy = false)
include hidle

theorem transform_of_not_configured (hcfg : s.status.cfgValid = false) :
    transform dir s = cmdError .notConfigured s := by
  simp [transform, hidle, hcfg]

variable (hcfg : s.status.cfgValid = true)
include hcfg

theorem transform_of_length_ne (hlen : s.arg.toInt ≠ (s.n : Int)) :
    transform dir s = cmdError .sizeMismatch s := by
  simp [transform, hidle, hcfg, State.lengthMatches, State.argInt, hlen]

theorem transform_of_length_eq (hlen : s.arg.toInt = (s.n : Int)) :
    transform dir s = accept dir s := by
  simp [transform, hidle, hcfg, State.lengthMatches, State.argInt, hlen]

end

/-- An accepted transform with a phase to run (R218). -/
theorem accept_of_phase {s : State} {dir : Bool} (hrun : (firstPhase s.d dir).phase ≠ .idle) :
    accept dir s = { s with
      seq := firstPhase s.d dir
      status := { s.status with done := false, dir := dir, busy := true } } := if_neg hrun

/-- An accepted transform without a phase completes at once (42_sequencer.md R193). -/
theorem accept_of_no_phase {s : State} {dir : Bool} (hq : firstPhase s.d dir = .idle) :
    accept dir s = { s with
      seq := .idle, status := { s.status with done := true, dir := dir } } := by
  rw [accept, if_pos (by rw [hq]; rfl), hq]

theorem firstPhase_of_pos {d : Nat} (hd : 1 ≤ d) (dir : Bool) :
    firstPhase d dir = if d % 2 = 1 then ⟨.copy, 0⟩ else ⟨.bfly, 1⟩ := by
  rw [firstPhase_eq, if_pos hd]

theorem firstPhase_inverse (d : Nat) : firstPhase d true =
    if d % 2 = 1 then ⟨.copy, 0⟩ else if d = 0 then ⟨.scale, 0⟩ else ⟨.bfly, 1⟩ := by
  rcases Nat.eq_zero_or_pos d with rfl | hd
  · rfl
  · rw [firstPhase_of_pos hd, if_neg hd.ne']

/-! ## The frame -/

section

variable {i : Instr} {s t : State} (h : exec i s = .next t)
include h

/-- A command reaches the configuration, the sequencer and the flags other than ACCERR, and nothing
else. -/
theorem exec_frame : ∃ n d cfg seq status,
    t = { s with n := n, d := d, cfg := cfg, seq := seq, status := status } ∧
      status.accerr = s.status.accerr := by
  rcases exec_cases h with rfl | ⟨e, -, rfl⟩ | ⟨_, _, _, -, -, -, rfl⟩ | ⟨-, -, rfl⟩ |
    ⟨dir, -, -, -, -, rfl⟩
  · exact ⟨_, _, _, _, _, rfl, rfl⟩
  · exact ⟨_, _, _, _, _, rfl, rfl⟩
  · exact ⟨_, _, _, _, _, rfl, rfl⟩
  · exact ⟨_, _, _, _, _, rfl, rfl⟩
  · exact ⟨_, _, _, _, _, accept_fields s dir, rfl⟩

theorem exec_keeps_configuration (hi : ∀ vec fma par, i ≠ .config vec fma par) :
    t.n = s.n ∧ t.d = s.d ∧ t.cfg = s.cfg ∧ t.status.cfgValid = s.status.cfgValid := by
  rcases exec_cases h with rfl | ⟨e, -, rfl⟩ | ⟨vec, fma, par, hc, -⟩ | ⟨⟨vec, fma, par, hc⟩, -⟩ |
    ⟨dir, -, -, -, -, rfl⟩
  · exact ⟨rfl, rfl, rfl, rfl⟩
  · exact ⟨rfl, rfl, rfl, rfl⟩
  · exact absurd hc (hi vec fma par)
  · exact absurd hc (hi vec fma par)
  · simp

end

theorem exec_config_keeps_transform {vec fma par : Bool} {s t : State}
    (h : exec (.config vec fma par) s = .next t) :
    t.seq = s.seq ∧ t.status.busy = s.status.busy ∧ t.status.done = s.status.done ∧
      t.status.dir = s.status.dir := by
  rcases exec_cases h with rfl | ⟨e, -, rfl⟩ | ⟨_, _, _, -, -, -, rfl⟩ | ⟨-, -, rfl⟩ |
    ⟨dir, hi, -⟩
  · exact ⟨rfl, rfl, rfl, rfl⟩
  · exact ⟨rfl, rfl, rfl, rfl⟩
  · exact ⟨rfl, rfl, rfl, rfl⟩
  · exact ⟨rfl, rfl, rfl, rfl⟩
  · cases dir <;> cases hi

end Sys2Proof.Machine

open Sys2Proof Sys2Proof.Machine

/-- Settles O7: the size check is passed by the powers of two up to 2^DMAX alone. -/
theorem configInEachCase : Obligations.ConfigInEachCase :=
  ⟨fun _ vec fma par _ hidle hk harg => exec_config_of_size vec fma par hidle hk harg,
    fun _ vec fma par hidle harg => exec_config_of_no_size vec fma par hidle harg,
    fun _ vec fma par hbusy => exec_config_of_busy vec fma par hbusy⟩

/-- Settles O9: the phase list is empty at depth 0, and begins with COPY or stage 1 above. -/
theorem dftAcceptedStartsTransform : Obligations.DftAcceptedStartsTransform := by
  unfold Obligations.DftAcceptedStartsTransform
  intro s hidle hcfg hlen
  have hdft : exec .dft s = .next (accept false s) :=
    congrArg _ (transform_of_length_eq false hidle hcfg hlen)
  rw [hdft]
  refine ⟨fun hd => ?_, fun hd => ?_⟩
  · have hrun : (firstPhase s.d false).phase ≠ .idle := fun h => by
      have := (firstPhase_idle h).1
      omega
    rw [accept_of_phase hrun, firstPhase_of_pos hd]
  · rw [accept_of_no_phase (by rw [hd]; rfl)]
    rfl

/-- Settles O10: the phase list of an inverse transform is never empty, SCALE being its last. -/
theorem idftAcceptedStartsTransform : Obligations.IdftAcceptedStartsTransform := by
  unfold Obligations.IdftAcceptedStartsTransform
  intro s hidle hcfg hlen
  have hidft : exec .idft s = .next (accept true s) :=
    congrArg _ (transform_of_length_eq true hidle hcfg hlen)
  have hrun : (firstPhase s.d true).phase ≠ .idle := fun h => nomatch (firstPhase_idle h).2
  rw [hidft, accept_of_phase hrun, firstPhase_inverse]

/-- Settles O11: legality by the decoder, then each check by the command's own rule for it. -/
theorem firstFailingCheckDecides : Obligations.FirstFailingCheckDecides := by
  unfold Obligations.FirstFailingCheckDecides
  refine ⟨fun w s h => ?_, fun w s h => execute_of_decodeWord_ok h s,
    fun w s vec fma par h hbusy => ?_, fun w s h hbusy => ?_, fun w s h hidle hcfg => ?_,
    fun w s h hidle hcfg hlen => ?_, fun w s vec fma par h hidle harg => ?_⟩
  · obtain ⟨e, he⟩ := exists_decodeWord_error_of_forall_ne_ok h
    exact execute_of_decodeWord_error he s
  · exact (execute_of_decodeWord_ok h s).trans (exec_config_of_busy vec fma par hbusy)
  · obtain ⟨dir, hexec⟩ := exists_execute_eq_transform h s
    rw [hexec, transform_of_busy dir hbusy]
    rfl
  · obtain ⟨dir, hexec⟩ := exists_execute_eq_transform h s
    rw [hexec, transform_of_not_configured dir hidle hcfg]
    rfl
  · obtain ⟨dir, hexec⟩ := exists_execute_eq_transform h s
    rw [hexec, transform_of_length_ne dir hidle hcfg hlen]
    rfl
  · exact (execute_of_decodeWord_ok h s).trans (exec_config_of_no_size vec fma par hidle harg)

/-- Settles O12: the parts that no command reaches, then those of each kind of command. -/
theorem commandFrame : Obligations.CommandFrame := by
  unfold Obligations.CommandFrame
  intro i s t h
  obtain ⟨n, d, cfg, seq, status, rfl, haccerr⟩ := exec_frame h
  refine ⟨rfl, rfl, rfl, haccerr, rfl, fun _ => rfl, rfl, rfl, rfl, rfl,
    exec_keeps_configuration h, ?_⟩
  rintro vec fma par rfl
  exact exec_config_keeps_transform h

/-- Settles O5: a CMD write executes its word; every other clause is the step on its own input. -/
theorem stepRunsDecodedCommand : Obligations.StepRunsDecodedCommand := by
  unfold Obligations.StepRunsDecodedCommand
  refine ⟨?_, fun s rest hin => step_engine hin, fun s hin => step_nil hin,
    fun s w i hb hw => step_withFetchWord hb hw⟩
  rintro s _ v rest hb hin rfl
  rw [step_write_cmd hb hin]
  exact ⟨rfl, fun i hi => execute_of_decodeWord_ok hi _,
    fun ⟨e, he⟩ => execute_of_decodeWord_error he _⟩

/-- Settles O6: NOP's word is its encoding, and an OP of 0 with another bit is no command's. -/
theorem nopCompletesAndChangesNothing : Obligations.NopCompletesAndChangesNothing := by
  unfold Obligations.NopCompletesAndChangesNothing
  refine ⟨fun s => rfl, fun w => decodeWord_eq_ok_iff.trans eq_comm, fun w s hop hw => ?_⟩
  obtain ⟨e, he⟩ := exists_decodeWord_error_of_op_zero hop hw
  exact execute_of_decodeWord_error he s
end

section
/-! PROOF. Error recording (60_exceptions.md R241, R243): the sizes CONFIG rejects, and the first
error code, kept until a reset or an acknowledgement of ERR. -/

namespace Sys2Proof.Machine

/-! ## Sizes -/

/-- A number that is not positive, that is no power of two, or that is one above 2^D is none of the
sizes up to 2^D (R243). -/
theorem ne_two_pow_of_invalid_size {D : Nat} {z : Int}
    (h : z ≤ 0 ∨ (∀ k : Nat, z ≠ 2 ^ k) ∨ ∃ k : Nat, D < k ∧ z = 2 ^ k) :
    ∀ k, k ≤ D → z ≠ 2 ^ k := by
  rintro k hk rfl
  rcases h with hneg | hno | ⟨m, hm, heq⟩
  · exact hneg.not_gt (by positivity)
  · exact hno k rfl
  · exact (pow_lt_pow_right₀ (by decide : (1 : Int) < 2) (hk.trans_lt hm)).ne heq

/-! ## The first error code -/

/-- The error `s` has recorded, and its code, still stand in `t` (R241). -/
def KeepsError (s t : State) : Prop := t.status.err = true ∧ t.status.errcode = s.status.errcode

@[simp] theorem engineStep_status_errcode (s : State) :
    (engineStep s).status.errcode = s.status.errcode := by rw [engineStep_fields]

@[simp] theorem accept_status_errcode (dir : Bool) (s : State) :
    (accept dir s).status.errcode = s.status.errcode := by rw [accept_fields]

section

variable {s : State} (herr : s.status.err = true)
include herr

theorem keepsError_cmdError (e : ErrCode) : KeepsError s (cmdError e s) :=
  ⟨rfl, if_pos herr⟩

theorem keepsError_acknowledge {v : Word} (hv : v.getLsbD 2 = false) :
    KeepsError s (acknowledge v s) := by
  rw [KeepsError, acknowledge_status_err, acknowledge_status_errcode, hv]
  exact ⟨herr, rfl⟩

theorem keepsError_accept (dir : Bool) : KeepsError s (accept dir s) := by
  simp [KeepsError, herr]

theorem keepsError_engineStep : KeepsError s (engineStep s) := by
  simp [KeepsError, herr]

/-- No command clears ERR or replaces the code, accepted or rejected. -/
theorem keepsError_execute {t : State} {w : Word} (h : execute w s = .next t) :
    KeepsError s t := by
  rcases execute_cases h with ⟨i, -, hexec⟩ | rfl
  · rcases exec_cases hexec with rfl | ⟨e, -, rfl⟩ | ⟨_, _, _, -, -, -, rfl⟩ | ⟨-, -, rfl⟩ |
      ⟨dir, -, -, -, -, rfl⟩
    · exact ⟨herr, rfl⟩
    · exact keepsError_cmdError herr e
    · exact ⟨herr, rfl⟩
    · exact keepsError_cmdError (s := s.unconfigured) herr .invalidSize
    · exact keepsError_accept herr dir
  · exact keepsError_cmdError herr .illegalCmd

/-- No event clears ERR or replaces the code but a reset and a STATUS write with bit 2 set. -/
theorem Event.keepsError {t : State} (h : Event s t) (hr : ∀ p, inputOf s ≠ .reset p)
    (hb : s.build.base % 0x400000 = 0) (hack : ∀ v, writes s 0x00C v → v.testBit 2 = false) :
    KeepsError s t := by
  cases h with
  | reset hin => exact absurd hin (hr _)
  | engine => exact keepsError_engineStep (s := s.advanced s.later) herr
  | @acknowledged _ v hw =>
    have hbit : (BitVec.ofNat 32 v).getLsbD 2 = false := by
      rw [BitVec.getLsbD_ofNat, hack v (hw.atOffset hb)]
      rfl
    exact keepsError_acknowledge (s := s.answered _) herr hbit
  | rejected => exact keepsError_cmdError (s := s.answered _) herr _
  | unconfigured => exact keepsError_cmdError (s := (s.answered _).unconfigured) herr _
  | accepted => exact keepsError_accept (s := s.answered _) herr _
  | answered | busError | arg | irqEn | bank | configured => exact ⟨herr, rfl⟩

end

end Sys2Proof.Machine

open Sys2Proof Sys2Proof.Machine

/-- Settles O8: each cause leaves no size up to 2^DMAX, so CONFIG records the rejection on the state
without a configuration. -/
theorem invalidSizesAreRejected : Obligations.InvalidSizesAreRejected := by
  unfold Obligations.InvalidSizesAreRejected
  intro s vec fma par hidle herr hcause
  refine ⟨_, exec_config_of_no_size vec fma par hidle (ne_two_pow_of_invalid_size hcause), rfl, ?_,
    rfl, rfl, rfl, rfl, rfl, rfl⟩
  simp [herr]

/-- Settles O13: the event that the step is keeps the error, and the first rejection records its
code. -/
theorem firstErrorCodeIsKept : Obligations.FirstErrorCodeIsKept := by
  unfold Obligations.FirstErrorCodeIsKept
  refine ⟨fun s t hb hstep herr hr hack => (event_of_step hstep).keepsError herr hr hb hack,
    fun w s t hexec herr => keepsError_execute herr hexec,
    fun s => ⟨engineStep_status_err s, engineStep_status_errcode s⟩,
    fun s code herr => ⟨rfl, ?_⟩⟩
  simp [herr]
end

section
/-! PROOF. Bus errors (60_exceptions.md R245): the address map of a legal build, the causes of the
table as the accesses the bus does not accept, and what each answer leaves. -/

namespace Sys2Proof.Machine

/-! ## The address map -/

/-- The four regions of the block, each with its offsets (20_memory.md R71). -/
theorem region_cases {b : Build} (hD : b.dmax ≤ 16) (off : Nat) :
    (off < 0x024 ∧ ∃ r, Build.region b off = .reg r) ∨
    (inBanks b off ∧ Build.region b off = .bank) ∨
    (0x300000 ≤ off ∧ off < 0x300000 + 8 * 2 ^ b.dmax ∧ Build.region b off = .rom) ∨
    (0x024 ≤ off ∧ ¬ inBanks b off ∧ ¬ (0x300000 ≤ off ∧ off < 0x300000 + 8 * 2 ^ b.dmax) ∧
      Build.region b off = .hole) := by
  by_cases hreg : off < 0x024
  · obtain ⟨r, hr⟩ := regAt_of_lt hreg
    exact .inl ⟨hreg, r, by simp [Build.region, hr]⟩
  by_cases hbank : inBanks b off
  · exact .inr (.inl ⟨hbank, (region_bank_iff hD).2 hbank⟩)
  by_cases hrom : 0x300000 ≤ off ∧ off < 0x300000 + 8 * 2 ^ b.dmax
  · exact .inr (.inr (.inl ⟨hrom.1, hrom.2, region_rom hD hrom.1 hrom.2⟩))
  · have hge : 0x024 ≤ off := Nat.not_lt.1 hreg
    obtain ⟨hb0, hb1⟩ := not_or.1 hbank
    refine .inr (.inr (.inr ⟨hge, hbank, hrom, ?_⟩))
    simp only [Build.region, regAt_of_ge hge, if_neg hb0, if_neg hb1, if_neg hrom]

/-- The bus accepts exactly the accesses to which no cause of the table applies (R245). Inside a
region only BUSY and the direction decide; the other causes are the map's bounds. -/
theorem accepts_iff {s : State} (hwf : s.build.wellFormed = true) {off : Nat} (ho : off < 0x400000)
    (n : Nat) (isWrite : Bool) :
    s.accepts (s.build.base + off) n isWrite = true ↔ ¬ busErrorCause s off n isWrite := by
  obtain ⟨-, hD, -, -⟩ := wellFormed_bounds hwf
  have hN : 2 ^ s.build.dmax ≤ 2 ^ 16 := Nat.pow_le_pow_right (by decide) hD
  simp only [State.accepts, State.regionAccepts, busErrorCause, Nat.add_sub_cancel_left,
    Bool.and_eq_true, beq_iff_eq]
  rcases region_cases hD off with ⟨hlt, r, hr⟩ | ⟨hbank, hr⟩ | ⟨hlo, hhi, hr⟩ |
    ⟨hge, hbank, hrom, hr⟩
  · rw [hr]
    simp only [and_true]
    omega
  · rw [hr]
    unfold inBanks at hbank
    cases s.status.busy <;> simp <;> omega
  · rw [hr]
    cases s.status.busy <;> cases isWrite <;> simp <;> omega
  · rw [hr]
    unfold inBanks at hbank
    simp only [Bool.false_eq_true, and_false, false_iff]
    omega

theorem not_accepts_of_cause {s : State} (hwf : s.build.wellFormed = true) {off n : Nat}
    {isWrite : Bool} (ho : off < 0x400000) (hcause : busErrorCause s off n isWrite) :
    s.accepts (s.build.base + off) n isWrite = false :=
  Bool.eq_false_iff.2 fun hacc => (accepts_iff hwf ho n isWrite).1 hacc hcause

/-! ## The answers -/

theorem step_read_rejected {s : State} {off n : Nat} {rest : List Input} (ho : off < 0x400000)
    (hacc : s.accepts (s.build.base + off) n false = false)
    (h : s.inputs = .read (s.build.base + off) n :: rest) :
    step s = .next { s with
      inputs := rest, draws := s.draws + 1, resp := some (.error (some 0))
      status := { s.status with accerr := true } } := by
  have hclaims := claims_base_add s.build ho
  have hrej : ¬ (s.advanced rest).accepts (s.build.base + off) n false = true :=
    Bool.eq_false_iff.1 hacc
  rw [step_cons h]
  change Host.Outcome.next (hostRead _ _ _) = _
  rw [hostRead, if_neg (by simp [hclaims]), if_neg hrej]
  rfl

theorem step_write_accepted {s : State} {off n v : Nat} {rest : List Input} (ho : off < 0x400000)
    (hacc : s.accepts (s.build.base + off) n true = true)
    (h : s.inputs = .write (s.build.base + off) n v :: rest) :
    step s = writeAt off (BitVec.ofNat 32 v) { s with
      inputs := rest, draws := s.draws + 1, resp := some (.okay none) } := by
  have hclaims := claims_base_add s.build ho
  rw [step_cons h]
  change hostWrite _ _ _ _ = _
  rw [hostWrite, if_neg (by simp [hclaims]), if_pos (by exact hacc), advanced_build,
    Nat.add_sub_cancel_left]
  rfl

/-- A command word leaves the port's answer, also when it is rejected (43_commands.md R210). -/
theorem execute_keeps_resp {w : Word} {s t : State} (h : execute w s = .next t) :
    t.resp = s.resp := by
  rcases execute_cases h with ⟨i, -, hexec⟩ | rfl
  · obtain ⟨_, _, _, _, _, rfl, -⟩ := exec_frame hexec
    rfl
  · rfl

/-- The effect of an accepted write leaves the port's answer. -/
theorem writeAt_keeps_resp {off : Nat} {v : Word} {s t : State} (h : writeAt off v s = .next t) :
    t.resp = s.resp := by
  rcases writeAt_cases h with rfl | rfl | rfl | rfl | ⟨-, rfl⟩ | hexec
  case inr.inr.inr.inr.inr => exact execute_keeps_resp hexec
  all_goals rfl

end Sys2Proof.Machine

open Sys2Proof Sys2Proof.Machine

/-- Settles O21: the bus accepts exactly what no cause of the table stops, and answers accordingly. -/
theorem busErrorExactlyOnListedCauses : Obligations.BusErrorExactlyOnListedCauses := by
  unfold Obligations.BusErrorExactlyOnListedCauses
  intro s off n rest hwf ho
  refine ⟨fun hin => ⟨fun hcause => ?_, fun hnone => ?_⟩,
    fun v hin => ⟨fun hcause => ?_, fun hnone => ?_⟩⟩
  · exact step_read_rejected ho (not_accepts_of_cause hwf ho hcause) hin
  · exact ⟨_, step_read_accepted ho ((accepts_iff hwf ho n false).2 hnone) hin⟩
  · exact step_write_rejected ho (not_accepts_of_cause hwf ho hcause) hin
  · have hacc := (accepts_iff hwf ho n true).2 hnone
    obtain ⟨t, ht⟩ := writeAt_next off (BitVec.ofNat 32 v) { s with
      inputs := rest, draws := s.draws + 1, resp := some (.okay none) }
    exact ⟨t, (step_write_accepted ho hacc hin).trans ht, writeAt_keeps_resp ht⟩
end

section
/-! PROOF. Reset (70_reset_and_hazards.md R270, R271, R273): the registers of power-on, and what is
left of the banks. -/

namespace Sys2Proof.Machine

/-- Entries 0 to n-1 of both banks are unwritten, and no other byte is reached. -/
theorem get_unwriteEntries (m : Memory) (n a : Nat) :
    Memory.get (Memory.unwriteEntries m n) a =
      if (0x100000 ≤ a ∧ a < 0x100000 + 16 * n) ∨ (0x200000 ≤ a ∧ a < 0x200000 + 16 * n) then none
      else Memory.get m a := by
  have hunwritten : ∀ k, (List.replicate (16 * n) (none : Option Byte)).getD k none = none :=
    List.getElem?_getD_replicate_default_eq none _
  have hb0 : bankOffset 0 0 = 0x100000 := rfl
  have hb1 : bankOffset 1 0 = 0x200000 := rfl
  rw [Memory.unwriteEntries, Memory.get_writeBlock, Memory.get_writeBlock, hb0, hb1]
  simp only [List.length_replicate, hunwritten]
  by_cases h1 : 0x200000 ≤ a ∧ a < 0x200000 + 16 * n
  · rw [if_pos h1, if_pos (.inr h1)]
  · by_cases h0 : 0x100000 ≤ a ∧ a < 0x100000 + 16 * n
    · rw [if_neg h1, if_pos h0, if_pos (.inl h0)]
    · rw [if_neg h1, if_neg h0, if_neg (not_or.2 ⟨h0, h1⟩)]

end Sys2Proof.Machine

open Sys2Proof Sys2Proof.Machine

/-- Settles O54: the step is the reset event, and the banks are its three cases. -/
theorem resetStepEffect : Obligations.ResetStepEffect := by
  unfold Obligations.ResetStepEffect
  intro s powerOn rest hin _
  refine ⟨resetEvent powerOn (s.advanced rest), step_cons hin, rfl, irq_of_flags_clear rfl rfl rfl,
    ?_, ?_, ?_⟩
  · rintro rfl a
    rfl
  · rintro rfl hidle
    simp [State.memAfterReset, hidle]
  · rintro rfl hbusy a
    simp [State.memAfterReset, hbusy, get_unwriteEntries]
end

section
/-! PROOF. A running transform: the phases it still has to run, and what a step does to their number
(42_sequencer.md R195, R198). -/

namespace Sys2Proof.Machine

/-! ## Engine turns left -/

/-- The Engine turns from a phase on until the transform completes: the phases of L(d, dir) that are
left (R180). -/
def Seq.turnsLeft (d : Nat) (dir : Bool) (q : Seq) : Nat :=
  match q.phase with
  | .idle => 0
  | .copy => d + 1 + dir.toNat
  | .bfly => d - q.p + 1 + dir.toNat
  | .scale => 1

namespace Seq

variable {d : Nat} {dir : Bool} {q : Seq}

theorem turnsLeft_pos (hrun : q.phase ≠ .idle) : 0 < q.turnsLeft d dir := by
  unfold turnsLeft
  split
  case h_1 h => exact absurd h hrun
  all_goals omega

/-- A transform at stage 1 or later has at most DEPTH stages and SCALE left; before COPY, COPY
besides. -/
theorem turnsLeft_le (d : Nat) (dir : Bool) (q : Seq) : q.turnsLeft d dir ≤ d + 2 := by
  have hdir : dir.toNat ≤ 1 := dir.toNat_le
  unfold turnsLeft
  split <;> omega

/-- Each phase is one Engine turn. -/
theorem turnsLeft_nextSeq (h : q.Sound d dir) (hrun : q.phase ≠ .idle) :
    q.turnsLeft d dir = (nextSeq d dir q).turnsLeft d dir + 1 := by
  obtain ⟨phase, p⟩ := q
  cases phase with
  | idle => exact absurd rfl hrun
  | copy =>
    have hodd : d % 2 = 1 := h.copyOdd rfl
    simp only [turnsLeft, nextSeq]
    omega
  | bfly =>
    obtain ⟨-, hp : p ≤ d⟩ := h.stageInRange rfl
    by_cases hlast : p < d
    · simp only [turnsLeft, nextSeq, if_pos hlast]
      omega
    · have hpd : p = d := by omega
      cases dir <;> simp [turnsLeft, nextSeq, Seq.idle, hpd]
  | scale => rfl

end Seq

/-! ## A state in the middle of a transform -/

/-- A state that meets the invariant, in the middle of a transform with n phases to run after the
current one. -/
structure State.Running (n : Nat) (s : State) : Prop where
  inv : s.Inv
  busy : s.status.busy = true
  left : s.seq.turnsLeft s.d s.status.dir = n + 1

/-- The transform has completed (R192). -/
structure State.Completed (s : State) : Prop where
  seq : s.seq = ⟨.idle, 0⟩
  notBusy : s.status.busy = false
  done : s.status.done = true

/-- A busy state is in the middle of a transform, which has at most DMAX + 2 phases left (R198). -/
theorem State.Inv.running {s : State} (h : s.Inv) (hbusy : s.status.busy = true) :
    ∃ n, s.Running n ∧ n + 1 ≤ s.build.dmax + 2 := by
  obtain ⟨-, hd⟩ := h.configured (h.runsConfigured hbusy)
  have hpos : 0 < s.seq.turnsLeft s.d s.status.dir := Seq.turnsLeft_pos (h.busy.1 hbusy)
  have hle := Seq.turnsLeft_le s.d s.status.dir s.seq
  exact ⟨s.seq.turnsLeft s.d s.status.dir - 1, ⟨h, hbusy, by omega⟩, by omega⟩

namespace State.Running

variable {n : Nat} {s : State}

/-- The lists of inputs and the count of steps are no part of the transform. -/
theorem withLists (h : s.Running n) (inputs again : List Input) (draws : Nat) :
    State.Running n { s with inputs := inputs, again := again, draws := draws } :=
  ⟨{ h.inv with }, h.busy, h.left⟩

/-- The sequencer's next phase has the rest of the turns. -/
theorem left_nextSeq (h : s.Running n) :
    (nextSeq s.d s.status.dir s.seq).turnsLeft s.d s.status.dir = n := by
  have hnext := Seq.turnsLeft_nextSeq h.inv.seqSound (h.inv.busy.1 h.busy)
  have hleft := h.left
  omega

/-- The Engine turn of the last phase completes. -/
theorem engineStep_zero (h : s.Running 0) : (engineStep s).Completed := by
  have hidle : (nextSeq s.d s.status.dir s.seq).phase = .idle := by
    by_contra hne
    have hpos := Seq.turnsLeft_pos (d := s.d) (dir := s.status.dir) hne
    rw [h.left_nextSeq] at hpos
    exact absurd hpos (lt_irrefl 0)
  rw [engineStep_of_last (h.inv.busy.1 h.busy) hidle]
  exact ⟨rfl, rfl, rfl⟩

/-- The Engine turn of an earlier phase leaves one phase less. -/
theorem engineStep_succ (h : s.Running (n + 1)) : (engineStep s).Running n := by
  have hnext : (nextSeq s.d s.status.dir s.seq).phase ≠ .idle := fun hidle => by
    have hleft := h.left_nextSeq
    rw [nextSeq_eq_idle hidle] at hleft
    exact absurd hleft (by simp [Seq.turnsLeft, Seq.idle])
  have hstep := engineStep_of_next (h.inv.busy.1 h.busy) hnext
  refine ⟨inv_engineStep h.inv, ?_, ?_⟩
  · rw [hstep]
    exact h.busy
  · rw [hstep]
    exact h.left_nextSeq

end State.Running

/-! ## A step in the middle of a transform -/

namespace Event

variable {s t : State} (h : Event s t)
include h

/-- The next inputs come off the list, whatever the event. -/
theorem inputs_eq : t.inputs = s.later := by
  cases h with
  | engine => rw [engineStep_fields]; rfl
  | accepted => rw [accept_fields]; rfl
  | _ => rfl

theorem again_eq : t.again = s.again := by
  cases h with
  | engine => rw [engineStep_fields]; rfl
  | accepted => rw [accept_fields]; rfl
  | _ => rfl

variable (hr : ∀ p, inputOf s ≠ .reset p)
include hr

/-- No command changes DIR while a transform runs. -/
theorem dir_eq (hbusy : s.status.busy = true) : t.status.dir = s.status.dir := by
  cases h with
  | engine => exact engineStep_status_dir _
  | accepted _ _ hidle => simp [hbusy] at hidle
  | reset hin => exact absurd hin (hr _)
  | _ => rfl

/-- Whatever the Host does, the transform stays where it is. -/
theorem running_of_host {n : Nat} (hrun : s.Running n) (hhost : inputOf s ≠ .engine) :
    t.Running n := by
  obtain ⟨hinv, hbusy, hleft⟩ := hrun
  obtain ⟨-, -, hbase, -⟩ := wellFormed_bounds hinv.build
  have hbusy_ne : s.status.busy ≠ false := by simp [hbusy]
  have hseq : t.seq = s.seq := by
    by_contra hne
    exact (h.seq_changed hr hbase hne).elim hhost fun hidle => hbusy_ne hidle.1
  have hd : t.d = s.d := by
    by_contra hne
    exact hbusy_ne (h.configuration_changed hr hbase (.inr (.inl hne))).1
  have hinv' := h.inv hinv
  refine ⟨hinv', hinv'.busy.2 ?_, ?_⟩
  · rw [hseq]
    exact hinv.busy.1 hbusy
  · rw [hseq, hd, h.dir_eq hr hbusy, hleft]

end Event

/-- A step in the middle of a transform that is no reset: a Host transaction leaves the transform
where it is, and an Engine turn completes it or leaves one phase less. -/
theorem State.Running.step_cases {n : Nat} {s t : State} (h : s.Running n)
    (hstep : step s = .next t) (hr : ∀ p, inputOf s ≠ .reset p) :
    (inputOf s ≠ .engine ∧ t.Running n) ∨
    (inputOf s = .engine ∧ n = 0 ∧ t.Completed) ∨
    (inputOf s = .engine ∧ ∃ m, n = m + 1 ∧ t.Running m) := by
  by_cases hin : inputOf s = .engine
  · have ht : t = engineStep (s.advanced s.later) := by
      rw [step_eq] at hstep
      change runInput (inputOf s) _ = _ at hstep
      rw [hin] at hstep
      cases hstep
      rfl
    have hadv : (s.advanced s.later).Running n := h.withLists _ _ _
    rw [ht]
    cases n with
    | zero => exact .inr (.inl ⟨hin, rfl, hadv.engineStep_zero⟩)
    | succ m => exact .inr (.inr ⟨hin, m, rfl, hadv.engineStep_succ⟩)
  · exact .inl ⟨hin, (event_of_step hstep).running_of_host hr h hin⟩

end Sys2Proof.Machine
end

section
/-! PROOF. Completion under the schedules that the state holds (70_reset_and_hazards.md R292): each
step uses up an input, or is an Engine turn and so a phase of the transform. -/

namespace Sys2Proof.Machine

/-! ## Runs -/

/-- A run of at most b steps completes the transform, BUSY all the while before. -/
def State.CompletesWithin (b : Nat) (s : State) : Prop :=
  ∃ k t, k ≤ b ∧ Sys2Proof.core.run k s = .next t ∧ t.Completed ∧
    ∀ j, j < k → ∃ u, Sys2Proof.core.run j s = .next u ∧ u.status.busy = true

theorem State.Completed.completesWithin {s : State} (h : s.Completed) (b : Nat) :
    s.CompletesWithin b :=
  ⟨0, s, Nat.zero_le b, rfl, h, fun _ hj => absurd hj (Nat.not_lt_zero _)⟩

theorem State.CompletesWithin.of_step {b : Nat} {s t : State} (h : t.CompletesWithin b)
    (hstep : step s = .next t) (hbusy : s.status.busy = true) : s.CompletesWithin (b + 1) := by
  obtain ⟨k, u, hk, hrun, hdone, hbefore⟩ := h
  refine ⟨k + 1, u, Nat.succ_le_succ hk, (run_succ hstep k).trans hrun, hdone, fun j hj => ?_⟩
  cases j with
  | zero => exact ⟨s, rfl, hbusy⟩
  | succ j =>
    rw [run_succ hstep]
    exact hbefore j (Nat.lt_of_succ_lt_succ hj)

/-! ## The lists of inputs -/

/-- No reset is to come. -/
def State.NoReset (s : State) : Prop := ∀ p, .reset p ∉ s.inputs ++ s.again

theorem State.NoReset.inputOf_ne {s : State} (h : s.NoReset) (p : Bool) : inputOf s ≠ .reset p := by
  intro hin
  unfold inputOf at hin
  cases hs : s.inputs with
  | nil => simp [hs] at hin
  | cons i rest => exact h p (by simp_all)

theorem State.NoReset.next {s t : State} (h : s.NoReset) (hev : Event s t) : t.NoReset := by
  intro p hp
  rw [hev.inputs_eq, hev.again_eq] at hp
  refine h p ?_
  cases hs : s.inputs with
  | nil => simpa [later_nil hs] using hp
  | cons i rest =>
    rw [later_cons hs] at hp
    exact List.mem_cons_of_mem i hp

/-- The steps until the Engine has had n + 1 turns, at the most: the inputs at hand, then n + 1
rounds of the Host's repetition, each with a turn of the Engine's own. -/
def State.stepsBound (n : Nat) (s : State) : Nat :=
  s.inputs.length + (s.again.length + 1) * (n + 1)

/-- Taking an input off the list lowers the bound. -/
theorem stepsBound_lt_of_host {s t : State} (hev : Event s t) (hhost : inputOf s ≠ .engine)
    (n : Nat) : t.stepsBound n < s.stepsBound n := by
  unfold State.stepsBound
  rw [hev.inputs_eq, hev.again_eq]
  cases hs : s.inputs with
  | nil => exact absurd (by rw [inputOf, hs]; rfl) hhost
  | cons i rest =>
    rw [later_cons hs, List.length_cons]
    omega

/-- One turn less lowers the bound by a whole round, so also when the repetition comes again. -/
theorem stepsBound_lt_of_turn {s t : State} (hev : Event s t) (n : Nat) :
    t.stepsBound n < s.stepsBound (n + 1) := by
  unfold State.stepsBound
  rw [hev.inputs_eq, hev.again_eq, Nat.mul_succ _ (n + 1)]
  cases hs : s.inputs with
  | nil =>
    rw [later_nil hs]
    omega
  | cons i rest =>
    rw [later_cons hs, List.length_cons]
    omega

/-- A running transform completes within the bound: every step lowers it. -/
theorem State.Running.completesWithin {b n : Nat} {s : State} (h : s.Running n)
    (hreset : s.NoReset) (hb : s.stepsBound n ≤ b) : s.CompletesWithin b := by
  induction b generalizing n s with
  | zero =>
    have hpos : 0 < s.stepsBound n := Nat.add_pos_right _ (by positivity)
    exact absurd hb hpos.not_ge
  | succ b ih =>
    obtain ⟨t, hstep⟩ := runInput_next (inputOf s) (s.advanced s.later)
    replace hstep : step s = .next t := (step_eq s).trans hstep
    have hev := event_of_step hstep
    refine State.CompletesWithin.of_step ?_ hstep h.busy
    rcases h.step_cases hstep hreset.inputOf_ne with ⟨hhost, hrun⟩ | ⟨-, -, hdone⟩ |
      ⟨-, m, rfl, hrun⟩
    · have hlt := stepsBound_lt_of_host hev hhost n
      exact ih hrun (hreset.next hev) (by omega)
    · exact hdone.completesWithin b
    · have hlt := stepsBound_lt_of_turn hev m
      exact ih hrun (hreset.next hev) (by omega)

end Sys2Proof.Machine

open Sys2Proof Sys2Proof.Machine

/-- Settles O59: at most DMAX + 2 phases are left, and each costs one round of the inputs. -/
theorem everyTransformCompletes : Obligations.EveryTransformCompletes := by
  unfold Obligations.EveryTransformCompletes
  intro s hinv hbusy hreset
  obtain ⟨n, hrun, hn⟩ := hinv.running hbusy
  obtain ⟨k, t, hk, ht, ⟨hseq, hidle, hdone⟩, hbefore⟩ := hrun.completesWithin hreset le_rfl
  have hbound : s.stepsBound n ≤ s.inputs.length + (s.again.length + 1) * (s.build.dmax + 2) :=
    Nat.add_le_add_left (Nat.mul_le_mul_left _ hn) _
  exact ⟨k, t, hk.trans hbound, ht, hseq, hidle, hdone, hbefore⟩
end

section
/-! PROOF. Completion under every endless fair schedule (70_reset_and_hazards.md R292): no Host
transaction moves the transform, and fairness brings the Engine's next turn. -/

namespace Sys2Proof.Machine

variable {f : Nat → Input} {σ : Nat → State}

/-- From step k on the transform runs, BUSY all the while, to a reset or to completion at an Engine
turn, after at most b Engine turns. -/
def EndsWithin (f : Nat → Input) (σ : Nat → State) (k b : Nat) : Prop :=
  ∃ m, k ≤ m ∧ (∀ j, k ≤ j → j ≤ m → (σ j).status.busy = true) ∧
    ((∃ p, f m = .reset p) ∨
      (f m = .engine ∧ (σ (m + 1)).Completed ∧
        (List.range' k (m + 1 - k)).countP (fun j => f j = .engine) ≤ b))

/-- A step of a run is the machine's own step, with that input next in the list. -/
theorem step_of_runsSchedule (h : runsSchedule f σ) (k : Nat) :
    ∃ later, step { σ k with inputs := f k :: later } = .next (σ (k + 1)) := by
  obtain ⟨later, hk⟩ := h k
  exact ⟨later, (step_cons rfl).trans hk⟩

/-- What the run does at step k, in the middle of a transform: as `State.Running.step_cases`. -/
theorem State.Running.schedule_cases {n k : Nat} (h : (σ k).Running n) (hσ : runsSchedule f σ)
    (hr : ∀ p, f k ≠ .reset p) :
    (f k ≠ .engine ∧ (σ (k + 1)).Running n) ∨
    (f k = .engine ∧ n = 0 ∧ (σ (k + 1)).Completed) ∨
    (f k = .engine ∧ ∃ m, n = m + 1 ∧ (σ (k + 1)).Running m) := by
  obtain ⟨later, hstep⟩ := step_of_runsSchedule hσ k
  exact (h.withLists (f k :: later) _ _).step_cases hstep hr

section
variable {k b : Nat} (hbusy : (σ k).status.busy = true)
include hbusy

theorem endsWithin_of_reset {p : Bool} (h : f k = .reset p) : EndsWithin f σ k b :=
  ⟨k, le_rfl, fun j h1 h2 => by rwa [show j = k by omega], .inl ⟨p, h⟩⟩

theorem endsWithin_of_completed (hin : f k = .engine) (h : (σ (k + 1)).Completed) :
    EndsWithin f σ k (b + 1) := by
  refine ⟨k, le_rfl, fun j h1 h2 => by rwa [show j = k by omega], .inr ⟨hin, h, ?_⟩⟩
  simp [hin]

/-- One step more at the front counts when it is an Engine turn. -/
theorem EndsWithin.of_succ {c : Nat} (h : EndsWithin f σ (k + 1) b)
    (hc : b + (if f k = .engine then 1 else 0) ≤ c) : EndsWithin f σ k c := by
  obtain ⟨m, hkm, hbefore, hend⟩ := h
  refine ⟨m, by omega, fun j h1 h2 => ?_, hend.imp_right fun ⟨hin, hdone, hcount⟩ =>
    ⟨hin, hdone, ?_⟩⟩
  · rcases h1.eq_or_lt with rfl | hlt
    · exact hbusy
    · exact hbefore j hlt h2
  · rw [show m + 1 - k = (m + 1 - (k + 1)) + 1 by omega, List.range'_succ, List.countP_cons]
    simp only [decide_eq_true_eq]
    omega

end

/-- One step of the run ends it, or leaves it to be ended from the next state: after a turn of the
Engine with one phase less, after any other input with the same. -/
theorem State.Running.endsWithin_of_next {n k : Nat} (h : (σ k).Running n) (hσ : runsSchedule f σ)
    (hturn : ∀ m, n = m + 1 → (σ (k + 1)).Running m → EndsWithin f σ (k + 1) (m + 1))
    (hwait : f k ≠ .engine → (σ (k + 1)).Running n → EndsWithin f σ (k + 1) (n + 1)) :
    EndsWithin f σ k (n + 1) := by
  by_cases hr : ∃ p, f k = .reset p
  · obtain ⟨p, hp⟩ := hr
    exact endsWithin_of_reset h.busy hp
  · rcases h.schedule_cases hσ (not_exists.1 hr) with ⟨hhost, hrun⟩ | ⟨hin, rfl, hdone⟩ |
      ⟨hin, m, rfl, hrun⟩
    · exact (hwait hhost hrun).of_succ h.busy (by simp [hhost])
    · exact endsWithin_of_completed h.busy hin hdone
    · exact (hturn m rfl hrun).of_succ h.busy (by simp [hin])

/-- In the middle of a transform the run ends within n + 1 Engine turns: the outer induction is on
the phases left, the inner one on the steps until the Engine's next turn. -/
theorem State.Running.endsWithin {n k : Nat} (h : (σ k).Running n) (hσ : runsSchedule f σ)
    (hfair : ∀ k, (σ k).status.busy = true → ∃ m, k ≤ m ∧ f m = .engine) :
    EndsWithin f σ k (n + 1) := by
  induction n using Nat.strong_induction_on generalizing k with
  | _ n ihTurns =>
    have hturn {k : Nat} : ∀ m, n = m + 1 → (σ (k + 1)).Running m →
        EndsWithin f σ (k + 1) (m + 1) := fun m hm => ihTurns m (by omega)
    obtain ⟨m, hkm, hm⟩ := hfair k h.busy
    obtain ⟨wait, rfl⟩ := Nat.exists_eq_add_of_le hkm
    clear hkm
    induction wait generalizing k with
    | zero => exact h.endsWithin_of_next hσ hturn fun hhost => absurd hm hhost
    | succ wait ihWait =>
      have hm' : f (k + 1 + wait) = .engine := by rwa [Nat.add_right_comm]
      exact h.endsWithin_of_next hσ hturn fun _ hrun => ihWait hrun hm'

end Sys2Proof.Machine

open Sys2Proof Sys2Proof.Machine

/-- Settles O60: the machine's steps by their definition, and a running transform by its phases. -/
theorem fairSchedulesCompleteTransforms : Obligations.FairSchedulesCompleteTransforms := by
  unfold Obligations.FairSchedulesCompleteTransforms
  refine ⟨fun s i rest hin => step_cons hin, fun s hin => step_nil hin,
    fun f σ hσ hfair k hinv hbusy => ?_⟩
  obtain ⟨n, hrun, hn⟩ := hinv.running hbusy
  obtain ⟨m, hkm, hbefore, hend⟩ := hrun.endsWithin hσ hfair
  exact ⟨m, hkm, hbefore, hend.imp_right fun ⟨hin, ⟨hseq, hidle, hdone⟩, hcount⟩ =>
    ⟨hin, hidle, hdone, hseq, hcount.trans hn⟩⟩
end

section
/-! PROOF. The unwritten marker as the Host sees it (10_state.md R48), and the machine's totality
(93_implementation_defined.md, introduction). -/

namespace Sys2Proof.Machine

theorem Memory.readBlock_unwritten {m : Memory} {a n : Nat}
    (h : ∀ k, k < n → Memory.get m (a + k) = none) :
    Memory.readBlock m a n = List.replicate n none := by
  rw [Memory.readBlock_eq, List.eq_replicate_iff]
  refine ⟨by simp, fun c hc => ?_⟩
  obtain ⟨k, hk, rfl⟩ := List.mem_map.1 hc
  exact h k (List.mem_range.1 hk)

/-- An unwritten quarter reads as the draw of its step and slot. -/
theorem readWord_unwritten {s : State} {off : Nat} (slot : Nat)
    (h : ∀ k, k < 4 → Memory.get s.mem (off + k) = none) :
    s.readWord off slot = Config.unwrittenWord s.draws slot := by
  rw [State.readWord, Memory.readBlock_unwritten h, wordOrDraw_none]

end Sys2Proof.Machine

open Sys2Proof Sys2Proof.Machine

/-- Settles O23: the read of a bank quarter, whose word is the draw; the answer and the step's own
bookkeeping are all that changes. -/
theorem unwrittenQuarterReadsAsDraw : Obligations.UnwrittenQuarterReadsAsDraw := by
  unfold Obligations.UnwrittenQuarterReadsAsDraw
  intro s b i q rest hwf hidle hb hi hq hunwritten hin
  obtain ⟨hreg, hlt, h4⟩ := region_bankQuarter hwf hb hi hq
  rw [step_read_bank hreg hidle hlt h4 hin, bankOffset,
    readWord_unwritten (s := s.advanced rest) 0 hunwritten]
  rfl

/-- Settles O55: a step runs one input, and every input has a next state. -/
theorem everyStepHasANextState : Obligations.EveryStepHasANextState := by
  unfold Obligations.EveryStepHasANextState
  intro s
  obtain ⟨t, ht⟩ := runInput_next (s.inputs.headD .engine) (s.advanced s.later)
  exact ⟨t, (step_eq s).trans ht⟩
end
